-- ==== Sys2Proof/Word.lean ====
section
/-! DEFINITION. Sys2Proof/Word.lean: the word and byte types of FSKDEMOD (spec rules R11, R44, R46). -/

namespace Sys2Proof

/-- A 32-bit word: every transfer of the command and response streams, every register, every stream
position and every complex sample is one word (R11, R44, R46). -/
abbrev Word := BitVec 32

/-- A byte of the PendingPacket buffer or of a record (R43, R105). -/
abbrev Byte := BitVec 8

end Sys2Proof
end

