-- ==== Sys2Proof/Config.lean ====
section
/-! DEFINITION. Sys2Proof/Config.lean: the parameters of FSKDEMOD (spec rules R8, R9, R10). The values the spec fixes are
constants; the values the spec calls OPEN are the fields of `Params`, which the model takes as an argument (it
stands in `State.params` and no step changes it: notes/assumptions/1.md). -/

namespace Sys2Proof

/-- The OPEN parameters of R8. `NTAPS` is the length of `taps` and `M` is `symbolsPerBuffer`. -/
structure Params where
  /-- SYNC_WORD: any 32-bit value (R9). -/
  syncWord : Word
  /-- OVH: fixed payload overhead bytes, 0..255 (R9). -/
  ovh : Nat
  /-- RAW_COUNT: raw samples per PROCESS_BUFFER (R8). -/
  rawCount : Nat
  /-- DECIM: decimation factor (R8). -/
  decim : Nat
  /-- TAPS[0..NTAPS-1]: signed 16-bit filter taps, TAPS[0] first (R8). -/
  taps : List Int
  /-- TAP_SHIFT: filter output right shift, 0..31 (R9). -/
  tapShift : Nat
deriving DecidableEq, Repr

/-- NTAPS of R8. -/
def Params.ntaps (p : Params) : Nat := p.taps.length

/-- M of R8, the symbols of one buffer: RAW_COUNT / DECIM. -/
def Params.symbolsPerBuffer (p : Params) : Nat := p.rawCount / p.decim

/-- REFCFG, the reference configuration of R10. -/
def Params.reference : Params where
  syncWord := 0x8E89BED6
  ovh := 3
  rawCount := 2048
  decim := 4
  taps := [1]
  tapShift := 0

/-- SYNC_BITS (R8). -/
@[simp] abbrev syncBits : Nat := 32
/-- HDR_BYTES (R8). -/
@[simp] abbrev hdrBytes : Nat := 2
/-- DEVID_BYTES (R8). -/
@[simp] abbrev devidBytes : Nat := 6
/-- ACC_CAP (R8, R43). -/
@[simp] abbrev accCap : Nat := 512
/-- TYPE_MASK (R8). -/
@[simp] abbrev typeMask : Byte := 0xFF
/-- SIZE_MASK (R8). -/
@[simp] abbrev sizeMask : Byte := 0xFF
/-- SYM_CAP (R8, R38). -/
@[simp] abbrev symCap : Nat := 8192
/-- Q_DEPTH (R8, R29). -/
@[simp] abbrev qDepth : Nat := 8
/-- DATA_CAP = SIZE_MASK - DEVID_BYTES (R8). -/
@[simp] abbrev dataCap : Nat := 249
/-- FS_SQ, the full-scale squared magnitude (R8, R67). -/
@[simp] abbrev fsSq : Nat := 2 ^ 30
/-- DB_NONE, the dB level of an all-zero buffer (R8, R67). -/
@[simp] abbrev dbNone : Int := -128

end Sys2Proof
end

