-- ==== Sys2Proof/Syntax.lean ====
section
/-! DEFINITION. Sys2Proof/Syntax.lean: the commands of FSKDEMOD, one constructor per row of spec/opcode_table.json
(R55, R58). A command is selected by its opcode alone and its reserved field Z is checked after selection (R58), so
every constructor carries the Z bits of its header word; the check is the first line of its meaning (R101, R102,
R108, R109, R110). -/

namespace Sys2Proof

/-- The five commands (R55, R58). -/
inductive Instr where
  /-- CONFIGURE, format CFG: Z = header[23:9], RF = header[8], SEL = header[7:0] (R55, R101). -/
  | configure (z : BitVec 15) (rf : Bool) (sel : BitVec 8)
  /-- PROCESS_BUFFER, format PB: Z = header[23:0], then RAW_COUNT sample words in format S, the first received
  first (R55, R59, R102). -/
  | processBuffer (z : BitVec 24) (raw : List Word)
  /-- READ_PACKET, format NA: Z = header[23:0] (R55, R108). -/
  | readPacket (z : BitVec 24)
  /-- READ_REG, format RR: Z = header[23:8], REG = header[7:0] (R55, R109). -/
  | readReg (z : BitVec 16) (reg : BitVec 8)
  /-- CLEAR_STATUS, format CS: Z = header[23:2], MASK = header[1:0] (R55, R110). -/
  | clearStatus (z : BitVec 22) (mask : BitVec 2)
deriving DecidableEq, Repr

/-- The pseudo-command READ_STATUS: READ_REG 0x00 (R64). -/
def Instr.readStatus : Instr := .readReg 0 0x00

/-- The pseudo-command CLEAR_ALL: CLEAR_STATUS 3 (R64). -/
def Instr.clearAll : Instr := .clearStatus 0 3

/-- The pseudo-command RESYNC: CONFIGURE with RF = 0 (R64). -/
def Instr.resync (sel : BitVec 8) : Instr := .configure 0 false sel

end Sys2Proof
end

