-- ==== Sys2Proof/Machine/State.lean ====
section
/-! DEFINITION. Sys2Proof/Machine/State.lean: everything FSKDEMOD keeps from one command to the next (R16), its parameters
(R8), its two word streams (R37 (b) and (c)) and the machine right after reset (R35, R123). -/

namespace Sys2Proof.Machine

/-- Why a step stops with a fault. Both are unreachable from reset (I14, I17 of spec/93_implementation_defined.md). -/
inductive Fault where
  /-- SymRead of a position that is not held in the symbol store: not 1 <= W - n <= SYM_CAP (R40, I14). Raised by
  `symRead`. Safe: the spec says a model should fault here, and that no rule performs such a read (R42). -/
  | symbolNotHeld
  /-- AccWrite at an index of ACC_CAP or more, which ACC does not have (R43). Raised by `accWrite`. Safe: only a PLEN above
  510, which no rule writes (R94), leads there. -/
  | accOutOfRange
deriving DecidableEq, Repr

/-- Why a step gives no meaning. -/
inductive Refusal where
  /-- An instruction that has no meaning in the model. No arm of exec answers it: safe. -/
  | notModelled (mnemonic : String)
  /-- The parameters are outside the bounds of R9: the state describes no FSKDEMOD (I22). Raised by `step`. Safe: the spec
  says that a model refuses such a configuration. -/
  | parametersOutOfBounds
  /-- A PROCESS_BUFFER term that does not carry RAW_COUNT samples: no words decode to it (R59). Raised by
  `execProcessBuffer`. Safe: no step reaches it, since the decoder gives only terms that carry RAW_COUNT samples. -/
  | bufferNotRawCount
deriving DecidableEq, Repr

/-- What the host can put on the command interface: the next word of the command stream (R37), or the reset (R123). A reset has
its place among the words: what it does to whole commands before it that still wait is the model's choice
(notes/assumptions/17.md). -/
inductive HostEvent where
  | word (v : Word)
  | reset
deriving DecidableEq, Repr

/-- The ParseState (R20). The value 3 of the 2-bit register has no constructor: no rule produces it and none reads it. -/
inductive ParseState where
  | begin
  | header
  | payload
deriving DecidableEq, Repr

/-- A store of `width`-bit elements, as the pairs of an address and its element, addresses strictly rising and no pair with
the value an unlisted address reads as (`Memory.unlisted`). -/
abbrev Memory (width : Nat) := List (Nat × BitVec width)

/-- What an address that is not listed reads as: 0. ACC is 0 after reset and after a Begin entry (R35, R97). What the symbol
store holds at reset is unobservable, and the spec lets a model hold 0 (R35). -/
abbrev Memory.unlisted {width : Nat} : BitVec width := 0

/-- CorrelatorState: the elements a Begin entry clears together (R16, R23, R24, R87). -/
structure Correlator where
  /-- WIN: slot i is bit i (R23). -/
  win : Word
  /-- WOFF: the slot the next decided bit is written to (R23). -/
  woff : BitVec 5
  /-- FILL: bits written since the window was last cleared, saturating at 32 (R23). -/
  fill : BitVec 6
  /-- MATCH_REG (R24). -/
  matchReg : Word
  /-- LAST_MATCH_LEN (R24). -/
  lastMatchLen : BitVec 6
deriving DecidableEq, Repr

/-- The PendingPacket (R16, R26). -/
structure Pending where
  /-- ACC[0..511], the byte buffer (R43). -/
  acc : Memory 8
  /-- ACC_CUR, the write cursor (R26). -/
  accCur : BitVec 10
  /-- PTYPE, the declared PDU type (R26). -/
  ptype : BitVec 8
  /-- PSIZE, the declared payload size (R26). -/
  psize : BitVec 8
  /-- PLEN, the payload bytes to extract (R26, R94). -/
  plen : BitVec 10
deriving DecidableEq, Repr

/-- A DecodedPacket record (R105). -/
structure Record where
  devid : Vector Byte 6
  type : BitVec 8
  size : BitVec 8
  dlen : BitVec 8
  data : Vector Byte 249
  /-- DB, 8-bit two's complement. -/
  db : BitVec 8
deriving DecidableEq, Repr

/-- What a queue slot that holds no record contains in the model. R29: such a slot is never read (I15: any value). -/
def Record.blank : Record where
  devid := Vector.replicate 6 0
  type := 0
  size := 0
  dlen := 0
  data := Vector.replicate 249 0
  db := 0

/-- CorrelatorState after a clear (R35, R97). -/
def Correlator.clear : Correlator where
  win := 0
  woff := 0
  fill := 0
  matchReg := 0
  lastMatchLen := 0

/-- The PendingPacket after a clear (R35, R97). -/
def Pending.clear : Pending where
  acc := []
  accCur := 0
  ptype := 0
  psize := 0
  plen := 0

/-- The state of FSKDEMOD. Every element of the table of R16 is here under its spec name; `params`, `hostIn` and `respOut`
are the model's own (notes/assumptions/1.md, 2.md, 4.md). -/
structure State where
  /-- The parameters of R8: no state of the block, fixed for its life (R16). No step changes them. -/
  params : Params
  /-- CONFIGURED (R19). -/
  configured : Bool
  /-- CHANNEL (R19). -/
  channel : BitVec 8
  /-- PSTATE (R20). -/
  pstate : ParseState
  /-- W, register SYM_WPOS (R21). -/
  w : Word
  /-- SYM[0..8191], the symbol store, by entry number (R38). -/
  sym : Memory 32
  /-- CURSOR (R22). -/
  cursor : Word
  /-- WIN, WOFF, FILL, MATCH_REG, LAST_MATCH_LEN (R23, R24). -/
  corr : Correlator
  /-- SYNC_CAPTURE (R25). -/
  syncCapture : Word
  /-- HIT_POS (R25). -/
  hitPos : Word
  /-- ACC, ACC_CUR, PTYPE, PSIZE, PLEN (R26). -/
  pend : Pending
  /-- MAXSQ (R27). -/
  maxsq : Word
  /-- DB_LEVEL, 8-bit two's complement (R27). -/
  dbLevel : BitVec 8
  /-- FHIST[1..NTAPS-1], FHIST[1] (the newest) first (R28). -/
  fhist : List Word
  /-- Q[0..7], the record slots (R29). -/
  q : Vector Record 8
  /-- QHEAD (R29). -/
  qhead : BitVec 3
  /-- QCOUNT (R29). -/
  qcount : BitVec 4
  /-- PKT_COUNT (R30). -/
  pktCount : Word
  /-- DROP_COUNT (R30). -/
  dropCount : Word
  /-- BUF_COUNT (R30). -/
  bufCount : Word
  /-- SYNC_COUNT (R30). -/
  syncCount : Word
  /-- CMD_ERR (R31). -/
  cmdErr : Bool
  /-- Q_OVF (R31). -/
  qOvf : Bool
  /-- The command interface: what the host has put there and no step has consumed, the oldest first (R37 (b), R49, R123). -/
  hostIn : List HostEvent
  /-- The response stream: every word returned so far, the first returned first (R37 (c), R13). -/
  respOut : List Word
deriving DecidableEq, Repr

/-- Every state element at its reset value (the one normative table, R35), under the parameters `p`, which a reset leaves
unchanged (R123); both streams empty. -/
def State.resetWith (p : Params) : State where
  params := p
  configured := false
  channel := 0
  pstate := .begin
  w := 0
  sym := []
  cursor := 0
  corr := Correlator.clear
  syncCapture := 0
  hitPos := 0
  pend := Pending.clear
  maxsq := 0
  dbLevel := 0x80
  fhist := List.replicate (p.ntaps - 1) 0
  q := Vector.replicate 8 Record.blank
  qhead := 0
  qcount := 0
  pktCount := 0
  dropCount := 0
  bufCount := 0
  syncCount := 0
  cmdErr := false
  qOvf := false
  hostIn := []
  respOut := []

/-- The machine right after reset, under the reference configuration REFCFG (R10, R35): notes/assumptions/1.md. -/
def State.reset : State := State.resetWith Params.reference

end Sys2Proof.Machine
end

