-- ==== Sys2Proof/Machine/Ops.lean ====
section
/-! DEFINITION. Sys2Proof/Machine/Ops.lean: the named operations over the stores, the streams and the shared parse state:
the canonical store, SymRead, SymWrite, AccRead, AccWrite, respond, raise CmdError, the Begin entry and the reset
(R13, R39, R40, R43, R97, R112, R123). -/

namespace Sys2Proof.Machine

/-- The bounds the parameters must satisfy (R9). -/
def paramsInBounds (p : Params) : Bool :=
  decide (1 ≤ p.decim) && decide (1 ≤ p.rawCount) && decide (p.rawCount % p.decim = 0)
    && decide (1 ≤ p.symbolsPerBuffer) && decide (p.symbolsPerBuffer ≤ 4096)
    && decide (1 ≤ p.ntaps) && decide (p.ntaps ≤ 256)
    && p.taps.all (fun t => decide (-32768 ≤ t) && decide (t ≤ 32767))
    && decide (p.tapShift ≤ 31) && decide (p.ovh ≤ 255)

/-! ### The canonical store -/

/-- The element at an address. -/
def Memory.read {width : Nat} : Memory width → Nat → BitVec width
  | [], _ => Memory.unlisted
  | (b, x) :: rest, a => if a = b then x else Memory.read rest a

/-- Stores an element and keeps the canonical form: writing the value an unlisted address reads as removes the pair. -/
def Memory.write {width : Nat} : Memory width → Nat → BitVec width → Memory width
  | [], a, v => if v = Memory.unlisted then [] else [(a, v)]
  | (b, x) :: rest, a, v =>
    if a < b then
      if v = Memory.unlisted then (b, x) :: rest else (a, v) :: (b, x) :: rest
    else if a = b then
      if v = Memory.unlisted then rest else (a, v) :: rest
    else (b, x) :: Memory.write rest a v

/-- The canonical form from address `lo` on: addresses strictly rising, all below `cap`, no listed `Memory.unlisted`. -/
def Memory.wfFrom {width : Nat} (cap : Nat) : Nat → Memory width → Bool
  | _, [] => true
  | lo, (a, v) :: rest =>
    decide (lo ≤ a) && decide (a < cap) && decide (v ≠ Memory.unlisted) && Memory.wfFrom cap (a + 1) rest

/-- The canonical form of a store with addresses 0..cap-1. -/
def Memory.wf {width : Nat} (cap : Nat) (m : Memory width) : Bool := Memory.wfFrom cap 0 m

/-! ### Bits -/

/-- Bit `i` of a word set to `b`. -/
def setBit (v : Word) (i : Nat) (b : Bool) : Word :=
  if b then v ||| (1#32 <<< i) else v &&& ~~~(1#32 <<< i)

/-! ### Streams and CmdError -/

/-- `respond(w)`: appends a word to the response stream (R13). -/
def respond (v : Word) (s : State) : State := { s with respOut := s.respOut ++ [v] }

/-- Several words appended in order. -/
def respondAll (vs : List Word) (s : State) : State := { s with respOut := s.respOut ++ vs }

/-- The check that rejects a command: events E1 to E3 (R113). -/
inductive CmdErrorCause where
  | illegalOp
  | reservedBits
  | reservedRegister
deriving DecidableEq, Repr

/-- `raise CmdError(cause)`: CMD_ERR is set and nothing else changes; the cause is not recorded anywhere (R112). The one
exception of FSKDEMOD: it saves no state and transfers control nowhere, and nothing returns from it (R111). -/
def raiseCmdError (_cause : CmdErrorCause) (s : State) : State := { s with cmdErr := true }

/-! ### The symbol store -/

/-- The symbols written at or after CURSOR: W -_32 CURSOR (R41). -/
def held (s : State) : Nat := (s.w - s.cursor).toNat

/-- I, bits [15:0] of a sample word, as a signed integer (R44, R57). -/
def sampleI (v : Word) : Int := (v.extractLsb' 0 16).toInt

/-- Q, bits [31:16] of a sample word, as a signed integer (R44, R57). -/
def sampleQ (v : Word) : Int := (v.extractLsb' 16 16).toInt

/-- The entry of the symbol store that holds position `n` (R38). -/
def symEntry (n : Word) : Nat := n.toNat % symCap

/-- SymRead(n): s[n] as the pair (I, Q), defined only when 1 <= W -_32 n <= SYM_CAP; a fault otherwise (R40). -/
def symRead (s : State) (n : Word) : Except Fault (Int × Int) :=
  if 1 ≤ (s.w - n).toNat ∧ (s.w - n).toNat ≤ symCap then
    .ok (sampleI (s.sym.read (symEntry n)), sampleQ (s.sym.read (symEntry n)))
  else .error .symbolNotHeld

/-- SymWrite(n, v) (R39). -/
def symWrite (n v : Word) (s : State) : State := { s with sym := s.sym.write (symEntry n) v }

/-- SymWrite of consecutive positions from `n` on, in order (R39). -/
def symWriteAll : Word → List Word → State → State
  | _, [], s => s
  | n, v :: vs, s => symWriteAll (n + 1) vs (symWrite n v s)

/-! ### The PendingPacket byte buffer -/

/-- AccRead(i), for i in 0..ACC_CAP-1 (R43). -/
def accRead (s : State) (i : Fin 512) : Byte := s.pend.acc.read i.val

/-- AccWrite(i, v), for i in 0..ACC_CAP-1; a fault at an index ACC does not have (R43). -/
def accWrite (s : State) (i : Nat) (v : Byte) : Except Fault State :=
  if i < accCap then .ok { s with pend := { s.pend with acc := s.pend.acc.write i v } } else .error .accOutOfRange

/-! ### Begin entry, filter history, reset -/

/-- BEGIN_ENTRY: the parse returns to Begin and the per-packet and correlator state is cleared (R97). -/
def beginEntry (s : State) : State :=
  { s with pstate := .begin, corr := Correlator.clear, pend := Pending.clear }

/-- Every FHIST[k] becomes (0, 0) (R75). -/
def clearHistory (s : State) : State := { s with fhist := List.replicate (s.params.ntaps - 1) 0 }

/-- Asserting reset: every state element takes its value of R35 and the parameters stay (R123). The words already returned
on the response stream stay returned, and `rest` is what the host put on the command interface after the reset
(notes/assumptions/3.md). -/
def assertReset (rest : List HostEvent) (s : State) : State :=
  { State.resetWith s.params with hostIn := rest, respOut := s.respOut }

/-- The host puts events on the command interface, after those already there: the arbiter's order (R48, R50). -/
def deliver (evs : List HostEvent) (s : State) : State := { s with hostIn := s.hostIn ++ evs }

end Sys2Proof.Machine
end

