-- ==== Sys2Proof/Machine/Operands.lean ====
section
/-! DEFINITION. Sys2Proof/Machine/Operands.lean: the register numbers of READ_REG and the integer forms of the data path
(R12, R32, R71). The header fields of R57 are taken apart in Sys2Proof/Decode.lean; a sample word's I and Q are
`sampleI` and `sampleQ`. -/

namespace Sys2Proof.Machine

/-- The registers of the map of R32, in number order. -/
inductive Reg where
  | status
  | config
  | symWpos
  | cursor
  | window
  | winCtrl
  | matchBits
  | syncCapture
  | hitPos
  | pending
  | dbLevel
  | maxsq
  | pktCount
  | dropCount
  | bufCount
  | syncCount
  | pendingLen
deriving DecidableEq, Repr

/-- The register with a number: 0x00..0x10 are assigned, 0x11..0xFF are reserved (R32, R54). -/
def Reg.ofNumber (n : BitVec 8) : Option Reg :=
  match n.toNat with
  | 0x00 => some .status
  | 0x01 => some .config
  | 0x02 => some .symWpos
  | 0x03 => some .cursor
  | 0x04 => some .window
  | 0x05 => some .winCtrl
  | 0x06 => some .matchBits
  | 0x07 => some .syncCapture
  | 0x08 => some .hitPos
  | 0x09 => some .pending
  | 0x0A => some .dbLevel
  | 0x0B => some .maxsq
  | 0x0C => some .pktCount
  | 0x0D => some .dropCount
  | 0x0E => some .bufCount
  | 0x0F => some .syncCount
  | 0x10 => some .pendingLen
  | _ => none

/-- The number of a register (R32). -/
def Reg.number : Reg → BitVec 8
  | .status => 0x00
  | .config => 0x01
  | .symWpos => 0x02
  | .cursor => 0x03
  | .window => 0x04
  | .winCtrl => 0x05
  | .matchBits => 0x06
  | .syncCapture => 0x07
  | .hitPos => 0x08
  | .pending => 0x09
  | .dbLevel => 0x0A
  | .maxsq => 0x0B
  | .pktCount => 0x0C
  | .dropCount => 0x0D
  | .bufCount => 0x0E
  | .syncCount => 0x0F
  | .pendingLen => 0x10

/-- sat16 (R12). -/
def sat16 (v : Int) : Int := if v < -32768 then -32768 else if 32767 < v then 32767 else v

/-- `a >> n` on a signed integer: floor(a / 2^n) (R12). -/
def shiftFloor (a : Int) (n : Nat) : Int := a / (2 ^ n : Nat)

/-- The sample word with the components I and Q, each kept to its low 16 bits (R44, R71). -/
def sampleWord (i q : Int) : Word := BitVec.ofInt 16 q ++ BitVec.ofInt 16 i

end Sys2Proof.Machine
end

