-- ==== Sys2Proof/Machine/Decimator.lean ====
section
/-! DEFINITION. Sys2Proof/Machine/Decimator.lean: the Decimator (spec/41_decimator.md, R70 to R75). -/

namespace Sys2Proof.Machine

/-- X(t0 + c - k): the sample k positions before buffer offset `c`. At or after the buffer's start it is raw[c - k], before
it FHIST[k - c] (R71). A position before the first sample of the stream reads (0, 0) (R70). -/
def sampleBack (raw fhist : List Word) (c k : Nat) : Word :=
  if k ≤ c then raw.getD (c - k) 0 else fhist.getD (k - c - 1) 0

/-- The sum over k from `k` on of TAPS[k] * comp(X(c - k)), exact (R71). -/
def tapSum (x : Nat → Word) (comp : Word → Int) : List Int → Nat → Int
  | [], _ => 0
  | t :: ts, k => t * comp (x k) + tapSum x comp ts (k + 1)

/-- Output j of DECIMATE, aligned with raw sample j*DECIM + DECIM - 1 (R71, R72). -/
def decimOut (p : Params) (raw fhist : List Word) (j : Nat) : Word :=
  sampleWord
    (sat16 (shiftFloor (tapSum (sampleBack raw fhist (j * p.decim + p.decim - 1)) sampleI p.taps 0) p.tapShift))
    (sat16 (shiftFloor (tapSum (sampleBack raw fhist (j * p.decim + p.decim - 1)) sampleQ p.taps 0) p.tapShift))

/-- y[0..M-1] of DECIMATE (R71, R72). -/
def decimOuts (p : Params) (raw fhist : List Word) : List Word :=
  (List.range p.symbolsPerBuffer).map (decimOut p raw fhist)

/-- FHIST' of DECIMATE, FHIST'[1] first: FHIST'[k] = X(t0 + RAW_COUNT - k), from the old FHIST and raw (R71). -/
def nextHistory (p : Params) (raw fhist : List Word) : List Word :=
  (List.range (p.ntaps - 1)).map (fun i => sampleBack raw fhist p.rawCount (i + 1))

end Sys2Proof.Machine
end

