-- ==== Sys2Proof/Machine/Flags.lean ====
section
/-! DEFINITION. Sys2Proof/Machine/Flags.lean: the status output and the value of every register of the map (R32, R33, R34,
R115). FSKDEMOD has no arithmetic flags; its status bits are CONFIGURED, PSTATE, PKT_AVAIL, CMD_ERR and Q_OVF. -/

namespace Sys2Proof.Machine

/-- The status output PKT_AVAIL, a level: 1 exactly while QCOUNT > 0 (R115). -/
def pktAvail (s : State) : Bool := decide (0 < s.qcount.toNat)

/-- The 2-bit code of PSTATE (R20). -/
def ParseState.code : ParseState → BitVec 2
  | .begin => 0
  | .header => 1
  | .payload => 2

/-- STATUS (R33), from bit 31 down. -/
def statusReg (s : State) : Word :=
  0#14 ++ BitVec.ofBool s.qOvf ++ BitVec.ofBool s.cmdErr ++ 0#4 ++ s.qcount ++ 0#4
    ++ BitVec.ofBool (pktAvail s) ++ s.pstate.code ++ BitVec.ofBool s.configured

/-- CONFIG (R32). -/
def configReg (s : State) : Word := 0#24 ++ s.channel

/-- WIN_CTRL (R34), from bit 31 down. -/
def winCtrlReg (s : State) : Word :=
  0#10 ++ s.corr.lastMatchLen ++ 0#2 ++ s.corr.fill ++ 0#3 ++ s.corr.woff

/-- PENDING (R32). -/
def pendingReg (s : State) : Word := 0#16 ++ s.pend.psize ++ s.pend.ptype

/-- PENDING_LEN (R32). -/
def pendingLenReg (s : State) : Word := 0#6 ++ s.pend.accCur ++ 0#6 ++ s.pend.plen

/-- REGVALUE (R32). -/
def regValue (s : State) : Reg → Word
  | .status => statusReg s
  | .config => configReg s
  | .symWpos => s.w
  | .cursor => s.cursor
  | .window => s.corr.win
  | .winCtrl => winCtrlReg s
  | .matchBits => s.corr.matchReg
  | .syncCapture => s.syncCapture
  | .hitPos => s.hitPos
  | .pending => pendingReg s
  | .dbLevel => s.dbLevel.signExtend 32
  | .maxsq => s.maxsq
  | .pktCount => s.pktCount
  | .dropCount => s.dropCount
  | .bufCount => s.bufCount
  | .syncCount => s.syncCount
  | .pendingLen => pendingLenReg s

end Sys2Proof.Machine
end

