-- ==== Sys2Proof/Machine/Demod.lean ====
section
/-! DEFINITION. Sys2Proof/Machine/Demod.lean: the Differential Bit Demodulator and byte extraction
(spec/42_bit_demodulator.md, R76 to R80, and R92). -/

namespace Sys2Proof.Machine

/-- DEMOD: 1 when the exact cross product Ia*Qb - Ib*Qa is positive, else 0 (R76). -/
def demod (a b : Int × Int) : Bool := decide (0 < a.1 * b.2 - b.1 * a.2)

/-- b[n] = DEMOD(s[n], s[n+1]), positions modulo 2^32 (R78). The one function of both call sites (R79). -/
def streamBit (s : State) (n : Word) : Except Fault Bool := do
  let a ← symRead s n
  let b ← symRead s (n + 1)
  return demod a b

/-- The sum of b[q+k] * 2^k over k < n (R92). -/
def extractBits (s : State) (q : Word) : Nat → Except Fault Nat
  | 0 => .ok 0
  | k + 1 => do
    let v ← extractBits s q k
    let b ← streamBit s (q + BitVec.ofNat 32 k)
    return v + b.toNat * 2 ^ k

/-- EXTRACT_BYTE(q): b[q+k] into bit k (R92). -/
def extractByte (s : State) (q : Word) : Except Fault Byte := do
  let v ← extractBits s q 8
  return BitVec.ofNat 8 v

end Sys2Proof.Machine
end

