-- ==== Sys2Proof/Machine/Correlator.lean ====
section
/-! DEFINITION. Sys2Proof/Machine/Correlator.lean: the Sync Correlator (spec/43_sync_correlator.md, R81 to R88). -/

namespace Sys2Proof.Machine

/-- COMPARE from bit `p` on, `fuel` bits left: the matched-bits register and the number of matched bits at the first
mismatch, or at the end (R83). -/
def compareFrom (win sync : Word) (oldest : Nat) : Nat → Nat → Word → Word × Nat
  | 0, p, m => (m, p)
  | fuel + 1, p, m =>
    if win.getLsbD ((oldest + p) % 32) = sync.getLsbD p then
      compareFrom win sync oldest fuel (p + 1) (setBit m p (win.getLsbD ((oldest + p) % 32)))
    else (m, p)

/-- COMPARE: the window is read from the slot after WOFF, the oldest, against SYNC_WORD bit 0 upward (R83). -/
def compareWindow (sync : Word) (c : Correlator) : Correlator :=
  { c with
    matchReg := (compareFrom c.win sync ((c.woff.toNat + 1) % 32) syncBits 0 0).1
    lastMatchLen := BitVec.ofNat 6 (compareFrom c.win sync ((c.woff.toNat + 1) % 32) syncBits 0 0).2 }

/-- The correlator state after one more decided bit: the bit into slot WOFF, FILL up by one to 32 at most, COMPARE, then
WOFF on by one modulo 32 (R82). -/
def pushBit (sync : Word) (bit : Bool) (c : Correlator) : Correlator :=
  let c1 := compareWindow sync
    { c with win := setBit c.win c.woff.toNat bit, fill := BitVec.ofNat 6 (min (c.fill.toNat + 1) 32) }
  { c1 with woff := c1.woff + 1 }

/-- The hit condition, after a step: FILL = 32 and LAST_MATCH_LEN = 32 (R84). -/
def isHit (c : Correlator) : Bool := decide (c.fill.toNat = 32) && decide (c.lastMatchLen.toNat = 32)

/-- CORR_STEP after its DEMOD: the state once `bit` is decided for position CURSOR (R82, R84). -/
def corrNext (s : State) (bit : Bool) : State :=
  let s1 := { s with corr := pushBit s.params.syncWord bit s.corr, cursor := s.cursor + 1 }
  if isHit s1.corr then
    { s1 with
      syncCapture := s1.corr.matchReg
      hitPos := s.cursor - 31
      syncCount := s.syncCount + 1
      pstate := .header }
  else s1

/-- CORR_STEP: the bit b[CURSOR], then the step (R82). -/
def corrStep (s : State) : Except Fault State := do
  let bit ← streamBit s s.cursor
  return corrNext s bit

end Sys2Proof.Machine
end

