-- ==== Sys2Proof/Machine/Dispatcher.lean ====
section
/-! DEFINITION. Sys2Proof/Machine/Dispatcher.lean: record assembly, the outbound queue and the record's serialization
(spec/45_commands_and_dispatcher.md section 3, R105 to R107, and R56). -/

namespace Sys2Proof.Machine

/-- A byte of SYNC_CAPTURE: bits [8k+7 : 8k] (R106). -/
def captureByte (s : State) (k : Nat) : Byte := s.syncCapture.extractLsb' (8 * k) 8

/-- The DEVID of a record: ACC[2..7] when PSIZE >= 6, else the four bytes of SYNC_CAPTURE and two zero bytes (R106). -/
def recordDevid (s : State) : Vector Byte 6 :=
  if devidBytes ≤ s.pend.psize.toNat then
    #v[accRead s 2, accRead s 3, accRead s 4, accRead s 5, accRead s 6, accRead s 7]
  else #v[captureByte s 0, captureByte s 1, captureByte s 2, captureByte s 3, 0, 0]

/-- The DLEN of a record: PSIZE - 6 when PSIZE >= 6, else 0 (R106). -/
def recordDlen (s : State) : Nat := s.pend.psize.toNat - devidBytes

/-- The DATA of a record: ACC[8+i] for i < DLEN, else 0 (R106). -/
def recordData (s : State) : Vector Byte 249 :=
  Vector.ofFn fun i : Fin 249 => if i.val < recordDlen s then accRead s ⟨8 + i.val, by omega⟩ else 0

/-- ASSEMBLE (R106). -/
def assemble (s : State) : Record where
  devid := recordDevid s
  type := s.pend.ptype
  size := s.pend.psize
  dlen := BitVec.ofNat 8 (recordDlen s)
  data := recordData s
  db := s.dbLevel

/-- ENQUEUE, drop-newest (R107). -/
def enqueue (r : Record) (s : State) : State :=
  if s.qcount.toNat < qDepth then
    { s with
      q := s.q.set ((s.qhead.toNat + s.qcount.toNat) % 8) r (Nat.mod_lt _ (by decide))
      qcount := s.qcount + 1 }
  else { s with dropCount := s.dropCount + 1, qOvf := true }

/-- The record at QHEAD, the oldest when QCOUNT > 0 (R29, R108). -/
def oldestRecord (s : State) : Record := s.q[s.qhead.toNat]'(s.qhead.isLt)

/-- The oldest record leaves the queue (R108). -/
def dequeue (s : State) : State := { s with qhead := s.qhead + 1, qcount := s.qcount - 1 }

/-- The 260 bytes of a record (R56). -/
def Record.bytes (r : Record) : List Byte :=
  r.devid.toList ++ [r.type, r.size, r.dlen, r.db] ++ r.data.toList ++ [0]

/-- Bytes into words, byte 4w + j into bits [8j+7 : 8j] of word w (R45). -/
def packWords : List Byte → List Word
  | b0 :: b1 :: b2 :: b3 :: rest => (b3 ++ b2 ++ b1 ++ b0) :: packWords rest
  | _ => []

/-- SERIALIZE: the 65 words of a record (R56, R108). -/
def Record.words (r : Record) : List Word := packWords r.bytes

end Sys2Proof.Machine
end

