-- ==== Sys2Proof/Machine/Parser.lean ====
section
/-! DEFINITION. Sys2Proof/Machine/Parser.lean: the Packet State Machine (spec/44_packet_state_machine.md, R89 to R100). A step
answers whether it proceeded, and the state. -/

namespace Sys2Proof.Machine

/-- BEGIN_SCAN, at most `fuel` correlator steps: true at a hit, false when no defined bit is left (R91). -/
def beginScan : Nat → State → Except Fault (Bool × State)
  | 0, s => .ok (false, s)
  | fuel + 1, s =>
    if 2 ≤ held s then do
      let s1 ← corrStep s
      if s1.pstate = .header then return (true, s1) else beginScan fuel s1
    else .ok (false, s)

/-- The loop of HEADER_STEP and of PAYLOAD_STEP: AccWrite(base + i, EXTRACT_BYTE(q +_32 8*i)) for i in 0..n-1, in order
(R94, R96). -/
def extractInto (base : Nat) (q : Word) : Nat → State → Except Fault State
  | 0, s => .ok s
  | i + 1, s => do
    let s1 ← extractInto base q i s
    let b ← extractByte s1 (q + BitVec.ofNat 32 (8 * i))
    accWrite s1 (base + i) b

/-- HEADER_STEP once the header bytes are in ACC: ACC_CUR, PTYPE, PSIZE, PLEN, CURSOR and PSTATE (R94). -/
def headerDone (s : State) : State :=
  { s with
    pend :=
      { acc := s.pend.acc
        accCur := BitVec.ofNat 10 hdrBytes
        ptype := accRead s 0 &&& typeMask
        psize := accRead s 1 &&& sizeMask
        plen := BitVec.ofNat 10 (min ((accRead s 1 &&& sizeMask).toNat + s.params.ovh) (accCap - hdrBytes)) }
    cursor := s.cursor + BitVec.ofNat 32 (8 * hdrBytes)
    pstate := .payload }

/-- HEADER_STEP: a deferral while fewer than 17 symbols are there (R93), else the header (R94). -/
def headerStep (s : State) : Except Fault (Bool × State) :=
  if held s < 8 * hdrBytes + 1 then .ok (false, s)
  else do
    let s1 ← extractInto 0 s.cursor hdrBytes s
    return (true, headerDone s1)

/-- PAYLOAD_STEP once the payload bytes are in ACC: the write cursor ACC_CUR (R96). -/
def payloadRead (s : State) : State :=
  { s with pend := { s.pend with accCur := BitVec.ofNat 10 (hdrBytes + s.pend.plen.toNat) } }

/-- PAYLOAD_STEP after ENQUEUE: PKT_COUNT, and CURSOR at the first symbol after the packet (R96). -/
def packetPassed (s : State) : State :=
  { s with pktCount := s.pktCount + 1, cursor := s.cursor + BitVec.ofNat 32 (8 * s.pend.plen.toNat) }

/-- PAYLOAD_STEP once the payload bytes are in ACC: ACC_CUR, ASSEMBLE, ENQUEUE, PKT_COUNT, CURSOR and the Begin entry, in
that order (R96). -/
def payloadDone (s : State) : State :=
  beginEntry (packetPassed (enqueue (assemble (payloadRead s)) (payloadRead s)))

/-- PAYLOAD_STEP: a deferral while fewer than 8 * PLEN + 1 symbols are there (R95), else the packet (R96). -/
def payloadStep (s : State) : Except Fault (Bool × State) :=
  if held s < 8 * s.pend.plen.toNat + 1 then .ok (false, s)
  else do
    let s1 ← extractInto hdrBytes s.cursor s.pend.plen.toNat s
    return (true, payloadDone s1)

/-- One turn of PARSE's loop (R89). W -_32 CURSOR bounds the scan, since every correlator step moves CURSOR by one. -/
def parseStep (s : State) : Except Fault (Bool × State) :=
  match s.pstate with
  | .begin => beginScan (held s) s
  | .header => headerStep s
  | .payload => payloadStep s

/-- PARSE's loop, at most `fuel` turns (R89). -/
def parseLoop : Nat → State → Except Fault State
  | 0, s => .ok s
  | fuel + 1, s => do
    let r ← parseStep s
    if r.1 then parseLoop fuel r.2 else return r.2

/-- PARSE (R89). Every turn that proceeds lowers 2 * (W -_32 CURSOR) + (1 in Payload), so the bound is never what ends the
loop (R90). -/
def parse (s : State) : Except Fault State := parseLoop (2 * held s + 2) s

end Sys2Proof.Machine
end

