-- ==== Sys2Proof/Machine/Power.lean ====
section
/-! DEFINITION. Sys2Proof/Machine/Power.lean: the Power Estimator (spec/40_power_estimator.md, R65 to R69). -/

namespace Sys2Proof.Machine

/-- The squared magnitude I*I + Q*Q of a sample, exact (R65). -/
def magSq (v : Word) : Nat := (sampleI v * sampleI v + sampleQ v * sampleQ v).toNat

/-- The largest squared magnitude of a raw buffer, from `mx` on (R66). -/
def peakFrom : Nat → List Word → Nat
  | mx, [] => mx
  | mx, v :: vs => peakFrom (if mx < magSq v then magSq v else mx) vs

/-- FS_SQ * 10^(d/10) <= x, decided without reals: for d >= 0, FS_SQ^10 * 10^d <= x^10, and for d < 0,
FS_SQ^10 <= x^10 * 10^(-d) (R67). The two cases are one, since the other power is 10^0. -/
def dbAtMost (d : Int) (x : Nat) : Bool :=
  decide (fsSq ^ 10 * 10 ^ d.toNat ≤ x ^ 10 * 10 ^ (-d).toNat)

/-- The greatest d in -91..k-91 with `dbAtMost d x`, and -91 where there is none. -/
def greatestDb (x : Nat) : Nat → Int
  | 0 => -91
  | k + 1 => if dbAtMost ((k : Int) - 90) x then (k : Int) - 90 else greatestDb x k

/-- MAG2DB(x) (R67). For every 32-bit x >= 1 the greatest d lies in -91..6 (in -91..3 up to 2^31), so the search from 6
down finds it. -/
def mag2db (x : Nat) : Int := if x = 0 then dbNone else greatestDb x 97

/-- POWER_EST (R66). -/
def powerEst (raw : List Word) (s : State) : State :=
  { s with maxsq := BitVec.ofNat 32 (peakFrom 0 raw), dbLevel := BitVec.ofInt 8 (mag2db (peakFrom 0 raw)) }

end Sys2Proof.Machine
end

