-- ==== Sys2Proof/Machine/Commands.lean ====
section
/-! DEFINITION. Sys2Proof/Machine/Commands.lean: the meaning of each command (spec/45_commands_and_dispatcher.md, R101 to R104
and R108 to R110). -/

namespace Sys2Proof.Machine

/-- CONFIGURE (R101). -/
def execConfigure (z : BitVec 15) (rf : Bool) (sel : BitVec 8) (s : State) : Host.Outcome State Fault Refusal :=
  if z ≠ 0 then .next (raiseCmdError .reservedBits s)
  else
    let s1 := { s with channel := sel, configured := true }
    let s2 := beginEntry (if rf then clearHistory s1 else s1)
    .next { s2 with cursor := s2.w }

/-- The stages of a PROCESS_BUFFER before the parse, in the order of R103: the power estimate, the decimation, the symbols
into the store, W and BUF_COUNT (R102). -/
def ingest (raw : List Word) (s : State) : State :=
  let s1 := powerEst raw s
  let y := decimOuts s1.params raw s1.fhist
  let s2 := symWriteAll s1.w y { s1 with fhist := nextHistory s1.params raw s1.fhist }
  { s2 with w := s2.w + BitVec.ofNat 32 s2.params.symbolsPerBuffer, bufCount := s2.bufCount + 1 }

/-- PROCESS_BUFFER (R102, R103, R104). -/
def execProcessBuffer (z : BitVec 24) (raw : List Word) (s : State) : Host.Outcome State Fault Refusal :=
  if z ≠ 0 then .next (raiseCmdError .reservedBits s)
  else if s.configured = false then .next s
  else if raw.length ≠ s.params.rawCount then .refused .bufferNotRawCount
  else
    match parse (ingest raw s) with
    | .ok s1 => .next s1
    | .error f => .fault f

/-- READ_PACKET (R108). -/
def execReadPacket (z : BitVec 24) (s : State) : Host.Outcome State Fault Refusal :=
  if z ≠ 0 then .next (raiseCmdError .reservedBits (respond 0 s))
  else if s.qcount = 0 then .next (respond 0 s)
  else .next (dequeue (respondAll (1 :: (oldestRecord s).words) s))

/-- READ_REG (R109). -/
def execReadReg (z : BitVec 16) (reg : BitVec 8) (s : State) : Host.Outcome State Fault Refusal :=
  if z ≠ 0 then .next (raiseCmdError .reservedBits (respond 0 s))
  else
    match Reg.ofNumber reg with
    | none => .next (raiseCmdError .reservedRegister (respond 0 s))
    | some r => .next (respond (regValue s r) s)

/-- CLEAR_STATUS (R110). -/
def execClearStatus (z : BitVec 22) (mask : BitVec 2) (s : State) : Host.Outcome State Fault Refusal :=
  if z ≠ 0 then .next (raiseCmdError .reservedBits s)
  else
    .next { s with
      cmdErr := s.cmdErr && !mask.getLsbD 0
      qOvf := s.qOvf && !mask.getLsbD 1 }

end Sys2Proof.Machine
end

