-- ==== Sys2Proof/Machine/Dispatch.lean ====
section
/-! DEFINITION. Sys2Proof/Machine/Dispatch.lean: one arm per command, each a direct call of its meaning. -/

namespace Sys2Proof.Machine

def exec (i : Instr) (s : State) : Host.Outcome State Fault Refusal :=
  match i with
  | .configure z rf sel => Sys2Proof.Machine.execConfigure z rf sel s
  | .processBuffer z raw => Sys2Proof.Machine.execProcessBuffer z raw s
  | .readPacket z => Sys2Proof.Machine.execReadPacket z s
  | .readReg z reg => Sys2Proof.Machine.execReadReg z reg s
  | .clearStatus z mask => Sys2Proof.Machine.execClearStatus z mask s

end Sys2Proof.Machine
end

