-- ==== Sys2Proof/WellFormed.lean ====
section
/-! DEFINITION. Sys2Proof/WellFormed.lean: which commands some sequence of command words stands for (`Instr.shaped`), and
which of them the spec calls well-formed (`Instr.wellFormed`: the reserved field is 0, R60, R101). -/

namespace Sys2Proof

/-- The reserved field Z of a command is 0 (R55, R60). -/
def Instr.reservedClear : Instr → Bool
  | .configure z _ _ => z == 0
  | .processBuffer z _ => z == 0
  | .readPacket z => z == 0
  | .readReg z _ => z == 0
  | .clearStatus z _ => z == 0

/-- A PROCESS_BUFFER carries exactly RAW_COUNT sample words; every other command carries none (R58, R59). A term that
fails this is the decoding of no words. -/
def Instr.shaped (p : Params) : Instr → Bool
  | .configure _ _ _ => true
  | .processBuffer _ raw => raw.length == p.rawCount
  | .readPacket _ => true
  | .readReg _ _ => true
  | .clearStatus _ _ => true

/-- A well-formed command: shaped, and its reserved field is 0 (R60). -/
def Instr.wellFormed (p : Params) (i : Instr) : Bool := i.reservedClear && i.shaped p

end Sys2Proof
end

