-- ==== Sys2Proof/Decode.lean ====
section
/-! DEFINITION. Sys2Proof/Decode.lean: from command words to a command and back (spec/30_encoding.md, R55 to R62). -/

namespace Sys2Proof

/-- Why a word sequence is no command. -/
inductive DecodeError where
  /-- There is no header word. -/
  | noWord
  /-- OP = 0x00 or 0x06..0xFF: E1 ILLEGAL_OP (R61). -/
  | illegalOpcode (op : BitVec 8)
  /-- Fewer than RAW_COUNT words follow a PROCESS_BUFFER header (R59). -/
  | truncated
deriving DecidableEq, Repr

/-- OP, bits [31:24] of a header word (R55). -/
def opcodeOf (hdr : Word) : BitVec 8 := hdr.extractLsb' 24 8

/-- The words a command occupies, told from OP alone: 1 + RAW_COUNT for OP = 0x02, and 1 for every other OP, legal or
not (R59). -/
def commandLength (p : Params) (hdr : Word) : Nat :=
  if opcodeOf hdr = 0x02 then 1 + p.rawCount else 1

/-- `atLeast n l`: the list has `n` or more elements. -/
def atLeast {α : Type} : Nat → List α → Bool
  | 0, _ => true
  | _ + 1, [] => false
  | n + 1, _ :: l => atLeast n l

/-- Decodes the command at the front of a word sequence and returns it with the words after it. The opcode alone selects
the command; the field positions are those of R55 and R57. Total: what is no command is rejected by name (R61). -/
def decode (p : Params) : List Word → Except DecodeError (Instr × List Word)
  | [] => .error .noWord
  | hdr :: rest =>
    if opcodeOf hdr = 0x01 then
      .ok (.configure (hdr.extractLsb' 9 15) (hdr.getLsbD 8) (hdr.extractLsb' 0 8), rest)
    else if opcodeOf hdr = 0x02 then
      if atLeast p.rawCount rest then
        .ok (.processBuffer (hdr.extractLsb' 0 24) (rest.take p.rawCount), rest.drop p.rawCount)
      else .error .truncated
    else if opcodeOf hdr = 0x03 then .ok (.readPacket (hdr.extractLsb' 0 24), rest)
    else if opcodeOf hdr = 0x04 then .ok (.readReg (hdr.extractLsb' 8 16) (hdr.extractLsb' 0 8), rest)
    else if opcodeOf hdr = 0x05 then .ok (.clearStatus (hdr.extractLsb' 2 22) (hdr.extractLsb' 0 2), rest)
    else .error (.illegalOpcode (opcodeOf hdr))

/-- The header word of a command, field by field from bit 31 down (R55). -/
def encodeHeader : Instr → Word
  | .configure z rf sel => 0x01#8 ++ z ++ BitVec.ofBool rf ++ sel
  | .processBuffer z _ => 0x02#8 ++ z
  | .readPacket z => 0x03#8 ++ z
  | .readReg z reg => 0x04#8 ++ z ++ reg
  | .clearStatus z mask => 0x05#8 ++ z ++ mask

/-- The sample words that follow a command's header word (R55, R59). -/
def encodeSamples : Instr → List Word
  | .configure _ _ _ => []
  | .processBuffer _ raw => raw
  | .readPacket _ => []
  | .readReg _ _ => []
  | .clearStatus _ _ => []

/-- The words of a command (R55, R58). -/
def encode (i : Instr) : List Word := encodeHeader i :: encodeSamples i

/-- Word `k` of an instruction whose bits are `w`, `nbits` of them given: word 0 is bits 31..0, word 1 bits 63..32, and
every bit at or above `nbits` is 0. -/
def tableWord (nbits w k : Nat) : Word := BitVec.ofNat 32 ((w % 2 ^ nbits) / 2 ^ (32 * k))

/-- The words of that instruction: as many as its opcode says it has (R59). -/
def tableWords (p : Params) (nbits w : Nat) : List Word :=
  (List.range (commandLength p (tableWord nbits w 0))).map (tableWord nbits w)

/-- The command the decoder reads from an instruction's bits numbered as spec/opcode_table.json numbers them, under the
reference configuration REFCFG (R10). -/
def decodeTableWord (nbits w : Nat) : Option Instr :=
  match decode Params.reference (tableWords Params.reference nbits w) with
  | .ok (i, _) => some i
  | .error _ => none

end Sys2Proof
end

