-- ==== Sys2Proof/Machine/Fetch.lean ====
section
/-! DEFINITION. Sys2Proof/Machine/Fetch.lean: taking the next command off the command interface (R49, R59, R61, R123). -/

namespace Sys2Proof.Machine

/-- The word of an event; a reset carries none, and `scan` has passed no reset where this is used. -/
def HostEvent.toWord : HostEvent → Word
  | .word v => v
  | .reset => 0

/-- What the next `n` events of the command interface hold. -/
inductive Scan where
  /-- `n` words. -/
  | ready
  /-- Fewer than `n` words so far, and no reset. -/
  | waiting
  /-- A reset before the `n`-th word, and what comes after it. -/
  | resetAt (rest : List HostEvent)
deriving DecidableEq, Repr

/-- Looks for `n` words before any reset. -/
def scanWords : Nat → List HostEvent → Scan
  | 0, _ => .ready
  | _ + 1, [] => .waiting
  | _ + 1, .reset :: rest => .resetAt rest
  | n + 1, .word _ :: rest => scanWords n rest

/-- What the machine finds on its command interface. -/
inductive Fetched where
  /-- No command, or one only partly received: FSKDEMOD waits (R122, R123). -/
  | idle
  /-- Reset is asserted; a command only partly received before it is discarded (R123). -/
  | resetAsserted (rest : List HostEvent)
  /-- A whole command, and what comes after it. -/
  | command (i : Instr) (rest : List HostEvent)
  /-- A header word with an illegal opcode, E1: one word (R61). -/
  | illegal (rest : List HostEvent)
deriving DecidableEq, Repr

/-- The next command of the command interface. Its length is told from OP alone, so that sample words are never decoded as
commands (R59).

Commands are taken and resets act in the order of the list. DESIGN CHOICE: whole commands that stand before a reset are
executed, with their responses, and the reset acts after them; the spec does not say what becomes of commands that still
wait unaccepted when reset is asserted (R123, notes/assumptions/17.md). -/
def fetch (p : Params) (evs : List HostEvent) : Fetched :=
  match evs with
  | [] => .idle
  | .reset :: rest => .resetAsserted rest
  | .word hdr :: more =>
    match scanWords (commandLength p hdr - 1) more with
    | .waiting => .idle
    | .resetAt rest => .resetAsserted rest
    | .ready =>
      let rest := more.drop (commandLength p hdr - 1)
      match decode p (hdr :: (more.take (commandLength p hdr - 1)).map HostEvent.toWord) with
      | .ok (i, _) => .command i rest
      | .error _ => .illegal rest

end Sys2Proof.Machine
end

