-- ==== Sys2Proof/Machine/Step.lean ====
section
/-! DEFINITION. Sys2Proof/Machine/Step.lean: one step of FSKDEMOD: the whole next command, executed atomically (R49). -/

namespace Sys2Proof.Machine

/-- One step. Parameters outside R9 describe no FSKDEMOD and are refused (I22). With no whole command received the machine
waits and keeps all its state (R122, R123). -/
def step (s : State) : Host.Outcome State Fault Refusal :=
  if paramsInBounds s.params then
    match fetch s.params s.hostIn with
    | .idle => .next s
    | .resetAsserted rest => .next (assertReset rest s)
    | .illegal rest => .next (raiseCmdError .illegalOp { s with hostIn := rest })
    | .command i rest => exec i { s with hostIn := rest }
  else .refused .parametersOutOfBounds

/-- The words of an instruction, put on the command interface before everything else there, so that the next step executes
exactly it. FSKDEMOD has no program: this stands for the host sending the command (notes/assumptions/5.md). -/
def State.withFetchWord (s : State) (nbits w : Nat) : State :=
  { s with hostIn := (tableWords s.params nbits w).map HostEvent.word ++ s.hostIn }

end Sys2Proof.Machine
end

