-- ==== Sys2Proof/Machine/Assembler.lean ====
section
/-! DEFINITION. Sys2Proof/Machine/Assembler.lean: the textual form of the commands as data, and the words each line encodes
(R63, R64). How a line's characters are read is left out; a line's operands are what R63 names. -/

namespace Sys2Proof.Machine

/-- One line of the assembler (R63, R64). A number stands as the text gives it, in range or not. -/
inductive AsmLine where
  | configure (sel : Nat) (rf : Bool)
  /-- The buffer as its list of I:Q pairs. -/
  | processBuffer (buf : List (Int × Int))
  | readPacket
  /-- READ_REG with a number. -/
  | readReg (reg : Nat)
  /-- READ_REG with a register name of R32. -/
  | readRegNamed (reg : Reg)
  | clearStatus (mask : Nat)
  /-- `.word <value>`. -/
  | word (v : Nat)
  | readStatus
  | clearAll
  | resync (sel : Nat)
deriving DecidableEq, Repr

/-- A component of an I:Q pair that a sample word can carry (R44). -/
def fitsSample (v : Int) : Bool := decide (-32768 ≤ v) && decide (v ≤ 32767)

/-- The words a line encodes; none for a value out of range, which is an assembly error and not an encoding (R63). -/
def assembleLine (p : Params) : AsmLine → Option (List Word)
  | .configure sel rf =>
    if sel ≤ 255 then some (encode (.configure 0 rf (BitVec.ofNat 8 sel))) else none
  | .processBuffer buf =>
    if buf.length = p.rawCount ∧ buf.all (fun iq => fitsSample iq.1 && fitsSample iq.2) then
      some (encode (.processBuffer 0 (buf.map fun iq => sampleWord iq.1 iq.2)))
    else none
  | .readPacket => some (encode (.readPacket 0))
  | .readReg reg => if reg ≤ 255 then some (encode (.readReg 0 (BitVec.ofNat 8 reg))) else none
  | .readRegNamed r => some (encode (.readReg 0 r.number))
  | .clearStatus mask => if mask ≤ 3 then some (encode (.clearStatus 0 (BitVec.ofNat 2 mask))) else none
  | .word v => if v < 2 ^ 32 then some [BitVec.ofNat 32 v] else none
  | .readStatus => some (encode .readStatus)
  | .clearAll => some (encode .clearAll)
  | .resync sel => if sel ≤ 255 then some (encode (.resync (BitVec.ofNat 8 sel))) else none

end Sys2Proof.Machine
end

