-- ==== Sys2Proof/Safety.lean ====
section
/-! DEFINITION. Sys2Proof/Safety.lean: the terms claims about FSKDEMOD are stated in: the invariants between commands (R36), the
symbol stream and its bits (R14, R78), the queue as a list (R29), and the states the machine can reach. -/

namespace Sys2Proof.Machine

/-! ### The stream -/

/-- s[n] as the pair (I, Q), for a position the store holds (R14, R40). -/
def symAt (s : State) (n : Word) : Int × Int :=
  (sampleI (s.sym.read (symEntry n)), sampleQ (s.sym.read (symEntry n)))

/-- b[n], for a position whose symbol and next symbol the store holds (R78). -/
def bitAt (s : State) (n : Word) : Bool := demod (symAt s n) (symAt s (n + 1))

/-- The byte whose bit k is b[q+k], as a number (R92). -/
def byteAt (s : State) (q : Word) : Byte :=
  BitVec.ofNat 8 (((List.range 8).map fun k => (bitAt s (q + BitVec.ofNat 32 k)).toNat * 2 ^ k).sum)

/-- The window read oldest slot first: slot WOFF, then WOFF + 1, ..., modulo 32 (R23). -/
def windowOldestFirst (c : Correlator) : List Bool :=
  (List.range 32).map fun i => c.win.getLsbD ((c.woff.toNat + i) % 32)

/-- The bits of a word, bit 0 first. -/
def wordBits (v : Word) : List Bool := (List.range 32).map fun i => v.getLsbD i

/-- The queued records, oldest first (R29). -/
def queued (s : State) : List Record :=
  (List.range s.qcount.toNat).map fun i =>
    s.q[(s.qhead.toNat + i) % 8]'(Nat.mod_lt _ (by decide))

/-! ### The parse as a relation -/

/-- PARSE as its loop reads (R89): in Begin BEGIN_SCAN, in Header HEADER_STEP, in Payload PAYLOAD_STEP, again and again until
one of them does not proceed. `ParseRun s t`: started in `s`, PARSE returns with the state `t`. No bound on the turns. -/
inductive ParseRun : State → State → Prop where
  | noHit (s t : State) : s.pstate = .begin → beginScan (held s) s = .ok (false, t) → ParseRun s t
  | hit (s u t : State) : s.pstate = .begin → beginScan (held s) s = .ok (true, u) → ParseRun u t → ParseRun s t
  | headerDeferred (s t : State) : s.pstate = .header → headerStep s = .ok (false, t) → ParseRun s t
  | headerTaken (s u t : State) : s.pstate = .header → headerStep s = .ok (true, u) → ParseRun u t → ParseRun s t
  | payloadDeferred (s t : State) : s.pstate = .payload → payloadStep s = .ok (false, t) → ParseRun s t
  | payloadTaken (s u t : State) : s.pstate = .payload → payloadStep s = .ok (true, u) → ParseRun u t → ParseRun s t

/-! ### Invariants -/

/-- What the rules keep true between commands (R36; (a) holds by the type of PSTATE). -/
structure ParseCoherent (s : State) : Prop where
  /-- R36 (b). -/
  inBegin : s.pstate = .begin →
    s.pend.accCur = 0 ∧ s.pend.ptype = 0 ∧ s.pend.psize = 0 ∧ s.pend.plen = 0 ∧ held s ≤ 1
  /-- R36 (c). -/
  inHeader : s.pstate = .header → s.pend.accCur = 0 ∧ held s ≤ 16
  /-- R36 (d). -/
  inPayload : s.pstate = .payload →
    s.pend.accCur = 2 ∧ s.pend.plen.toNat = min (s.pend.psize.toNat + s.params.ovh) (accCap - hdrBytes) ∧
      held s ≤ 8 * s.pend.plen.toNat
  /-- R36 (e). -/
  fillBound : s.corr.fill.toNat ≤ 32
  /-- R36 (e). -/
  fillOffset : s.corr.fill.toNat < 32 → s.corr.woff.toNat = s.corr.fill.toNat % 32
  /-- R36 (f). -/
  queueBound : s.qcount.toNat ≤ qDepth
  /-- R36 (g). -/
  unconfigured : s.configured = false → s.w = 0 ∧ s.cursor = 0 ∧ s.pstate = .begin ∧ s.bufCount = 0

/-- The stores are in their canonical form and the filter history has its length NTAPS - 1 (R28). -/
structure StoresCanonical (s : State) : Prop where
  sym : s.sym.wf symCap = true
  acc : s.pend.acc.wf accCap = true
  fhist : s.fhist.length = s.params.ntaps - 1

/-- A state of an FSKDEMOD between two commands: parameters within R9, R36, and the canonical stores. -/
structure Good (s : State) : Prop where
  params : paramsInBounds s.params = true
  coherent : ParseCoherent s
  stores : StoresCanonical s

/-- What the correlator's registers hold at any time: the slots no bit was written to since the last clear hold 0 (R23);
MATCH_REG holds SYNC_WORD's low LAST_MATCH_LEN bits and 0 above (R24); and after a hit, until the next Begin entry,
the whole SYNC_WORD stands in MATCH_REG and in SYNC_CAPTURE (R83, R84, R88). -/
structure CorrelatorFaithful (s : State) : Prop where
  fillBound : s.corr.fill.toNat ≤ 32
  fillOffset : s.corr.fill.toNat < 32 → s.corr.woff.toNat = s.corr.fill.toNat
  emptySlots : s.corr.fill.toNat < 32 → ∀ i, s.corr.fill.toNat ≤ i → s.corr.win.getLsbD i = false
  matchBound : s.corr.lastMatchLen.toNat ≤ 32
  matchLow : ∀ i, i < 32 →
    s.corr.matchReg.getLsbD i = (decide (i < s.corr.lastMatchLen.toNat) && s.params.syncWord.getLsbD i)
  afterHit : s.pstate ≠ .begin →
    s.corr.fill.toNat = 32 ∧ s.corr.lastMatchLen.toNat = 32 ∧ s.syncCapture = s.params.syncWord

/-- Two states that agree on everything but the contents of the symbol store, and agree there on every symbol the parse has
not yet passed, s[CURSOR .. W-1]. -/
def SameButPassedSymbols (s t : State) : Prop :=
  t = { s with sym := t.sym } ∧
    ∀ n : Word, 1 ≤ (s.w - n).toNat → (s.w - n).toNat ≤ held s →
      s.sym.read (symEntry n) = t.sym.read (symEntry n)

/-- The states FSKDEMOD reaches from reset under the parameters `p`, whatever the host puts on the command interface and
whenever it does (R50). -/
inductive Reachable (p : Params) : State → Prop where
  | reset : Reachable p (State.resetWith p)
  | deliver (evs : List HostEvent) (s : State) : Reachable p s → Reachable p (deliver evs s)
  | step (s t : State) : Reachable p s → step s = .next t → Reachable p t

end Sys2Proof.Machine
end

