-- ==== Sys2Proof/Certificates/Slice0/Obligations.lean ====
section
/-! DEFINITION. Sys2Proof/Certificates/Slice0/Obligations.lean: the statements for the provers, from the numbered rules of spec/. -/

open Sys2Proof Sys2Proof.Machine

/-! ### Encoding -/

/-- Decoding the words of a command gives that command and the words after it, for every command and every value of every
field, the reserved ones among them (R55, R57, R59). -/
def Obligations.DecodeOfEncodeIsIdentity : Prop :=
  ∀ (p : Params) (i : Instr) (rest : List Word), i.shaped p = true → decode p (encode i ++ rest) = .ok (i, rest)

/-- Encoding what was decoded gives the words back: no word sequence has two readings and no bit is dropped (R55, R59). -/
def Obligations.EncodeOfDecodeIsIdentity : Prop :=
  ∀ (p : Params) (ws rest : List Word) (i : Instr),
    decode p ws = .ok (i, rest) → encode i ++ rest = ws ∧ i.shaped p = true

/-- The fields of a header word stand where the format table puts them, counted by division, and an opcode outside
0x01..0x05 is illegal (R55, R57, R58). -/
def Obligations.HeaderFieldsStandAtTheirBits : Prop :=
  ∀ (p : Params) (hdr : Word) (rest : List Word),
    (hdr.toNat / 2 ^ 24 = 1 → decode p (hdr :: rest) =
      .ok (.configure (BitVec.ofNat 15 (hdr.toNat / 2 ^ 9)) (decide (hdr.toNat / 2 ^ 8 % 2 = 1))
        (BitVec.ofNat 8 hdr.toNat), rest)) ∧
    (hdr.toNat / 2 ^ 24 = 2 → p.rawCount ≤ rest.length → decode p (hdr :: rest) =
      .ok (.processBuffer (BitVec.ofNat 24 hdr.toNat) (rest.take p.rawCount), rest.drop p.rawCount)) ∧
    (hdr.toNat / 2 ^ 24 = 3 → decode p (hdr :: rest) = .ok (.readPacket (BitVec.ofNat 24 hdr.toNat), rest)) ∧
    (hdr.toNat / 2 ^ 24 = 4 → decode p (hdr :: rest) =
      .ok (.readReg (BitVec.ofNat 16 (hdr.toNat / 2 ^ 8)) (BitVec.ofNat 8 hdr.toNat), rest)) ∧
    (hdr.toNat / 2 ^ 24 = 5 → decode p (hdr :: rest) =
      .ok (.clearStatus (BitVec.ofNat 22 (hdr.toNat / 2 ^ 2)) (BitVec.ofNat 2 hdr.toNat), rest)) ∧
    (hdr.toNat / 2 ^ 24 = 0 ∨ 6 ≤ hdr.toNat / 2 ^ 24 →
      decode p (hdr :: rest) = .error (.illegalOpcode (BitVec.ofNat 8 (hdr.toNat / 2 ^ 24))))

/-- The length of a command is told from OP alone, and the words after a PROCESS_BUFFER header are samples whatever their
bits, a header that will be rejected among them (R59). -/
def Obligations.LengthIsToldFromOpcodeAlone : Prop :=
  ∀ (p : Params) (hdr : Word) (rest : List HostEvent),
    (hdr.toNat / 2 ^ 24 = 2 → ∀ samples : List Word, samples.length = p.rawCount →
      fetch p (.word hdr :: samples.map HostEvent.word ++ rest) =
        .command (.processBuffer (BitVec.ofNat 24 hdr.toNat) samples) rest) ∧
    (hdr.toNat / 2 ^ 24 ≠ 2 →
      (∃ i, fetch p (.word hdr :: rest) = .command i rest) ∨ fetch p (.word hdr :: rest) = .illegal rest)

/-- A few words written out from the format table decode to the commands they stand for (R55, R63). -/
def Obligations.WrittenOutWordsDecode : Prop :=
  decode Params.reference [0x0100012A] = .ok (.configure 0 true 42, []) ∧
  decode Params.reference [0x03000000] = .ok (.readPacket 0, []) ∧
  decode Params.reference [0x0400000A] = .ok (.readReg 0 0x0A, []) ∧
  decode Params.reference [0x05000002] = .ok (.clearStatus 0 2, []) ∧
  decode { Params.reference with rawCount := 4 } [0x02000000, 0x03000000, 0x80007FFF, 0, 1, 0x05000003] =
    .ok (.processBuffer 0 [0x03000000, 0x80007FFF, 0, 1], [0x05000003])

/-- The words every line of the assembler encodes, each sample word and header word reckoned in numbers, and the expansion of
each pseudo-command; a value out of range encodes nothing. A register name stands for its number in the map of R32. That a
buffer of another length than RAW_COUNT, a component that no sample word can carry and a `.word` of 2^32 or more encode
nothing is the model's choice (notes/assumptions/16.md) (R32, R63, R64). -/
def Obligations.AssemblerLinesEncode : Prop :=
  (∀ (p : Params) (n : Nat) (buf : List (Int × Int)),
    assembleLine p (.configure n false) = (if n ≤ 255 then some [0x01000000#32 ||| BitVec.ofNat 32 n] else none) ∧
    assembleLine p (.configure n true) = (if n ≤ 255 then some [0x01000100#32 ||| BitVec.ofNat 32 n] else none) ∧
    assembleLine p (.processBuffer buf) =
      (if buf.length = p.rawCount ∧
          ∀ iq ∈ buf, -32768 ≤ iq.1 ∧ iq.1 ≤ 32767 ∧ -32768 ≤ iq.2 ∧ iq.2 ≤ 32767 then
        some (0x02000000#32 ::
          buf.map fun iq => BitVec.ofNat 32 ((iq.2 % 2 ^ 16).toNat * 2 ^ 16 + (iq.1 % 2 ^ 16).toNat))
      else none) ∧
    assembleLine p .readPacket = some [0x03000000#32] ∧
    assembleLine p (.readReg n) = (if n ≤ 255 then some [0x04000000#32 ||| BitVec.ofNat 32 n] else none) ∧
    assembleLine p (.clearStatus n) = (if n ≤ 3 then some [0x05000000#32 ||| BitVec.ofNat 32 n] else none) ∧
    assembleLine p (.word n) = (if n < 2 ^ 32 then some [BitVec.ofNat 32 n] else none) ∧
    assembleLine p .readStatus = assembleLine p (.readReg 0) ∧
    assembleLine p .clearAll = assembleLine p (.clearStatus 3) ∧
    assembleLine p (.resync n) = assembleLine p (.configure n false)) ∧
  (∀ (p : Params) (r : Reg),
    assembleLine p (.readRegNamed r) = assembleLine p (.readReg r.number.toNat) ∧
    Reg.ofNumber r.number = some r ∧
    [Reg.status, .config, .symWpos, .cursor, .window, .winCtrl, .matchBits, .syncCapture, .hitPos, .pending, .dbLevel,
      .maxsq, .pktCount, .dropCount, .bufCount, .syncCount, .pendingLen][r.number.toNat]? = some r) ∧
  ∀ (n : BitVec 8) (r : Reg), Reg.ofNumber n = some r → n = r.number

/-! ### The step -/

/-- When the words at the front of the command interface decode to a command, the step is exec of it, on the state with those
words taken (R49). -/
def Obligations.StepRunsTheDecodedCommand : Prop :=
  ∀ (s : State) (ws : List Word) (i : Instr) (rest : List HostEvent),
    paramsInBounds s.params = true → decode s.params ws = .ok (i, []) →
      s.hostIn = ws.map HostEvent.word ++ rest → step s = exec i { s with hostIn := rest }

/-- With no whole command received the machine waits and keeps all its state (R122, R123). -/
def Obligations.WaitsForAWholeCommand : Prop :=
  ∀ (s : State), paramsInBounds s.params = true →
    (s.hostIn = [] → step s = .next s) ∧
    (∀ (hdr : Word) (samples : List Word), s.hostIn = .word hdr :: samples.map HostEvent.word →
      hdr.toNat / 2 ^ 24 = 2 → samples.length < s.params.rawCount → step s = .next s)

/-- Reset discards a command only partly received and sets every state element to its reset value; the parameters stay, and
the next word is decoded as a header word. That the words already returned stay on the response stream is the model's
reading (notes/assumptions/3.md) (R123). -/
def Obligations.ResetDiscardsAPartialCommand : Prop :=
  ∀ (s : State) (rest : List HostEvent), paramsInBounds s.params = true →
    (s.hostIn = .reset :: rest →
      step s = .next { State.resetWith s.params with hostIn := rest, respOut := s.respOut }) ∧
    (∀ (hdr : Word) (samples : List Word), s.hostIn = .word hdr :: samples.map HostEvent.word ++ .reset :: rest →
      hdr.toNat / 2 ^ 24 = 2 → samples.length < s.params.rawCount →
        step s = .next { State.resetWith s.params with hostIn := rest, respOut := s.respOut })

/-- An illegal opcode occupies one word, returns no response, sets CMD_ERR and changes nothing else (R61). -/
def Obligations.IllegalOpcodeSetsCmdErrAlone : Prop :=
  ∀ (s : State) (hdr : Word) (rest : List HostEvent), paramsInBounds s.params = true →
    s.hostIn = .word hdr :: rest → hdr.toNat / 2 ^ 24 = 0 ∨ 6 ≤ hdr.toNat / 2 ^ 24 →
      step s = .next { s with hostIn := rest, cmdErr := true }

/-- A legal opcode with a nonzero reserved field occupies its full length, sets CMD_ERR and does nothing else, but that
READ_PACKET and READ_REG return one zero word (R60). -/
def Obligations.ReservedBitsRejectTheCommand : Prop :=
  ∀ (s : State) (i : Instr) (rest : List HostEvent), paramsInBounds s.params = true →
    i.shaped s.params = true → i.reservedClear = false →
      s.hostIn = (encode i).map HostEvent.word ++ rest →
        step s = .next { s with
          hostIn := rest
          cmdErr := true
          respOut := s.respOut ++
            (match i with
            | .readPacket _ => [0]
            | .readReg _ _ => [0]
            | .configure _ _ _ => []
            | .processBuffer _ _ => []
            | .clearStatus _ _ => []) }

/-- Parameters outside the bounds of R9 are refused, and only those (R9). -/
def Obligations.ParametersOutOfBoundsAreRefused : Prop :=
  ∀ s : State,
    (step s = .refused .parametersOutOfBounds ↔
      ¬(1 ≤ s.params.decim ∧ 1 ≤ s.params.rawCount ∧ s.params.rawCount % s.params.decim = 0 ∧
        1 ≤ s.params.rawCount / s.params.decim ∧ s.params.rawCount / s.params.decim ≤ 4096 ∧
        1 ≤ s.params.taps.length ∧ s.params.taps.length ≤ 256 ∧
        (∀ t ∈ s.params.taps, -32768 ≤ t ∧ t ≤ 32767) ∧ s.params.tapShift ≤ 31 ∧ s.params.ovh ≤ 255))

/-! ### The commands -/

/-- CONFIGURE: the whole next state (R101). -/
def Obligations.ConfigureNextState : Prop :=
  ∀ (s : State) (z : BitVec 15) (rf : Bool) (sel : BitVec 8),
    exec (.configure z rf sel) s =
      .next (if z ≠ 0 then { s with cmdErr := true }
        else { s with
          channel := sel
          configured := true
          fhist := if rf then List.replicate (s.params.taps.length - 1) 0 else s.fhist
          pstate := .begin
          corr := { win := 0, woff := 0, fill := 0, matchReg := 0, lastMatchLen := 0 }
          pend := { acc := [], accCur := 0, ptype := 0, psize := 0, plen := 0 }
          cursor := s.w }) ∧
    encode (.configure z rf sel) =
      [BitVec.ofNat 32 (0x01000000 + z.toNat * 2 ^ 9 + rf.toNat * 2 ^ 8 + sel.toNat)]

/-- While CONFIGURED = 0 a well-formed PROCESS_BUFFER changes no state at all, whatever its samples (R104). -/
def Obligations.UnconfiguredBufferChangesNothing : Prop :=
  ∀ (s : State) (raw : List Word), s.configured = false → exec (.processBuffer 0 raw) s = .next s

/-- A PROCESS_BUFFER completes from every state that keeps the invariants of R36, configured or not. -/
def Obligations.ProcessBufferCompletes : Prop :=
  ∀ (s : State) (raw : List Word), paramsInBounds s.params = true → ParseCoherent s →
    raw.length = s.params.rawCount → ∃ t, exec (.processBuffer 0 raw) s = .next t

/-- What a PROCESS_BUFFER writes besides the parse, and what it leaves: the peak and its dB level, the filter history, the M
symbols in entries W .. W+M-1 modulo 8192 and no other entry, W and BUF_COUNT; the parameters, CONFIGURED, CHANNEL, QHEAD,
CMD_ERR and both streams stay (R102, R103). -/
def Obligations.ProcessBufferWritesAndFrame : Prop :=
  ∀ (s : State) (raw : List Word), Good s → s.configured = true → raw.length = s.params.rawCount →
    ∃ t, exec (.processBuffer 0 raw) s = .next t ∧
      t.maxsq = BitVec.ofNat 32 (peakFrom 0 raw) ∧
      t.dbLevel = BitVec.ofInt 8 (mag2db (peakFrom 0 raw)) ∧
      t.fhist = nextHistory s.params raw s.fhist ∧
      t.w = s.w + BitVec.ofNat 32 (s.params.rawCount / s.params.decim) ∧
      t.bufCount = s.bufCount + 1 ∧
      (∀ j, j < s.params.rawCount / s.params.decim →
        t.sym.read (symEntry (s.w + BitVec.ofNat 32 j)) = decimOut s.params raw s.fhist j) ∧
      (∀ a, (∀ j, j < s.params.rawCount / s.params.decim → symEntry (s.w + BitVec.ofNat 32 j) ≠ a) →
        t.sym.read a = s.sym.read a) ∧
      t.params = s.params ∧ t.configured = s.configured ∧ t.channel = s.channel ∧ t.qhead = s.qhead ∧
      t.cmdErr = s.cmdErr ∧ t.hostIn = s.hostIn ∧ t.respOut = s.respOut

/-- PROCESS_BUFFER, the whole command: rejected with a nonzero reserved field, without effect while CONFIGURED = 0, and else PARSE,
the loop of R89 over BEGIN_SCAN, HEADER_STEP and PAYLOAD_STEP, run from the state `u` that has the new peak, dB level and
filter history, the M symbols in the store, and W and BUF_COUNT moved on, and is the state before in everything else: the
window, the pending packet, the parse state and CURSOR carry over from buffer to buffer (R86, R89, R102, R103). -/
def Obligations.ProcessBufferRunsTheParse : Prop :=
  ∀ (s : State) (z : BitVec 24) (raw : List Word),
    encode (.processBuffer z raw) = BitVec.ofNat 32 (0x02000000 + z.toNat) :: raw ∧
    (z ≠ 0 → exec (.processBuffer z raw) s = .next { s with cmdErr := true }) ∧
    (z = 0 → s.configured = false → exec (.processBuffer z raw) s = .next s) ∧
    (z = 0 → s.configured = true → Good s → raw.length = s.params.rawCount →
      ∃ u t : State, exec (.processBuffer z raw) s = .next t ∧ ParseRun u t ∧
        u = { s with
          maxsq := BitVec.ofNat 32 (peakFrom 0 raw)
          dbLevel := BitVec.ofInt 8 (mag2db (peakFrom 0 raw))
          fhist := nextHistory s.params raw s.fhist
          sym := u.sym
          w := s.w + BitVec.ofNat 32 (s.params.rawCount / s.params.decim)
          bufCount := s.bufCount + 1 } ∧
        (∀ j, j < s.params.rawCount / s.params.decim →
          u.sym.read ((s.w + BitVec.ofNat 32 j).toNat % 8192) = decimOut s.params raw s.fhist j) ∧
        (∀ a, (∀ j, j < s.params.rawCount / s.params.decim → (s.w + BitVec.ofNat 32 j).toNat % 8192 ≠ a) →
          u.sym.read a = s.sym.read a))

/-- READ_PACKET: the whole next state: a rejection, an empty queue, or the oldest record out (R108). -/
def Obligations.ReadPacketNextState : Prop :=
  ∀ (s : State) (z : BitVec 24),
    exec (.readPacket z) s =
      .next (if z ≠ 0 then { s with cmdErr := true, respOut := s.respOut ++ [0] }
        else if s.qcount = 0 then { s with respOut := s.respOut ++ [0] }
        else { s with
          respOut := s.respOut ++ 1 :: (s.q[s.qhead.toNat]'(s.qhead.isLt)).words
          qhead := s.qhead + 1
          qcount := s.qcount - 1 }) ∧
    encode (.readPacket z) = [BitVec.ofNat 32 (0x03000000 + z.toNat)]

/-- READ_REG: the whole next state, for every register number: the value of the register with that number in the map of R32,
or a rejection (R109). -/
def Obligations.ReadRegNextState : Prop :=
  ∀ (s : State) (z : BitVec 16) (reg : BitVec 8),
    exec (.readReg z reg) s =
      .next (if z ≠ 0 ∨ 0x10 < reg.toNat then { s with cmdErr := true, respOut := s.respOut ++ [0] }
        else { s with respOut := s.respOut ++
          [[statusReg s, s.channel.zeroExtend 32, s.w, s.cursor, s.corr.win, winCtrlReg s, s.corr.matchReg,
            s.syncCapture, s.hitPos, (s.pend.psize ++ s.pend.ptype).zeroExtend 32, s.dbLevel.signExtend 32, s.maxsq,
            s.pktCount, s.dropCount, s.bufCount, s.syncCount,
            BitVec.ofNat 32 (s.pend.plen.toNat + s.pend.accCur.toNat * 2 ^ 16)].getD reg.toNat 0] }) ∧
    encode (.readReg z reg) = [BitVec.ofNat 32 (0x04000000 + z.toNat * 2 ^ 8 + reg.toNat)]

/-- CLEAR_STATUS: the whole next state (R110). -/
def Obligations.ClearStatusNextState : Prop :=
  ∀ (s : State) (z : BitVec 22) (mask : BitVec 2),
    exec (.clearStatus z mask) s =
      .next (if z ≠ 0 then { s with cmdErr := true }
        else { s with
          cmdErr := if mask.toNat % 2 = 1 then false else s.cmdErr
          qOvf := if mask.toNat / 2 = 1 then false else s.qOvf }) ∧
    encode (.clearStatus z mask) = [BitVec.ofNat 32 (0x05000000 + z.toNat * 2 ^ 2 + mask.toNat)]

/-! ### Registers and responses -/

/-- Every field of STATUS, the reserved ones reading 0 (R33). -/
def Obligations.StatusFieldsStandAtTheirBits : Prop :=
  ∀ s : State,
    (statusReg s).getLsbD 0 = s.configured ∧
    (statusReg s).extractLsb' 1 2 =
      (match s.pstate with
      | .begin => 0#2
      | .header => 1#2
      | .payload => 2#2) ∧
    (statusReg s).getLsbD 3 = decide (0 < s.qcount.toNat) ∧
    (statusReg s).extractLsb' 4 4 = 0 ∧
    (statusReg s).extractLsb' 8 4 = s.qcount ∧
    (statusReg s).extractLsb' 12 4 = 0 ∧
    (statusReg s).getLsbD 16 = s.cmdErr ∧
    (statusReg s).getLsbD 17 = s.qOvf ∧
    (statusReg s).extractLsb' 18 14 = 0

/-- Every field of WIN_CTRL, the reserved ones reading 0 (R34). -/
def Obligations.WinCtrlFieldsStandAtTheirBits : Prop :=
  ∀ s : State,
    (winCtrlReg s).extractLsb' 0 5 = s.corr.woff ∧
    (winCtrlReg s).extractLsb' 5 3 = 0 ∧
    (winCtrlReg s).extractLsb' 8 6 = s.corr.fill ∧
    (winCtrlReg s).extractLsb' 14 2 = 0 ∧
    (winCtrlReg s).extractLsb' 16 6 = s.corr.lastMatchLen ∧
    (winCtrlReg s).extractLsb' 22 10 = 0

/-- The 65 words of a record carry its 260 bytes little-endian, each field at its place (R45, R56). -/
def Obligations.RecordSerialization : Prop :=
  ∀ r : Record,
    r.words.length = 65 ∧
    (∀ b, b < 260 → (r.words.getD (b / 4) 0).extractLsb' (8 * (b % 4)) 8 = r.bytes.getD b 0) ∧
    (∀ k (h : k < 6), r.bytes.getD k 0 = r.devid[k]) ∧
    r.bytes.getD 6 0 = r.type ∧ r.bytes.getD 7 0 = r.size ∧ r.bytes.getD 8 0 = r.dlen ∧ r.bytes.getD 9 0 = r.db ∧
    (∀ i (h : i < 249), r.bytes.getD (10 + i) 0 = r.data[i]) ∧
    r.bytes.getD 259 0 = 0

/-- A step only appends to the response stream: one word for READ_REG, 1 or 66 for READ_PACKET, none for anything else
(R50, R58). That a reset keeps the words already returned is the model's choice, which the spec does not state
(notes/assumptions/3.md). -/
def Obligations.ResponsesAreOnlyAppended : Prop :=
  ∀ s t : State, step s = .next t →
    ∃ ws : List Word, t.respOut = s.respOut ++ ws ∧
      (match fetch s.params s.hostIn with
      | .command (.readReg _ _) _ => ws.length = 1
      | .command (.readPacket _) _ => ws.length = 1 ∨ ws.length = 66
      | .command _ _ => ws = []
      | .idle => ws = []
      | .resetAsserted _ => ws = []
      | .illegal _ => ws = [])

/-! ### The Power Estimator -/

/-- I is the low half of a sample word and Q the high half, each a 16-bit two's-complement number (R44, R57); the squared
magnitude is exact, lies in 0..2^31 and is 2^31 for I = Q = -32768 alone (R65). -/
def Obligations.SquaredMagnitudeIsExact : Prop :=
  ∀ v : Word,
    sampleI v = (if v.toNat % 2 ^ 16 < 2 ^ 15 then (v.toNat % 2 ^ 16 : Int) else (v.toNat % 2 ^ 16 : Int) - 2 ^ 16) ∧
    sampleQ v = (if v.toNat / 2 ^ 16 < 2 ^ 15 then (v.toNat / 2 ^ 16 : Int) else (v.toNat / 2 ^ 16 : Int) - 2 ^ 16) ∧
    (magSq v : Int) = sampleI v * sampleI v + sampleQ v * sampleQ v ∧
    -32768 ≤ sampleI v ∧ sampleI v ≤ 32767 ∧ -32768 ≤ sampleQ v ∧ sampleQ v ≤ 32767 ∧
    magSq v ≤ 2 ^ 31 ∧ (magSq v = 2 ^ 31 ↔ sampleI v = -32768 ∧ sampleQ v = -32768)

/-- The estimate is the largest squared magnitude of the buffer, and 0 only when all are 0; neither the position of the peak
nor any order of the samples has an effect (R66). -/
def Obligations.PeakIsTheMaximum : Prop :=
  (∀ raw : List Word, (∀ v ∈ raw, magSq v ≤ peakFrom 0 raw) ∧
    (raw ≠ [] → ∃ v ∈ raw, magSq v = peakFrom 0 raw)) ∧
  (∀ raw raw' : List Word, raw.Perm raw' → peakFrom 0 raw = peakFrom 0 raw')

/-- MAG2DB(x) is the greatest integer d with FS_SQ * 10^(d/10) <= x, over the reals, and -128 for x = 0; on 1..2^31 it lies in
-91..3, and full scale gives 0 (R67). -/
def Obligations.DecibelIsTheGreatestInteger : Prop :=
  mag2db 0 = -128 ∧ mag2db (2 ^ 30) = 0 ∧
  (∀ x : Nat, 1 ≤ x → x < 2 ^ 32 →
    (2 : ℝ) ^ 30 * (10 : ℝ) ^ ((mag2db x : ℝ) / 10) ≤ x ∧
    ∀ d : Int, (2 : ℝ) ^ 30 * (10 : ℝ) ^ ((d : ℝ) / 10) ≤ x → d ≤ mag2db x) ∧
  (∀ x : Nat, 1 ≤ x → x ≤ 2 ^ 31 → -91 ≤ mag2db x ∧ mag2db x ≤ 3)

/-- MAG2DB is monotonic, -128 is below every other value, doubling adds 3 or 4 and multiplying by 10 adds exactly 10 (R68). -/
def Obligations.DecibelIsMonotonic : Prop :=
  (∀ x y : Nat, x ≤ y → y < 2 ^ 32 → mag2db x ≤ mag2db y) ∧
  (mag2db 0 = -128 ∧ ∀ x : Nat, 1 ≤ x → x < 2 ^ 32 → -128 < mag2db x) ∧
  (∀ x : Nat, 1 ≤ x → 2 * x ≤ 2 ^ 31 → mag2db (2 * x) = mag2db x + 3 ∨ mag2db (2 * x) = mag2db x + 4) ∧
  (∀ x : Nat, 1 ≤ x → 10 * x ≤ 2 ^ 31 → mag2db (10 * x) = mag2db x + 10)

/-! ### The Decimator -/

/-- Under REFCFG symbol j is raw sample 4j+3 bit for bit, M = 512 symbols come out, and the history is empty (R73). -/
def Obligations.ReferenceDecimatorSelects : Prop :=
  ∀ raw fhist : List Word, raw.length = 2048 →
    (decimOuts Params.reference raw fhist).length = 512 ∧
    (∀ j, j < 512 → (decimOuts Params.reference raw fhist).getD j 0 = raw.getD (4 * j + 3) 0) ∧
    nextHistory Params.reference raw fhist = []

/-- DECIMATE in the terms of R71, for every tap table: X(t0 + t) is raw[t] from the buffer's start on and FHIST[-t] before it;
output j has in bits [15:0] the sum over k of TAPS[k] * I(X(c - k)), divided by 2^TAP_SHIFT, rounded down and clamped to
-32768..32767, and the same of Q in bits [31:16]; the M outputs are these, and FHIST'[k] = X(t0 + RAW_COUNT - k) (R71). -/
def Obligations.DecimatorIsTheTapFilter : Prop :=
  ∀ (p : Params) (raw fhist : List Word), paramsInBounds p = true → raw.length = p.rawCount →
    fhist.length = p.taps.length - 1 →
      let x : Int → Word := fun t => if 0 ≤ t then raw.getD t.toNat 0 else fhist.getD ((-t).toNat - 1) 0
      let acc : Nat → Nat → Int := fun lo j =>
        ∑ k ∈ Finset.range p.taps.length,
          p.taps.getD k 0 * ((x ((j * p.decim + p.decim - 1 : Int) - k)).extractLsb' lo 16).toInt
      (∀ j, j < p.rawCount / p.decim →
        (decimOuts p raw fhist)[j]? = some (decimOut p raw fhist j) ∧
        ((decimOut p raw fhist j).extractLsb' 0 16).toInt =
          max (-32768) (min 32767 ⌊(acc 0 j : ℚ) / 2 ^ p.tapShift⌋) ∧
        ((decimOut p raw fhist j).extractLsb' 16 16).toInt =
          max (-32768) (min 32767 ⌊(acc 16 j : ℚ) / 2 ^ p.tapShift⌋)) ∧
      (decimOuts p raw fhist).length = p.rawCount / p.decim ∧
      (nextHistory p raw fhist).length = p.taps.length - 1 ∧
      ∀ k, 1 ≤ k → k ≤ p.taps.length - 1 → (nextHistory p raw fhist)[k - 1]? = some (x ((p.rawCount : Int) - k))

/-- The raw samples of successive buffers are one continuous stream: filtering two buffers one after the other, the second
with the history the first leaves, gives the symbols and the history of filtering their concatenation at once
(R70, R71). -/
def Obligations.DecimationIsContinuousAcrossBuffers : Prop :=
  ∀ (p : Params) (raw1 raw2 fhist : List Word), paramsInBounds p = true →
    raw1.length = p.rawCount → raw2.length = p.rawCount → fhist.length = p.ntaps - 1 →
      decimOuts { p with rawCount := 2 * p.rawCount } (raw1 ++ raw2) fhist =
        decimOuts p raw1 fhist ++ decimOuts p raw2 (nextHistory p raw1 fhist) ∧
      nextHistory { p with rawCount := 2 * p.rawCount } (raw1 ++ raw2) fhist =
        nextHistory p raw2 (nextHistory p raw1 fhist)

/-- The filter history is cleared by reset and by a CONFIGURE with RF = 1, and a CONFIGURE with RF = 0 leaves it (R75). -/
def Obligations.FilterHistoryIsClearedOnRequest : Prop :=
  ∀ (s t : State) (sel : BitVec 8) (rest : List HostEvent) (v : Word),
    (exec (.configure 0 true sel) s = .next t → v ∈ t.fhist → v = 0) ∧
    (exec (.configure 0 false sel) s = .next t → t.fhist = s.fhist) ∧
    (v ∈ (assertReset rest s).fhist → v = 0)

/-! ### The bit demodulator -/

/-- The cross product of two samples lies in -2147450880..2147450880, so a 32-bit two's-complement evaluation is exact and
gives the same bit (R77). -/
def Obligations.CrossProductFitsThirtyTwoBits : Prop :=
  ∀ ia qa ib qb : BitVec 16,
    (-1073709056 ≤ ia.toInt * qb.toInt ∧ ia.toInt * qb.toInt ≤ 1073741824) ∧
    (-2147450880 ≤ ia.toInt * qb.toInt - ib.toInt * qa.toInt ∧
      ia.toInt * qb.toInt - ib.toInt * qa.toInt ≤ 2147450880) ∧
    (ia.signExtend 32 * qb.signExtend 32 - ib.signExtend 32 * qa.signExtend 32).toInt =
      ia.toInt * qb.toInt - ib.toInt * qa.toInt ∧
    demod (ia.toInt, qa.toInt) (ib.toInt, qb.toInt) =
      BitVec.slt 0#32 (ia.signExtend 32 * qb.signExtend 32 - ib.signExtend 32 * qa.signExtend 32)

/-- EXTRACT_BYTE(q) answers when s[q..q+8] are held, and its bit k is b[q+k] (R92). -/
def Obligations.ExtractByteIsLeastSignificantFirst : Prop :=
  ∀ (s : State) (q : Word), 9 ≤ (s.w - q).toNat → (s.w - q).toNat ≤ symCap →
    ∃ b : Byte, extractByte s q = .ok b ∧ ∀ k, k < 8 → b.getLsbD k = bitAt s (q + BitVec.ofNat 32 k)

/-! ### The Sync Correlator -/

/-- After a comparison LAST_MATCH_LEN counts the window bits, from the oldest, that equal SYNC_WORD's before the first
mismatch; MATCH_REG holds them, and 0 at and above the mismatch; a Begin entry clears both (R24). -/
def Obligations.MatchRegistersHoldTheMatchedRun : Prop :=
  (∀ (sync : Word) (c : Correlator),
    let n := (compareWindow sync c).lastMatchLen.toNat
    n ≤ 32 ∧
    (∀ i, i < n → c.win.getLsbD ((c.woff.toNat + 1 + i) % 32) = sync.getLsbD i ∧
      (compareWindow sync c).matchReg.getLsbD i = c.win.getLsbD ((c.woff.toNat + 1 + i) % 32)) ∧
    (n < 32 → c.win.getLsbD ((c.woff.toNat + 1 + n) % 32) ≠ sync.getLsbD n) ∧
    (∀ i, n ≤ i → (compareWindow sync c).matchReg.getLsbD i = false)) ∧
  (∀ s : State, (beginEntry s).corr.matchReg = 0 ∧ (beginEntry s).corr.lastMatchLen = 0)

/-- A step takes the oldest bit out of the window and the decided bit in as the newest, and counts it in FILL (R23). -/
def Obligations.WindowKeepsArrivalOrder : Prop :=
  ∀ (sync : Word) (bit : Bool) (c : Correlator),
    windowOldestFirst (pushBit sync bit c) = (windowOldestFirst c).tail ++ [bit] ∧
    (pushBit sync bit c).fill.toNat = min (c.fill.toNat + 1) 32

/-- A step hits exactly when FILL = 32 after it and the window, oldest bit first, equals SYNC_WORD, bit 0 first (R84, R85). -/
def Obligations.HitIffWindowEqualsSyncWord : Prop :=
  ∀ (sync : Word) (bit : Bool) (c : Correlator),
    isHit (pushBit sync bit c) = true ↔
      (pushBit sync bit c).fill.toNat = 32 ∧ windowOldestFirst (pushBit sync bit c) = wordBits sync

/-- BEGIN_SCAN takes the bits from CURSOR on in stream order, up to the first hit or to the last defined bit; on a hit it
captures SYNC_WORD and HIT_POS = CURSOR - 32, and counts the hit (R81, R82, R84, R91). -/
def Obligations.ScanStopsAtTheFirstHit : Prop :=
  ∀ s : State, s.pstate = .begin → held s ≤ symCap →
    ∃ (k : Nat) (go : Bool) (t : State), beginScan (held s) s = .ok (go, t) ∧ k ≤ held s - 1 ∧
      let after := fun j =>
        (List.range j).foldl
          (fun c i => pushBit s.params.syncWord (bitAt s (s.cursor + BitVec.ofNat 32 i)) c) s.corr
      (∀ j, 1 ≤ j → j < k → isHit (after j) = false) ∧
      (go = true → 1 ≤ k ∧ isHit (after k) = true ∧
        t = { s with
          corr := after k
          cursor := s.cursor + BitVec.ofNat 32 k
          pstate := .header
          syncCapture := s.params.syncWord
          hitPos := s.cursor + BitVec.ofNat 32 k - 32
          syncCount := s.syncCount + 1 }) ∧
      (go = false → k = held s - 1 ∧ (1 ≤ k → isHit (after k) = false) ∧
        t = { s with corr := after k, cursor := s.cursor + BitVec.ofNat 32 k })

/-- Every step keeps what the correlator's registers hold (R23, R24, R88). -/
def Obligations.StepKeepsCorrelatorFaithful : Prop :=
  ∀ s t : State, CorrelatorFaithful s → step s = .next t → CorrelatorFaithful t

/-- The correlator's registers hold it after reset, under any parameters. -/
def Obligations.ResetCorrelatorFaithful : Prop :=
  ∀ p : Params, CorrelatorFaithful (State.resetWith p)

/-! ### The Packet State Machine -/

/-- The parse moves Begin to Header, Header to Payload and Payload to Begin, and nowhere else; CONFIGURE and reset force Begin
from any state (R20). -/
def Obligations.ParseStatesCycle : Prop :=
  (∀ s t : State, parseStep s = .ok (true, t) →
    (s.pstate = .begin ∧ t.pstate = .header) ∨ (s.pstate = .header ∧ t.pstate = .payload) ∨
      (s.pstate = .payload ∧ t.pstate = .begin)) ∧
  (∀ s t : State, parseStep s = .ok (false, t) → t.pstate = s.pstate) ∧
  (∀ (s t : State) (rf : Bool) (sel : BitVec 8), exec (.configure 0 rf sel) s = .next t → t.pstate = .begin) ∧
  (∀ (s : State) (rest : List HostEvent), (assertReset rest s).pstate = .begin)

/-- HEADER_STEP: a deferral with no state change while fewer than 17 symbols are there; else the two header bytes from the
stream, PTYPE, PSIZE and PLEN from them, and nothing else changed (R93, R94). -/
def Obligations.HeaderStepReadsTheHeader : Prop :=
  ∀ s : State, s.pend.acc.wf accCap = true →
    (held s < 17 → headerStep s = .ok (false, s)) ∧
    (17 ≤ held s → held s ≤ symCap → ∃ m : Memory 8,
      headerStep s = .ok (true, { s with
        pend :=
          { acc := m
            accCur := 2
            ptype := byteAt s s.cursor
            psize := byteAt s (s.cursor + 8)
            plen := BitVec.ofNat 10 (min ((byteAt s (s.cursor + 8)).toNat + s.params.ovh) 510) }
        cursor := s.cursor + 16
        pstate := .payload }) ∧
      m.read 0 = byteAt s s.cursor ∧ m.read 1 = byteAt s (s.cursor + 8) ∧
      ∀ a, 2 ≤ a → m.read a = s.pend.acc.read a)

/-- PAYLOAD_STEP: a deferral with no state change while fewer than 8 * PLEN + 1 symbols are there; else one record made of the
stream's bytes goes to the queue, PKT_COUNT counts it, CURSOR passes the packet and the parse is back in Begin with the
per-packet and correlator state cleared (R95, R96, R97, R106). -/
def Obligations.PayloadStepDeliversThePacket : Prop :=
  ∀ s : State, s.pend.acc.wf accCap = true → s.pend.psize.toNat ≤ s.pend.plen.toNat → s.pend.plen.toNat ≤ 510 →
    (held s < 8 * s.pend.plen.toNat + 1 → payloadStep s = .ok (false, s)) ∧
    (8 * s.pend.plen.toNat + 1 ≤ held s → held s ≤ symCap → ∃ r : Record,
      payloadStep s = .ok (true, { enqueue r s with
        pstate := .begin
        corr := { win := 0, woff := 0, fill := 0, matchReg := 0, lastMatchLen := 0 }
        pend := { acc := [], accCur := 0, ptype := 0, psize := 0, plen := 0 }
        pktCount := s.pktCount + 1
        cursor := s.cursor + BitVec.ofNat 32 (8 * s.pend.plen.toNat) }) ∧
      r.type = s.pend.ptype ∧ r.size = s.pend.psize ∧ r.db = s.dbLevel ∧
      r.dlen.toNat = s.pend.psize.toNat - 6 ∧
      (∀ i (h : i < 249), r.data[i] =
        if i < s.pend.psize.toNat - 6 then byteAt s (s.cursor + BitVec.ofNat 32 (8 * (6 + i))) else 0) ∧
      (6 ≤ s.pend.psize.toNat →
        ∀ k (h : k < 6), r.devid[k] = byteAt s (s.cursor + BitVec.ofNat 32 (8 * k))) ∧
      (s.pend.psize.toNat < 6 →
        (∀ k (h : k < 4), r.devid[k] = s.syncCapture.extractLsb' (8 * k) 8) ∧ r.devid[4] = 0 ∧ r.devid[5] = 0))

/-- PARSE returns only from a state in which no step proceeds: the bound on its turns, which is the model's
(notes/assumptions/15.md), is never what ends it. In every state whatever (R89, R90). -/
def Obligations.ParseEndsOnlyWhenNothingProceeds : Prop :=
  ∀ s t : State, parse s = .ok t → parseStep t = .ok (false, t)

/-! ### The queue -/

/-- ENQUEUE: while there is room the record goes into slot (QHEAD + QCOUNT) mod 8, the end of the queue as a list, QCOUNT goes up
by one and no other slot and no other element changes; a record that finds the queue full is dropped, counted and flagged,
and nothing else changes (R107). -/
def Obligations.EnqueueDropsTheNewest : Prop :=
  ∀ (s : State) (r : Record),
    (s.qcount.toNat < 8 → queued (enqueue r s) = queued s ++ [r] ∧
      enqueue r s = { s with q := (enqueue r s).q, qcount := s.qcount + 1 } ∧
      ∀ i (h : i < 8), (enqueue r s).q[i] = if i = (s.qhead.toNat + s.qcount.toNat) % 8 then r else s.q[i]) ∧
    (8 ≤ s.qcount.toNat → enqueue r s = { s with dropCount := s.dropCount + 1, qOvf := true } ∧
      queued (enqueue r s) = queued s)

/-- READ_PACKET removes the record it returns, the oldest, from the queue; READ_REG has no side effect, and read again gives the
same word (R47). -/
def Obligations.ReadsAndTheirSideEffects : Prop :=
  (∀ s : State, 0 < s.qcount.toNat → s.qcount.toNat ≤ 8 →
    ∃ (t : State) (r : Record), exec (.readPacket 0) s = .next t ∧ queued s = r :: queued t ∧
      t.respOut = s.respOut ++ 1 :: r.words) ∧
  (∀ (s : State) (reg : BitVec 8), reg.toNat ≤ 0x10 →
    ∃ (t u : State) (v : Word), exec (.readReg 0 reg) s = .next t ∧ t = { s with respOut := s.respOut ++ [v] } ∧
      exec (.readReg 0 reg) t = .next u ∧ u.respOut = s.respOut ++ [v, v])

/-- A PROCESS_BUFFER only appends to the queue. Every record it appends carries the DB_LEVEL of that buffer; PKT_COUNT counts the
records assembled, queued or dropped, DROP_COUNT those dropped; and if one is dropped then Q_OVF is set and the queue is
full (R50, R69, R103, R107). -/
def Obligations.BufferOnlyAppendsToTheQueue : Prop :=
  ∀ (s t : State) (raw : List Word), s.qcount.toNat ≤ 8 → exec (.processBuffer 0 raw) s = .next t →
    ∃ (new : List Record) (dropped : Nat),
      queued t = queued s ++ new ∧ (∀ r ∈ new, r.db = t.dbLevel) ∧
      t.pktCount = s.pktCount + BitVec.ofNat 32 (new.length + dropped) ∧
      t.dropCount = s.dropCount + BitVec.ofNat 32 dropped ∧
      (dropped = 0 → t.qOvf = s.qOvf) ∧ (0 < dropped → t.qOvf = true ∧ t.qcount.toNat = 8)

/-- One PROCESS_BUFFER assembles at most floor((M + 1) / 48) + 1 records (R129). -/
def Obligations.RecordsPerBufferAreBounded : Prop :=
  ∀ (s t : State) (raw : List Word), paramsInBounds s.params = true → ParseCoherent s →
    exec (.processBuffer 0 raw) s = .next t →
      ∃ n : Nat, t.pktCount = s.pktCount + BitVec.ofNat 32 n ∧ n ≤ (s.params.symbolsPerBuffer + 1) / 48 + 1

/-! ### The machine as a whole -/

/-- The reset table, element by element, under any parameters. What the symbol store and the queue slots hold is unobservable
and not stated (R35). -/
def Obligations.ResetTable : Prop :=
  ∀ p : Params,
    let s := State.resetWith p
    s.configured = false ∧ s.channel = 0 ∧ s.pstate = .begin ∧ s.w = 0 ∧ s.cursor = 0 ∧
    s.corr.win = 0 ∧ s.corr.woff = 0 ∧ s.corr.fill = 0 ∧ s.corr.matchReg = 0 ∧ s.corr.lastMatchLen = 0 ∧
    s.syncCapture = 0 ∧ s.hitPos = 0 ∧
    (∀ a, s.pend.acc.read a = 0) ∧ s.pend.accCur = 0 ∧ s.pend.ptype = 0 ∧ s.pend.psize = 0 ∧ s.pend.plen = 0 ∧
    s.maxsq = 0 ∧ s.dbLevel.toInt = -128 ∧ s.fhist = List.replicate (p.taps.length - 1) 0 ∧
    queued s = [] ∧ s.qhead = 0 ∧ s.qcount = 0 ∧
    s.pktCount = 0 ∧ s.dropCount = 0 ∧ s.bufCount = 0 ∧ s.syncCount = 0 ∧ s.cmdErr = false ∧ s.qOvf = false

/-- Every step keeps what the rules keep true between commands (R36). -/
def Obligations.StepKeepsParseCoherent : Prop :=
  ∀ s t : State, ParseCoherent s → step s = .next t → ParseCoherent t

/-- Every step keeps the symbol store and ACC in their canonical form, addresses rising within the store and no 0 listed, and the
filter history at its length NTAPS - 1 (R28). The canonical form is the model's choice of how to hold a store
(notes/assumptions/6.md). -/
def Obligations.StepKeepsStoresCanonical : Prop :=
  ∀ s t : State, StoresCanonical s → step s = .next t → StoresCanonical t

/-- After reset, under any parameters within R9, all the invariants hold. -/
def Obligations.ResetIsGood : Prop :=
  (∀ p : Params, paramsInBounds p = true → Good (State.resetWith p)) ∧ Good State.reset

/-- From every state that keeps the invariants of R36 the next step completes: no symbol is read that the store does not
hold, no byte is written outside ACC, and no command is refused (R40, R42, R43). -/
def Obligations.EveryStepCompletes : Prop :=
  ∀ s : State, paramsInBounds s.params = true → ParseCoherent s → ∃ t, step s = .next t

/-- No state that FSKDEMOD reaches from reset stops, whatever the host puts on the command interface and whenever; and in every
one of them the invariants hold (R36, R50). -/
def Obligations.ReachableStatesAreGoodAndGoOn : Prop :=
  ∀ (p : Params) (s : State), paramsInBounds p = true → Reachable p s → Good s ∧ ∃ t, step s = .next t

/-- No step changes the parameters (R16, R74). -/
def Obligations.ParametersNeverChange : Prop :=
  ∀ s t : State, step s = .next t → t.params = s.params

/-- CMD_ERR is set when a command is rejected and Q_OVF when a record is dropped; each stays 1 until reset or a well-formed
CLEAR_STATUS with the matching mask bit (R31). -/
def Obligations.StickyBitsStayUntilCleared : Prop :=
  (∀ (c : CmdErrorCause) (s : State), (raiseCmdError c s).cmdErr = true) ∧
  (∀ (r : Record) (s : State), qDepth ≤ s.qcount.toNat → (enqueue r s).qOvf = true) ∧
  ∀ s t : State, step s = .next t →
    (s.cmdErr = true → t.cmdErr = false →
      (∃ rest, fetch s.params s.hostIn = .resetAsserted rest) ∨
      (∃ mask rest, fetch s.params s.hostIn = .command (.clearStatus 0 mask) rest ∧ mask.getLsbD 0 = true)) ∧
    (s.qOvf = true → t.qOvf = false →
      (∃ rest, fetch s.params s.hostIn = .resetAsserted rest) ∨
      (∃ mask rest, fetch s.params s.hostIn = .command (.clearStatus 0 mask) rest ∧ mask.getLsbD 1 = true))

/-- PKT_AVAIL is 1 exactly while QCOUNT > 0, is STATUS bit 3, and falls only at a READ_PACKET or a reset (R115). -/
def Obligations.PktAvailIsALevel : Prop :=
  (∀ s : State, (pktAvail s = true ↔ 0 < s.qcount.toNat) ∧ (statusReg s).getLsbD 3 = pktAvail s) ∧
  (∀ s t : State, step s = .next t → pktAvail s = true → pktAvail t = false →
    (∃ rest, fetch s.params s.hostIn = .resetAsserted rest) ∨
    (∃ rest, fetch s.params s.hostIn = .command (.readPacket 0) rest))

/-- CONFIGURED is set by every well-formed CONFIGURE, which also gives CHANNEL its SEL; nothing clears CONFIGURED but reset, and
nothing else changes CHANNEL (R19). -/
def Obligations.ConfigurationStaysUntilReset : Prop :=
  (∀ (s : State) (rf : Bool) (sel : BitVec 8),
    ∃ t, exec (.configure 0 rf sel) s = .next t ∧ t.configured = true ∧ t.channel = sel) ∧
  (∀ s t : State, step s = .next t →
    (s.configured = true ∧ t.configured = false → ∃ rest, fetch s.params s.hostIn = .resetAsserted rest) ∧
    (t.channel ≠ s.channel → (∃ rest, fetch s.params s.hostIn = .resetAsserted rest) ∨
      (∃ rf sel rest, fetch s.params s.hostIn = .command (.configure 0 rf sel) rest)))

/-- The parse waits without limit: a step that is no PROCESS_BUFFER, no CONFIGURE and no reset leaves the whole parsing context as
it was, a rejected command among them (R112, R130). -/
def Obligations.OtherCommandsLeaveTheParseAlone : Prop :=
  ∀ s t : State, step s = .next t →
    (∀ rest, fetch s.params s.hostIn ≠ .resetAsserted rest) →
    (∀ raw rest, fetch s.params s.hostIn ≠ .command (.processBuffer 0 raw) rest) →
    (∀ rf sel rest, fetch s.params s.hostIn ≠ .command (.configure 0 rf sel) rest) →
      t.configured = s.configured ∧ t.pstate = s.pstate ∧ t.cursor = s.cursor ∧ t.w = s.w ∧ t.sym = s.sym ∧
        t.corr = s.corr ∧ t.pend = s.pend ∧ t.syncCapture = s.syncCapture ∧ t.hitPos = s.hitPos ∧
        t.fhist = s.fhist ∧ t.maxsq = s.maxsq ∧ t.dbLevel = s.dbLevel ∧ t.pktCount = s.pktCount ∧
        t.dropCount = s.dropCount ∧ t.bufCount = s.bufCount ∧ t.syncCount = s.syncCount

/-- After a CONFIGURE nothing depends on the symbols held before it nor on what the parse had made of them. Two machines that
differ in their symbols, CONFIGURED, CHANNEL and the whole parse (PSTATE, CURSOR, the correlator, the pending packet), and
for RF = 1 in the filter history, agree after the same CONFIGURE on everything but passed symbols; and machines that agree
so stay in agreement, step by step, the queue and the responses among it. A CONFIGURE with RF = 0 keeps the filter
history (R75), so there the two have the same one (R101, R128). -/
def Obligations.NothingAfterConfigureDependsOnEarlierSymbols : Prop :=
  (∀ (s t : State) (rf : Bool) (sel : BitVec 8),
    t = { s with
      sym := t.sym
      configured := t.configured
      channel := t.channel
      pstate := t.pstate
      cursor := t.cursor
      corr := t.corr
      pend := t.pend
      fhist := if rf then t.fhist else s.fhist } →
    ∃ s1 t1, exec (.configure 0 rf sel) s = .next s1 ∧ exec (.configure 0 rf sel) t = .next t1 ∧
      SameButPassedSymbols s1 t1) ∧
  (∀ s t s1 : State, Good s → Good t → SameButPassedSymbols s t → step s = .next s1 →
    ∃ t1, step t = .next t1 ∧ SameButPassedSymbols s1 t1)
end

