-- ==== Sys2Proof/Laws/Bits.lean ====
section
/-! SUPPORT. Sys2Proof/Laws/Bits.lean: taking fields out of concatenations, and one bit of a word set. -/

namespace Sys2Proof

/-- A field that lies wholly in the upper part of a concatenation. -/
theorem extract_append_high {m n i k w : Nat} (a : BitVec m) (b : BitVec n) (h : i = n + k) :
    (a ++ b).extractLsb' i w = a.extractLsb' k w := by
  subst h
  ext j hj
  simp only [BitVec.getElem_extractLsb', BitVec.getLsbD_append]
  rw [if_neg (by omega)]
  congr 1
  omega

/-- A field that lies wholly in the lower part of a concatenation. -/
theorem extract_append_low {m n i w : Nat} (a : BitVec m) (b : BitVec n) (h : i + w ≤ n) :
    (a ++ b).extractLsb' i w = b.extractLsb' i w := by
  ext j hj
  simp only [BitVec.getElem_extractLsb', BitVec.getLsbD_append]
  rw [if_pos (by omega)]

/-- The whole of a vector as a field of it. -/
theorem extract_whole {n : Nat} (a : BitVec n) : a.extractLsb' 0 n = a := by
  ext j hj
  simp

/-- A bit of the upper part of a concatenation. -/
theorem bit_append_high {m n i k : Nat} (a : BitVec m) (b : BitVec n) (h : i = n + k) :
    (a ++ b).getLsbD i = a.getLsbD k := by
  subst h
  rw [BitVec.getLsbD_append, if_neg (by omega)]
  congr 1
  omega

/-- A bit of the lower part of a concatenation. -/
theorem bit_append_low {m n i : Nat} (a : BitVec m) (b : BitVec n) (h : i < n) :
    (a ++ b).getLsbD i = b.getLsbD i := by
  rw [BitVec.getLsbD_append, if_pos h]

namespace Machine

/-- Bit `j` of a word after bit `i` is set to `b`. -/
theorem setBit_getLsbD (v : Word) {i j : Nat} (b : Bool) (hi : i < 32) :
    (setBit v i b).getLsbD j = if j = i then b else v.getLsbD j := by
  have hone : (1#32 <<< i).getLsbD j = decide (j = i) := by
    simp only [BitVec.getLsbD_shiftLeft, BitVec.getLsbD_one]
    by_cases h : j = i
    · subst h
      simp [hi]
    · by_cases hlt : j < i
      · simp [hlt, h]
      · have : j - i ≠ 0 := by omega
        simp [this, h]
  unfold setBit
  cases b with
  | true =>
    rw [if_pos rfl, BitVec.getLsbD_or, hone]
    by_cases h : j = i <;> simp [h]
  | false =>
    rw [if_neg (by simp), BitVec.getLsbD_and, BitVec.getLsbD_not, hone]
    by_cases h : j = i
    · simp [h]
    · by_cases h32 : j < 32
      · simp [h, h32]
      · simp [h, h32, BitVec.getLsbD_of_ge v j (by omega)]

end Machine

end Sys2Proof
end

