-- ==== Sys2Proof/Laws/Correlator.lean ====
section
/-! SUPPORT. Sys2Proof/Laws/Correlator.lean: what COMPARE's loop and one more decided bit do to the correlator's registers. -/

namespace Sys2Proof.Machine

/-- COMPARE's loop from bit `p` on: it stops at the first mismatch or at the end, and the bits it passed stand in the
matched-bits register. -/
theorem compareFrom_spec (win sync : Word) (oldest : Nat) {fuel p : Nat} (m : Word) (h : p + fuel ≤ 32) :
    let r := compareFrom win sync oldest fuel p m
    p ≤ r.2 ∧ r.2 ≤ p + fuel ∧
      (∀ i, p ≤ i → i < r.2 → win.getLsbD ((oldest + i) % 32) = sync.getLsbD i) ∧
      (r.2 < p + fuel → win.getLsbD ((oldest + r.2) % 32) ≠ sync.getLsbD r.2) ∧
      ∀ i, r.1.getLsbD i = if p ≤ i ∧ i < r.2 then sync.getLsbD i else m.getLsbD i := by
  induction fuel generalizing p m with
  | zero =>
    refine ⟨le_rfl, le_rfl, fun i h1 h2 => ?_, fun h => ?_, fun i => ?_⟩
    · exact absurd h2 (by simp [compareFrom]; omega)
    · simp [compareFrom] at h
    · rw [if_neg (by simp [compareFrom])]
      rfl
  | succ n ih =>
    simp only [compareFrom]
    split
    · rename_i heq
      obtain ⟨h1, h2, h3, h4, h5⟩ := ih (p := p + 1) (setBit m p (win.getLsbD ((oldest + p) % 32))) (by omega)
      refine ⟨by omega, by omega, fun i hi hlt => ?_, fun hlt => h4 (by omega), fun i => ?_⟩
      · by_cases hip : i = p
        · exact hip ▸ heq
        · exact h3 i (by omega) hlt
      · rw [h5, setBit_getLsbD _ _ (by omega)]
        by_cases hip : i = p
        · subst hip
          rw [if_neg (by omega), if_pos rfl, if_pos ⟨le_rfl, by omega⟩, heq]
        · rw [if_neg hip]
          have : (p + 1 ≤ i) ↔ (p ≤ i) := by omega
          simp only [this]
    · rename_i hne
      exact ⟨le_rfl, by omega, fun i h1 h2 => absurd h2 (by omega), fun _ => hne, fun i => by rw [if_neg (by omega)]⟩

@[simp] theorem pushBit_win (sync : Word) (bit : Bool) (c : Correlator) :
    (pushBit sync bit c).win = setBit c.win c.woff.toNat bit := rfl

@[simp] theorem pushBit_woff (sync : Word) (bit : Bool) (c : Correlator) :
    (pushBit sync bit c).woff = c.woff + 1 := rfl

@[simp] theorem pushBit_fill (sync : Word) (bit : Bool) (c : Correlator) :
    (pushBit sync bit c).fill.toNat = min (c.fill.toNat + 1) 32 := by
  show (BitVec.ofNat 6 _).toNat = _
  rw [BitVec.toNat_ofNat, Nat.mod_eq_of_lt (by omega)]

/-- The slot after the one just written is the oldest. -/
theorem woff_succ_toNat (c : Correlator) : (c.woff + 1).toNat = (c.woff.toNat + 1) % 32 := by
  simp [BitVec.toNat_add]

/-- The hit condition in the registers. -/
theorem isHit_iff (c : Correlator) : isHit c = true ↔ c.fill.toNat = 32 ∧ c.lastMatchLen.toNat = 32 := by
  simp [isHit]

end Sys2Proof.Machine
end

