-- ==== Sys2Proof/Laws/Memory.lean ====
section
/-! SUPPORT. Sys2Proof/Laws/Memory.lean: what reading and writing the canonical store do, that every write keeps the canonical
form, and that equal stores are equal data. -/

namespace Sys2Proof.Machine

variable {width : Nat}

@[simp] theorem Memory.read_nil (a : Nat) : Memory.read ([] : Memory width) a = 0 := rfl

@[simp] theorem Memory.wf_nil (cap : Nat) : Memory.wf cap ([] : Memory width) = true := rfl

theorem Memory.wfFrom_cons {cap lo a : Nat} {v : BitVec width} {rest : Memory width} :
    Memory.wfFrom cap lo ((a, v) :: rest) = true ↔
      lo ≤ a ∧ a < cap ∧ v ≠ 0 ∧ Memory.wfFrom cap (a + 1) rest = true := by
  simp [Memory.wfFrom, and_assoc]

theorem Memory.wfFrom_mono {cap : Nat} {m : Memory width} {lo lo' : Nat} (h : lo' ≤ lo)
    (hm : Memory.wfFrom cap lo m = true) : Memory.wfFrom cap lo' m = true := by
  cases m with
  | nil => rfl
  | cons p rest =>
    obtain ⟨a, v⟩ := p
    rw [Memory.wfFrom_cons] at hm ⊢
    exact ⟨by omega, hm.2⟩

/-- An address below the first listed one is not listed. -/
theorem Memory.read_below {cap : Nat} {m : Memory width} {lo a : Nat}
    (hm : Memory.wfFrom cap lo m = true) (ha : a < lo) : Memory.read m a = 0 := by
  induction m generalizing lo with
  | nil => rfl
  | cons p rest ih =>
    obtain ⟨b, x⟩ := p
    rw [Memory.wfFrom_cons] at hm
    have : a ≠ b := by omega
    simp only [Memory.read, if_neg this]
    exact ih hm.2.2.2 (by omega)

theorem Memory.write_keeps_wfFrom {cap : Nat} {m : Memory width} {lo a : Nat} {v : BitVec width}
    (hm : Memory.wfFrom cap lo m = true) (ha : lo ≤ a) (hc : a < cap) :
    Memory.wfFrom cap lo (Memory.write m a v) = true := by
  induction m generalizing lo with
  | nil =>
    by_cases hv : v = 0
    · simp [Memory.write, hv, Memory.wfFrom]
    · rw [Memory.write, if_neg hv]
      exact Memory.wfFrom_cons.2 ⟨ha, hc, hv, rfl⟩
  | cons p rest ih =>
    obtain ⟨b, x⟩ := p
    rw [Memory.wfFrom_cons] at hm
    obtain ⟨h1, h2, h3, h4⟩ := hm
    simp only [Memory.write]
    split
    · split
      · exact Memory.wfFrom_cons.2 ⟨h1, h2, h3, h4⟩
      · exact Memory.wfFrom_cons.2 ⟨ha, hc, by assumption, Memory.wfFrom_cons.2 ⟨by omega, h2, h3, h4⟩⟩
    · split
      · subst a
        split
        · exact Memory.wfFrom_mono (by omega) h4
        · exact Memory.wfFrom_cons.2 ⟨h1, h2, by assumption, h4⟩
      · exact Memory.wfFrom_cons.2 ⟨h1, h2, h3, ih h4 (by omega)⟩

/-- A write keeps the canonical form. -/
theorem Memory.write_keeps_wf {cap : Nat} {m : Memory width} {a : Nat} {v : BitVec width}
    (hm : Memory.wf cap m = true) (hc : a < cap) : Memory.wf cap (Memory.write m a v) = true :=
  Memory.write_keeps_wfFrom hm (Nat.zero_le _) hc

theorem Memory.read_write_from {cap : Nat} {m : Memory width} {lo a b : Nat} {v : BitVec width}
    (hm : Memory.wfFrom cap lo m = true) :
    Memory.read (Memory.write m a v) b = if b = a then v else Memory.read m b := by
  induction m generalizing lo with
  | nil =>
    by_cases hv : v = 0
    · simp [Memory.write, hv]
    · rw [Memory.write, if_neg hv]
      rfl
  | cons p rest ih =>
    obtain ⟨c, x⟩ := p
    rw [Memory.wfFrom_cons] at hm
    obtain ⟨-, -, -, h4⟩ := hm
    have hlow : ∀ d, d ≤ c → Memory.read rest d = 0 := fun d hd => Memory.read_below h4 (by omega)
    simp only [Memory.write]
    split
    · rename_i hac
      split
      · subst v
        by_cases hba : b = a
        · subst hba
          simp [Memory.read, Nat.ne_of_lt hac, hlow b (by omega)]
        · simp [hba]
      · simp [Memory.read]
    · split
      · subst a
        split
        · subst v
          by_cases hbc : b = c
          · simp [hbc, hlow c le_rfl]
          · simp [Memory.read, hbc]
        · by_cases hbc : b = c <;> simp [Memory.read, hbc]
      · rename_i h1 h2
        simp only [Memory.read]
        rw [ih h4]
        by_cases hbc : b = c
        · subst hbc
          simp [Ne.symm h2]
        · simp [hbc]

/-- A read after a write: the value written at that address, what was there before at every other. -/
theorem Memory.read_write {cap : Nat} {m : Memory width} {a b : Nat} {v : BitVec width}
    (hm : Memory.wf cap m = true) :
    Memory.read (Memory.write m a v) b = if b = a then v else Memory.read m b :=
  Memory.read_write_from hm

theorem Memory.eq_of_read_from {cap : Nat} {m n : Memory width} {lo : Nat}
    (hm : Memory.wfFrom cap lo m = true) (hn : Memory.wfFrom cap lo n = true)
    (h : ∀ a, Memory.read m a = Memory.read n a) : m = n := by
  induction m generalizing n lo with
  | nil =>
    cases n with
    | nil => rfl
    | cons p rest =>
      obtain ⟨b, x⟩ := p
      rw [Memory.wfFrom_cons] at hn
      have := h b
      simp [Memory.read] at this
      exact absurd this.symm hn.2.2.1
  | cons p rest ih =>
    obtain ⟨b, x⟩ := p
    have hm' := Memory.wfFrom_cons.1 hm
    cases n with
    | nil =>
      have := h b
      simp [Memory.read] at this
      exact absurd this hm'.2.2.1
    | cons p' rest' =>
      obtain ⟨c, y⟩ := p'
      have hn' := Memory.wfFrom_cons.1 hn
      have hbc : b = c := by
        rcases Nat.lt_trichotomy b c with hlt | heq | hgt
        · have := h b
          simp only [Memory.read, if_true, if_neg (Nat.ne_of_lt hlt)] at this
          rw [Memory.read_below hn'.2.2.2 (by omega)] at this
          exact absurd this hm'.2.2.1
        · exact heq
        · have := h c
          simp only [Memory.read, if_true, if_neg (Nat.ne_of_lt hgt)] at this
          rw [Memory.read_below hm'.2.2.2 (by omega)] at this
          exact absurd this.symm hn'.2.2.1
      subst hbc
      have hxy : x = y := by simpa [Memory.read] using h b
      subst hxy
      congr 1
      refine ih hm'.2.2.2 hn'.2.2.2 fun a => ?_
      by_cases hab : a = b
      · subst hab
        rw [Memory.read_below hm'.2.2.2 (by omega), Memory.read_below hn'.2.2.2 (by omega)]
      · simpa [Memory.read, hab] using h a

/-- Two canonical stores that read the same everywhere are the same data. -/
theorem Memory.eq_of_read {cap : Nat} {m n : Memory width} (hm : Memory.wf cap m = true)
    (hn : Memory.wf cap n = true) (h : ∀ a, Memory.read m a = Memory.read n a) : m = n :=
  Memory.eq_of_read_from hm hn h

end Sys2Proof.Machine
end

