-- ==== Sys2Proof/Laws/State.lean ====
section
/-! SUPPORT. Sys2Proof/Laws/State.lean: one lemma per field per update, true by rfl, so that no later proof unfolds a record
update; and the state element by element after a reset. -/

namespace Sys2Proof.Machine

variable (s : State)

/-! ### respond -/

@[simp] theorem respond_params (v : Word) : (respond v s).params = s.params := rfl
@[simp] theorem respond_configured (v : Word) : (respond v s).configured = s.configured := rfl
@[simp] theorem respond_channel (v : Word) : (respond v s).channel = s.channel := rfl
@[simp] theorem respond_pstate (v : Word) : (respond v s).pstate = s.pstate := rfl
@[simp] theorem respond_w (v : Word) : (respond v s).w = s.w := rfl
@[simp] theorem respond_sym (v : Word) : (respond v s).sym = s.sym := rfl
@[simp] theorem respond_cursor (v : Word) : (respond v s).cursor = s.cursor := rfl
@[simp] theorem respond_corr (v : Word) : (respond v s).corr = s.corr := rfl
@[simp] theorem respond_syncCapture (v : Word) : (respond v s).syncCapture = s.syncCapture := rfl
@[simp] theorem respond_hitPos (v : Word) : (respond v s).hitPos = s.hitPos := rfl
@[simp] theorem respond_pend (v : Word) : (respond v s).pend = s.pend := rfl
@[simp] theorem respond_maxsq (v : Word) : (respond v s).maxsq = s.maxsq := rfl
@[simp] theorem respond_dbLevel (v : Word) : (respond v s).dbLevel = s.dbLevel := rfl
@[simp] theorem respond_fhist (v : Word) : (respond v s).fhist = s.fhist := rfl
@[simp] theorem respond_q (v : Word) : (respond v s).q = s.q := rfl
@[simp] theorem respond_qhead (v : Word) : (respond v s).qhead = s.qhead := rfl
@[simp] theorem respond_qcount (v : Word) : (respond v s).qcount = s.qcount := rfl
@[simp] theorem respond_pktCount (v : Word) : (respond v s).pktCount = s.pktCount := rfl
@[simp] theorem respond_dropCount (v : Word) : (respond v s).dropCount = s.dropCount := rfl
@[simp] theorem respond_bufCount (v : Word) : (respond v s).bufCount = s.bufCount := rfl
@[simp] theorem respond_syncCount (v : Word) : (respond v s).syncCount = s.syncCount := rfl
@[simp] theorem respond_cmdErr (v : Word) : (respond v s).cmdErr = s.cmdErr := rfl
@[simp] theorem respond_qOvf (v : Word) : (respond v s).qOvf = s.qOvf := rfl
@[simp] theorem respond_hostIn (v : Word) : (respond v s).hostIn = s.hostIn := rfl
@[simp] theorem respond_respOut (v : Word) : (respond v s).respOut = s.respOut ++ [v] := rfl

/-! ### respondAll -/

@[simp] theorem respondAll_params (vs : List Word) : (respondAll vs s).params = s.params := rfl
@[simp] theorem respondAll_configured (vs : List Word) : (respondAll vs s).configured = s.configured := rfl
@[simp] theorem respondAll_channel (vs : List Word) : (respondAll vs s).channel = s.channel := rfl
@[simp] theorem respondAll_pstate (vs : List Word) : (respondAll vs s).pstate = s.pstate := rfl
@[simp] theorem respondAll_w (vs : List Word) : (respondAll vs s).w = s.w := rfl
@[simp] theorem respondAll_sym (vs : List Word) : (respondAll vs s).sym = s.sym := rfl
@[simp] theorem respondAll_cursor (vs : List Word) : (respondAll vs s).cursor = s.cursor := rfl
@[simp] theorem respondAll_corr (vs : List Word) : (respondAll vs s).corr = s.corr := rfl
@[simp] theorem respondAll_syncCapture (vs : List Word) : (respondAll vs s).syncCapture = s.syncCapture := rfl
@[simp] theorem respondAll_hitPos (vs : List Word) : (respondAll vs s).hitPos = s.hitPos := rfl
@[simp] theorem respondAll_pend (vs : List Word) : (respondAll vs s).pend = s.pend := rfl
@[simp] theorem respondAll_maxsq (vs : List Word) : (respondAll vs s).maxsq = s.maxsq := rfl
@[simp] theorem respondAll_dbLevel (vs : List Word) : (respondAll vs s).dbLevel = s.dbLevel := rfl
@[simp] theorem respondAll_fhist (vs : List Word) : (respondAll vs s).fhist = s.fhist := rfl
@[simp] theorem respondAll_q (vs : List Word) : (respondAll vs s).q = s.q := rfl
@[simp] theorem respondAll_qhead (vs : List Word) : (respondAll vs s).qhead = s.qhead := rfl
@[simp] theorem respondAll_qcount (vs : List Word) : (respondAll vs s).qcount = s.qcount := rfl
@[simp] theorem respondAll_pktCount (vs : List Word) : (respondAll vs s).pktCount = s.pktCount := rfl
@[simp] theorem respondAll_dropCount (vs : List Word) : (respondAll vs s).dropCount = s.dropCount := rfl
@[simp] theorem respondAll_bufCount (vs : List Word) : (respondAll vs s).bufCount = s.bufCount := rfl
@[simp] theorem respondAll_syncCount (vs : List Word) : (respondAll vs s).syncCount = s.syncCount := rfl
@[simp] theorem respondAll_cmdErr (vs : List Word) : (respondAll vs s).cmdErr = s.cmdErr := rfl
@[simp] theorem respondAll_qOvf (vs : List Word) : (respondAll vs s).qOvf = s.qOvf := rfl
@[simp] theorem respondAll_hostIn (vs : List Word) : (respondAll vs s).hostIn = s.hostIn := rfl
@[simp] theorem respondAll_respOut (vs : List Word) : (respondAll vs s).respOut = s.respOut ++ vs := rfl

/-! ### raiseCmdError -/

@[simp] theorem raiseCmdError_params (c : CmdErrorCause) : (raiseCmdError c s).params = s.params := rfl
@[simp] theorem raiseCmdError_configured (c : CmdErrorCause) : (raiseCmdError c s).configured = s.configured := rfl
@[simp] theorem raiseCmdError_channel (c : CmdErrorCause) : (raiseCmdError c s).channel = s.channel := rfl
@[simp] theorem raiseCmdError_pstate (c : CmdErrorCause) : (raiseCmdError c s).pstate = s.pstate := rfl
@[simp] theorem raiseCmdError_w (c : CmdErrorCause) : (raiseCmdError c s).w = s.w := rfl
@[simp] theorem raiseCmdError_sym (c : CmdErrorCause) : (raiseCmdError c s).sym = s.sym := rfl
@[simp] theorem raiseCmdError_cursor (c : CmdErrorCause) : (raiseCmdError c s).cursor = s.cursor := rfl
@[simp] theorem raiseCmdError_corr (c : CmdErrorCause) : (raiseCmdError c s).corr = s.corr := rfl
@[simp] theorem raiseCmdError_syncCapture (c : CmdErrorCause) : (raiseCmdError c s).syncCapture = s.syncCapture := rfl
@[simp] theorem raiseCmdError_hitPos (c : CmdErrorCause) : (raiseCmdError c s).hitPos = s.hitPos := rfl
@[simp] theorem raiseCmdError_pend (c : CmdErrorCause) : (raiseCmdError c s).pend = s.pend := rfl
@[simp] theorem raiseCmdError_maxsq (c : CmdErrorCause) : (raiseCmdError c s).maxsq = s.maxsq := rfl
@[simp] theorem raiseCmdError_dbLevel (c : CmdErrorCause) : (raiseCmdError c s).dbLevel = s.dbLevel := rfl
@[simp] theorem raiseCmdError_fhist (c : CmdErrorCause) : (raiseCmdError c s).fhist = s.fhist := rfl
@[simp] theorem raiseCmdError_q (c : CmdErrorCause) : (raiseCmdError c s).q = s.q := rfl
@[simp] theorem raiseCmdError_qhead (c : CmdErrorCause) : (raiseCmdError c s).qhead = s.qhead := rfl
@[simp] theorem raiseCmdError_qcount (c : CmdErrorCause) : (raiseCmdError c s).qcount = s.qcount := rfl
@[simp] theorem raiseCmdError_pktCount (c : CmdErrorCause) : (raiseCmdError c s).pktCount = s.pktCount := rfl
@[simp] theorem raiseCmdError_dropCount (c : CmdErrorCause) : (raiseCmdError c s).dropCount = s.dropCount := rfl
@[simp] theorem raiseCmdError_bufCount (c : CmdErrorCause) : (raiseCmdError c s).bufCount = s.bufCount := rfl
@[simp] theorem raiseCmdError_syncCount (c : CmdErrorCause) : (raiseCmdError c s).syncCount = s.syncCount := rfl
@[simp] theorem raiseCmdError_cmdErr (c : CmdErrorCause) : (raiseCmdError c s).cmdErr = true := rfl
@[simp] theorem raiseCmdError_qOvf (c : CmdErrorCause) : (raiseCmdError c s).qOvf = s.qOvf := rfl
@[simp] theorem raiseCmdError_hostIn (c : CmdErrorCause) : (raiseCmdError c s).hostIn = s.hostIn := rfl
@[simp] theorem raiseCmdError_respOut (c : CmdErrorCause) : (raiseCmdError c s).respOut = s.respOut := rfl

/-! ### symWrite -/

@[simp] theorem symWrite_params (n v : Word) : (symWrite n v s).params = s.params := rfl
@[simp] theorem symWrite_configured (n v : Word) : (symWrite n v s).configured = s.configured := rfl
@[simp] theorem symWrite_channel (n v : Word) : (symWrite n v s).channel = s.channel := rfl
@[simp] theorem symWrite_pstate (n v : Word) : (symWrite n v s).pstate = s.pstate := rfl
@[simp] theorem symWrite_w (n v : Word) : (symWrite n v s).w = s.w := rfl
@[simp] theorem symWrite_sym (n v : Word) : (symWrite n v s).sym = s.sym.write (symEntry n) v := rfl
@[simp] theorem symWrite_cursor (n v : Word) : (symWrite n v s).cursor = s.cursor := rfl
@[simp] theorem symWrite_corr (n v : Word) : (symWrite n v s).corr = s.corr := rfl
@[simp] theorem symWrite_syncCapture (n v : Word) : (symWrite n v s).syncCapture = s.syncCapture := rfl
@[simp] theorem symWrite_hitPos (n v : Word) : (symWrite n v s).hitPos = s.hitPos := rfl
@[simp] theorem symWrite_pend (n v : Word) : (symWrite n v s).pend = s.pend := rfl
@[simp] theorem symWrite_maxsq (n v : Word) : (symWrite n v s).maxsq = s.maxsq := rfl
@[simp] theorem symWrite_dbLevel (n v : Word) : (symWrite n v s).dbLevel = s.dbLevel := rfl
@[simp] theorem symWrite_fhist (n v : Word) : (symWrite n v s).fhist = s.fhist := rfl
@[simp] theorem symWrite_q (n v : Word) : (symWrite n v s).q = s.q := rfl
@[simp] theorem symWrite_qhead (n v : Word) : (symWrite n v s).qhead = s.qhead := rfl
@[simp] theorem symWrite_qcount (n v : Word) : (symWrite n v s).qcount = s.qcount := rfl
@[simp] theorem symWrite_pktCount (n v : Word) : (symWrite n v s).pktCount = s.pktCount := rfl
@[simp] theorem symWrite_dropCount (n v : Word) : (symWrite n v s).dropCount = s.dropCount := rfl
@[simp] theorem symWrite_bufCount (n v : Word) : (symWrite n v s).bufCount = s.bufCount := rfl
@[simp] theorem symWrite_syncCount (n v : Word) : (symWrite n v s).syncCount = s.syncCount := rfl
@[simp] theorem symWrite_cmdErr (n v : Word) : (symWrite n v s).cmdErr = s.cmdErr := rfl
@[simp] theorem symWrite_qOvf (n v : Word) : (symWrite n v s).qOvf = s.qOvf := rfl
@[simp] theorem symWrite_hostIn (n v : Word) : (symWrite n v s).hostIn = s.hostIn := rfl
@[simp] theorem symWrite_respOut (n v : Word) : (symWrite n v s).respOut = s.respOut := rfl

/-! ### beginEntry -/

@[simp] theorem beginEntry_params : (beginEntry s).params = s.params := rfl
@[simp] theorem beginEntry_configured : (beginEntry s).configured = s.configured := rfl
@[simp] theorem beginEntry_channel : (beginEntry s).channel = s.channel := rfl
@[simp] theorem beginEntry_pstate : (beginEntry s).pstate = .begin := rfl
@[simp] theorem beginEntry_w : (beginEntry s).w = s.w := rfl
@[simp] theorem beginEntry_sym : (beginEntry s).sym = s.sym := rfl
@[simp] theorem beginEntry_cursor : (beginEntry s).cursor = s.cursor := rfl
@[simp] theorem beginEntry_corr : (beginEntry s).corr = Correlator.clear := rfl
@[simp] theorem beginEntry_syncCapture : (beginEntry s).syncCapture = s.syncCapture := rfl
@[simp] theorem beginEntry_hitPos : (beginEntry s).hitPos = s.hitPos := rfl
@[simp] theorem beginEntry_pend : (beginEntry s).pend = Pending.clear := rfl
@[simp] theorem beginEntry_maxsq : (beginEntry s).maxsq = s.maxsq := rfl
@[simp] theorem beginEntry_dbLevel : (beginEntry s).dbLevel = s.dbLevel := rfl
@[simp] theorem beginEntry_fhist : (beginEntry s).fhist = s.fhist := rfl
@[simp] theorem beginEntry_q : (beginEntry s).q = s.q := rfl
@[simp] theorem beginEntry_qhead : (beginEntry s).qhead = s.qhead := rfl
@[simp] theorem beginEntry_qcount : (beginEntry s).qcount = s.qcount := rfl
@[simp] theorem beginEntry_pktCount : (beginEntry s).pktCount = s.pktCount := rfl
@[simp] theorem beginEntry_dropCount : (beginEntry s).dropCount = s.dropCount := rfl
@[simp] theorem beginEntry_bufCount : (beginEntry s).bufCount = s.bufCount := rfl
@[simp] theorem beginEntry_syncCount : (beginEntry s).syncCount = s.syncCount := rfl
@[simp] theorem beginEntry_cmdErr : (beginEntry s).cmdErr = s.cmdErr := rfl
@[simp] theorem beginEntry_qOvf : (beginEntry s).qOvf = s.qOvf := rfl
@[simp] theorem beginEntry_hostIn : (beginEntry s).hostIn = s.hostIn := rfl
@[simp] theorem beginEntry_respOut : (beginEntry s).respOut = s.respOut := rfl

/-! ### clearHistory -/

@[simp] theorem clearHistory_params : (clearHistory s).params = s.params := rfl
@[simp] theorem clearHistory_configured : (clearHistory s).configured = s.configured := rfl
@[simp] theorem clearHistory_channel : (clearHistory s).channel = s.channel := rfl
@[simp] theorem clearHistory_pstate : (clearHistory s).pstate = s.pstate := rfl
@[simp] theorem clearHistory_w : (clearHistory s).w = s.w := rfl
@[simp] theorem clearHistory_sym : (clearHistory s).sym = s.sym := rfl
@[simp] theorem clearHistory_cursor : (clearHistory s).cursor = s.cursor := rfl
@[simp] theorem clearHistory_corr : (clearHistory s).corr = s.corr := rfl
@[simp] theorem clearHistory_syncCapture : (clearHistory s).syncCapture = s.syncCapture := rfl
@[simp] theorem clearHistory_hitPos : (clearHistory s).hitPos = s.hitPos := rfl
@[simp] theorem clearHistory_pend : (clearHistory s).pend = s.pend := rfl
@[simp] theorem clearHistory_maxsq : (clearHistory s).maxsq = s.maxsq := rfl
@[simp] theorem clearHistory_dbLevel : (clearHistory s).dbLevel = s.dbLevel := rfl
@[simp] theorem clearHistory_fhist : (clearHistory s).fhist = List.replicate (s.params.ntaps - 1) 0 := rfl
@[simp] theorem clearHistory_q : (clearHistory s).q = s.q := rfl
@[simp] theorem clearHistory_qhead : (clearHistory s).qhead = s.qhead := rfl
@[simp] theorem clearHistory_qcount : (clearHistory s).qcount = s.qcount := rfl
@[simp] theorem clearHistory_pktCount : (clearHistory s).pktCount = s.pktCount := rfl
@[simp] theorem clearHistory_dropCount : (clearHistory s).dropCount = s.dropCount := rfl
@[simp] theorem clearHistory_bufCount : (clearHistory s).bufCount = s.bufCount := rfl
@[simp] theorem clearHistory_syncCount : (clearHistory s).syncCount = s.syncCount := rfl
@[simp] theorem clearHistory_cmdErr : (clearHistory s).cmdErr = s.cmdErr := rfl
@[simp] theorem clearHistory_qOvf : (clearHistory s).qOvf = s.qOvf := rfl
@[simp] theorem clearHistory_hostIn : (clearHistory s).hostIn = s.hostIn := rfl
@[simp] theorem clearHistory_respOut : (clearHistory s).respOut = s.respOut := rfl

/-! ### deliver -/

@[simp] theorem deliver_params (evs : List HostEvent) : (deliver evs s).params = s.params := rfl
@[simp] theorem deliver_configured (evs : List HostEvent) : (deliver evs s).configured = s.configured := rfl
@[simp] theorem deliver_channel (evs : List HostEvent) : (deliver evs s).channel = s.channel := rfl
@[simp] theorem deliver_pstate (evs : List HostEvent) : (deliver evs s).pstate = s.pstate := rfl
@[simp] theorem deliver_w (evs : List HostEvent) : (deliver evs s).w = s.w := rfl
@[simp] theorem deliver_sym (evs : List HostEvent) : (deliver evs s).sym = s.sym := rfl
@[simp] theorem deliver_cursor (evs : List HostEvent) : (deliver evs s).cursor = s.cursor := rfl
@[simp] theorem deliver_corr (evs : List HostEvent) : (deliver evs s).corr = s.corr := rfl
@[simp] theorem deliver_syncCapture (evs : List HostEvent) : (deliver evs s).syncCapture = s.syncCapture := rfl
@[simp] theorem deliver_hitPos (evs : List HostEvent) : (deliver evs s).hitPos = s.hitPos := rfl
@[simp] theorem deliver_pend (evs : List HostEvent) : (deliver evs s).pend = s.pend := rfl
@[simp] theorem deliver_maxsq (evs : List HostEvent) : (deliver evs s).maxsq = s.maxsq := rfl
@[simp] theorem deliver_dbLevel (evs : List HostEvent) : (deliver evs s).dbLevel = s.dbLevel := rfl
@[simp] theorem deliver_fhist (evs : List HostEvent) : (deliver evs s).fhist = s.fhist := rfl
@[simp] theorem deliver_q (evs : List HostEvent) : (deliver evs s).q = s.q := rfl
@[simp] theorem deliver_qhead (evs : List HostEvent) : (deliver evs s).qhead = s.qhead := rfl
@[simp] theorem deliver_qcount (evs : List HostEvent) : (deliver evs s).qcount = s.qcount := rfl
@[simp] theorem deliver_pktCount (evs : List HostEvent) : (deliver evs s).pktCount = s.pktCount := rfl
@[simp] theorem deliver_dropCount (evs : List HostEvent) : (deliver evs s).dropCount = s.dropCount := rfl
@[simp] theorem deliver_bufCount (evs : List HostEvent) : (deliver evs s).bufCount = s.bufCount := rfl
@[simp] theorem deliver_syncCount (evs : List HostEvent) : (deliver evs s).syncCount = s.syncCount := rfl
@[simp] theorem deliver_cmdErr (evs : List HostEvent) : (deliver evs s).cmdErr = s.cmdErr := rfl
@[simp] theorem deliver_qOvf (evs : List HostEvent) : (deliver evs s).qOvf = s.qOvf := rfl
@[simp] theorem deliver_hostIn (evs : List HostEvent) : (deliver evs s).hostIn = s.hostIn ++ evs := rfl
@[simp] theorem deliver_respOut (evs : List HostEvent) : (deliver evs s).respOut = s.respOut := rfl

/-! ### payloadRead -/

@[simp] theorem payloadRead_params : (payloadRead s).params = s.params := rfl
@[simp] theorem payloadRead_configured : (payloadRead s).configured = s.configured := rfl
@[simp] theorem payloadRead_channel : (payloadRead s).channel = s.channel := rfl
@[simp] theorem payloadRead_pstate : (payloadRead s).pstate = s.pstate := rfl
@[simp] theorem payloadRead_w : (payloadRead s).w = s.w := rfl
@[simp] theorem payloadRead_sym : (payloadRead s).sym = s.sym := rfl
@[simp] theorem payloadRead_cursor : (payloadRead s).cursor = s.cursor := rfl
@[simp] theorem payloadRead_corr : (payloadRead s).corr = s.corr := rfl
@[simp] theorem payloadRead_syncCapture : (payloadRead s).syncCapture = s.syncCapture := rfl
@[simp] theorem payloadRead_hitPos : (payloadRead s).hitPos = s.hitPos := rfl
@[simp] theorem payloadRead_pend : (payloadRead s).pend = { s.pend with accCur := BitVec.ofNat 10 (hdrBytes + s.pend.plen.toNat) } := rfl
@[simp] theorem payloadRead_maxsq : (payloadRead s).maxsq = s.maxsq := rfl
@[simp] theorem payloadRead_dbLevel : (payloadRead s).dbLevel = s.dbLevel := rfl
@[simp] theorem payloadRead_fhist : (payloadRead s).fhist = s.fhist := rfl
@[simp] theorem payloadRead_q : (payloadRead s).q = s.q := rfl
@[simp] theorem payloadRead_qhead : (payloadRead s).qhead = s.qhead := rfl
@[simp] theorem payloadRead_qcount : (payloadRead s).qcount = s.qcount := rfl
@[simp] theorem payloadRead_pktCount : (payloadRead s).pktCount = s.pktCount := rfl
@[simp] theorem payloadRead_dropCount : (payloadRead s).dropCount = s.dropCount := rfl
@[simp] theorem payloadRead_bufCount : (payloadRead s).bufCount = s.bufCount := rfl
@[simp] theorem payloadRead_syncCount : (payloadRead s).syncCount = s.syncCount := rfl
@[simp] theorem payloadRead_cmdErr : (payloadRead s).cmdErr = s.cmdErr := rfl
@[simp] theorem payloadRead_qOvf : (payloadRead s).qOvf = s.qOvf := rfl
@[simp] theorem payloadRead_hostIn : (payloadRead s).hostIn = s.hostIn := rfl
@[simp] theorem payloadRead_respOut : (payloadRead s).respOut = s.respOut := rfl

/-! ### packetPassed -/

@[simp] theorem packetPassed_params : (packetPassed s).params = s.params := rfl
@[simp] theorem packetPassed_configured : (packetPassed s).configured = s.configured := rfl
@[simp] theorem packetPassed_channel : (packetPassed s).channel = s.channel := rfl
@[simp] theorem packetPassed_pstate : (packetPassed s).pstate = s.pstate := rfl
@[simp] theorem packetPassed_w : (packetPassed s).w = s.w := rfl
@[simp] theorem packetPassed_sym : (packetPassed s).sym = s.sym := rfl
@[simp] theorem packetPassed_cursor : (packetPassed s).cursor = s.cursor + BitVec.ofNat 32 (8 * s.pend.plen.toNat) := rfl
@[simp] theorem packetPassed_corr : (packetPassed s).corr = s.corr := rfl
@[simp] theorem packetPassed_syncCapture : (packetPassed s).syncCapture = s.syncCapture := rfl
@[simp] theorem packetPassed_hitPos : (packetPassed s).hitPos = s.hitPos := rfl
@[simp] theorem packetPassed_pend : (packetPassed s).pend = s.pend := rfl
@[simp] theorem packetPassed_maxsq : (packetPassed s).maxsq = s.maxsq := rfl
@[simp] theorem packetPassed_dbLevel : (packetPassed s).dbLevel = s.dbLevel := rfl
@[simp] theorem packetPassed_fhist : (packetPassed s).fhist = s.fhist := rfl
@[simp] theorem packetPassed_q : (packetPassed s).q = s.q := rfl
@[simp] theorem packetPassed_qhead : (packetPassed s).qhead = s.qhead := rfl
@[simp] theorem packetPassed_qcount : (packetPassed s).qcount = s.qcount := rfl
@[simp] theorem packetPassed_pktCount : (packetPassed s).pktCount = s.pktCount + 1 := rfl
@[simp] theorem packetPassed_dropCount : (packetPassed s).dropCount = s.dropCount := rfl
@[simp] theorem packetPassed_bufCount : (packetPassed s).bufCount = s.bufCount := rfl
@[simp] theorem packetPassed_syncCount : (packetPassed s).syncCount = s.syncCount := rfl
@[simp] theorem packetPassed_cmdErr : (packetPassed s).cmdErr = s.cmdErr := rfl
@[simp] theorem packetPassed_qOvf : (packetPassed s).qOvf = s.qOvf := rfl
@[simp] theorem packetPassed_hostIn : (packetPassed s).hostIn = s.hostIn := rfl
@[simp] theorem packetPassed_respOut : (packetPassed s).respOut = s.respOut := rfl

/-! ### dequeue -/

@[simp] theorem dequeue_params : (dequeue s).params = s.params := rfl
@[simp] theorem dequeue_configured : (dequeue s).configured = s.configured := rfl
@[simp] theorem dequeue_channel : (dequeue s).channel = s.channel := rfl
@[simp] theorem dequeue_pstate : (dequeue s).pstate = s.pstate := rfl
@[simp] theorem dequeue_w : (dequeue s).w = s.w := rfl
@[simp] theorem dequeue_sym : (dequeue s).sym = s.sym := rfl
@[simp] theorem dequeue_cursor : (dequeue s).cursor = s.cursor := rfl
@[simp] theorem dequeue_corr : (dequeue s).corr = s.corr := rfl
@[simp] theorem dequeue_syncCapture : (dequeue s).syncCapture = s.syncCapture := rfl
@[simp] theorem dequeue_hitPos : (dequeue s).hitPos = s.hitPos := rfl
@[simp] theorem dequeue_pend : (dequeue s).pend = s.pend := rfl
@[simp] theorem dequeue_maxsq : (dequeue s).maxsq = s.maxsq := rfl
@[simp] theorem dequeue_dbLevel : (dequeue s).dbLevel = s.dbLevel := rfl
@[simp] theorem dequeue_fhist : (dequeue s).fhist = s.fhist := rfl
@[simp] theorem dequeue_q : (dequeue s).q = s.q := rfl
@[simp] theorem dequeue_qhead : (dequeue s).qhead = s.qhead + 1 := rfl
@[simp] theorem dequeue_qcount : (dequeue s).qcount = s.qcount - 1 := rfl
@[simp] theorem dequeue_pktCount : (dequeue s).pktCount = s.pktCount := rfl
@[simp] theorem dequeue_dropCount : (dequeue s).dropCount = s.dropCount := rfl
@[simp] theorem dequeue_bufCount : (dequeue s).bufCount = s.bufCount := rfl
@[simp] theorem dequeue_syncCount : (dequeue s).syncCount = s.syncCount := rfl
@[simp] theorem dequeue_cmdErr : (dequeue s).cmdErr = s.cmdErr := rfl
@[simp] theorem dequeue_qOvf : (dequeue s).qOvf = s.qOvf := rfl
@[simp] theorem dequeue_hostIn : (dequeue s).hostIn = s.hostIn := rfl
@[simp] theorem dequeue_respOut : (dequeue s).respOut = s.respOut := rfl

/-! ### powerEst -/

@[simp] theorem powerEst_params (raw : List Word) : (powerEst raw s).params = s.params := rfl
@[simp] theorem powerEst_configured (raw : List Word) : (powerEst raw s).configured = s.configured := rfl
@[simp] theorem powerEst_channel (raw : List Word) : (powerEst raw s).channel = s.channel := rfl
@[simp] theorem powerEst_pstate (raw : List Word) : (powerEst raw s).pstate = s.pstate := rfl
@[simp] theorem powerEst_w (raw : List Word) : (powerEst raw s).w = s.w := rfl
@[simp] theorem powerEst_sym (raw : List Word) : (powerEst raw s).sym = s.sym := rfl
@[simp] theorem powerEst_cursor (raw : List Word) : (powerEst raw s).cursor = s.cursor := rfl
@[simp] theorem powerEst_corr (raw : List Word) : (powerEst raw s).corr = s.corr := rfl
@[simp] theorem powerEst_syncCapture (raw : List Word) : (powerEst raw s).syncCapture = s.syncCapture := rfl
@[simp] theorem powerEst_hitPos (raw : List Word) : (powerEst raw s).hitPos = s.hitPos := rfl
@[simp] theorem powerEst_pend (raw : List Word) : (powerEst raw s).pend = s.pend := rfl
@[simp] theorem powerEst_maxsq (raw : List Word) : (powerEst raw s).maxsq = BitVec.ofNat 32 (peakFrom 0 raw) := rfl
@[simp] theorem powerEst_dbLevel (raw : List Word) : (powerEst raw s).dbLevel = BitVec.ofInt 8 (mag2db (peakFrom 0 raw)) := rfl
@[simp] theorem powerEst_fhist (raw : List Word) : (powerEst raw s).fhist = s.fhist := rfl
@[simp] theorem powerEst_q (raw : List Word) : (powerEst raw s).q = s.q := rfl
@[simp] theorem powerEst_qhead (raw : List Word) : (powerEst raw s).qhead = s.qhead := rfl
@[simp] theorem powerEst_qcount (raw : List Word) : (powerEst raw s).qcount = s.qcount := rfl
@[simp] theorem powerEst_pktCount (raw : List Word) : (powerEst raw s).pktCount = s.pktCount := rfl
@[simp] theorem powerEst_dropCount (raw : List Word) : (powerEst raw s).dropCount = s.dropCount := rfl
@[simp] theorem powerEst_bufCount (raw : List Word) : (powerEst raw s).bufCount = s.bufCount := rfl
@[simp] theorem powerEst_syncCount (raw : List Word) : (powerEst raw s).syncCount = s.syncCount := rfl
@[simp] theorem powerEst_cmdErr (raw : List Word) : (powerEst raw s).cmdErr = s.cmdErr := rfl
@[simp] theorem powerEst_qOvf (raw : List Word) : (powerEst raw s).qOvf = s.qOvf := rfl
@[simp] theorem powerEst_hostIn (raw : List Word) : (powerEst raw s).hostIn = s.hostIn := rfl
@[simp] theorem powerEst_respOut (raw : List Word) : (powerEst raw s).respOut = s.respOut := rfl

/-! ### symWriteAll -/

/-- Writing symbols changes the symbol store alone. -/
theorem symWriteAll_eq (n : Word) (vs : List Word) :
    symWriteAll n vs s = { s with sym := (symWriteAll n vs s).sym } := by
  induction vs generalizing n s with
  | nil => rfl
  | cons v vs ih =>
    have h := ih (symWrite n v s) (n + 1)
    rw [symWriteAll, h]
    rfl

@[simp] theorem symWriteAll_params (n : Word) (vs : List Word) : (symWriteAll n vs s).params = s.params := by
  rw [symWriteAll_eq]
@[simp] theorem symWriteAll_configured (n : Word) (vs : List Word) : (symWriteAll n vs s).configured = s.configured := by
  rw [symWriteAll_eq]
@[simp] theorem symWriteAll_channel (n : Word) (vs : List Word) : (symWriteAll n vs s).channel = s.channel := by
  rw [symWriteAll_eq]
@[simp] theorem symWriteAll_pstate (n : Word) (vs : List Word) : (symWriteAll n vs s).pstate = s.pstate := by
  rw [symWriteAll_eq]
@[simp] theorem symWriteAll_w (n : Word) (vs : List Word) : (symWriteAll n vs s).w = s.w := by
  rw [symWriteAll_eq]
@[simp] theorem symWriteAll_cursor (n : Word) (vs : List Word) : (symWriteAll n vs s).cursor = s.cursor := by
  rw [symWriteAll_eq]
@[simp] theorem symWriteAll_corr (n : Word) (vs : List Word) : (symWriteAll n vs s).corr = s.corr := by
  rw [symWriteAll_eq]
@[simp] theorem symWriteAll_syncCapture (n : Word) (vs : List Word) : (symWriteAll n vs s).syncCapture = s.syncCapture := by
  rw [symWriteAll_eq]
@[simp] theorem symWriteAll_hitPos (n : Word) (vs : List Word) : (symWriteAll n vs s).hitPos = s.hitPos := by
  rw [symWriteAll_eq]
@[simp] theorem symWriteAll_pend (n : Word) (vs : List Word) : (symWriteAll n vs s).pend = s.pend := by
  rw [symWriteAll_eq]
@[simp] theorem symWriteAll_maxsq (n : Word) (vs : List Word) : (symWriteAll n vs s).maxsq = s.maxsq := by
  rw [symWriteAll_eq]
@[simp] theorem symWriteAll_dbLevel (n : Word) (vs : List Word) : (symWriteAll n vs s).dbLevel = s.dbLevel := by
  rw [symWriteAll_eq]
@[simp] theorem symWriteAll_fhist (n : Word) (vs : List Word) : (symWriteAll n vs s).fhist = s.fhist := by
  rw [symWriteAll_eq]
@[simp] theorem symWriteAll_q (n : Word) (vs : List Word) : (symWriteAll n vs s).q = s.q := by
  rw [symWriteAll_eq]
@[simp] theorem symWriteAll_qhead (n : Word) (vs : List Word) : (symWriteAll n vs s).qhead = s.qhead := by
  rw [symWriteAll_eq]
@[simp] theorem symWriteAll_qcount (n : Word) (vs : List Word) : (symWriteAll n vs s).qcount = s.qcount := by
  rw [symWriteAll_eq]
@[simp] theorem symWriteAll_pktCount (n : Word) (vs : List Word) : (symWriteAll n vs s).pktCount = s.pktCount := by
  rw [symWriteAll_eq]
@[simp] theorem symWriteAll_dropCount (n : Word) (vs : List Word) : (symWriteAll n vs s).dropCount = s.dropCount := by
  rw [symWriteAll_eq]
@[simp] theorem symWriteAll_bufCount (n : Word) (vs : List Word) : (symWriteAll n vs s).bufCount = s.bufCount := by
  rw [symWriteAll_eq]
@[simp] theorem symWriteAll_syncCount (n : Word) (vs : List Word) : (symWriteAll n vs s).syncCount = s.syncCount := by
  rw [symWriteAll_eq]
@[simp] theorem symWriteAll_cmdErr (n : Word) (vs : List Word) : (symWriteAll n vs s).cmdErr = s.cmdErr := by
  rw [symWriteAll_eq]
@[simp] theorem symWriteAll_qOvf (n : Word) (vs : List Word) : (symWriteAll n vs s).qOvf = s.qOvf := by
  rw [symWriteAll_eq]
@[simp] theorem symWriteAll_hostIn (n : Word) (vs : List Word) : (symWriteAll n vs s).hostIn = s.hostIn := by
  rw [symWriteAll_eq]
@[simp] theorem symWriteAll_respOut (n : Word) (vs : List Word) : (symWriteAll n vs s).respOut = s.respOut := by
  rw [symWriteAll_eq]

/-! ### enqueue -/

@[simp] theorem enqueue_params (r : Record) : (enqueue r s).params = s.params := by
  unfold enqueue; split <;> rfl
@[simp] theorem enqueue_configured (r : Record) : (enqueue r s).configured = s.configured := by
  unfold enqueue; split <;> rfl
@[simp] theorem enqueue_channel (r : Record) : (enqueue r s).channel = s.channel := by
  unfold enqueue; split <;> rfl
@[simp] theorem enqueue_pstate (r : Record) : (enqueue r s).pstate = s.pstate := by
  unfold enqueue; split <;> rfl
@[simp] theorem enqueue_w (r : Record) : (enqueue r s).w = s.w := by
  unfold enqueue; split <;> rfl
@[simp] theorem enqueue_sym (r : Record) : (enqueue r s).sym = s.sym := by
  unfold enqueue; split <;> rfl
@[simp] theorem enqueue_cursor (r : Record) : (enqueue r s).cursor = s.cursor := by
  unfold enqueue; split <;> rfl
@[simp] theorem enqueue_corr (r : Record) : (enqueue r s).corr = s.corr := by
  unfold enqueue; split <;> rfl
@[simp] theorem enqueue_syncCapture (r : Record) : (enqueue r s).syncCapture = s.syncCapture := by
  unfold enqueue; split <;> rfl
@[simp] theorem enqueue_hitPos (r : Record) : (enqueue r s).hitPos = s.hitPos := by
  unfold enqueue; split <;> rfl
@[simp] theorem enqueue_pend (r : Record) : (enqueue r s).pend = s.pend := by
  unfold enqueue; split <;> rfl
@[simp] theorem enqueue_maxsq (r : Record) : (enqueue r s).maxsq = s.maxsq := by
  unfold enqueue; split <;> rfl
@[simp] theorem enqueue_dbLevel (r : Record) : (enqueue r s).dbLevel = s.dbLevel := by
  unfold enqueue; split <;> rfl
@[simp] theorem enqueue_fhist (r : Record) : (enqueue r s).fhist = s.fhist := by
  unfold enqueue; split <;> rfl
@[simp] theorem enqueue_qhead (r : Record) : (enqueue r s).qhead = s.qhead := by
  unfold enqueue; split <;> rfl
@[simp] theorem enqueue_pktCount (r : Record) : (enqueue r s).pktCount = s.pktCount := by
  unfold enqueue; split <;> rfl
@[simp] theorem enqueue_bufCount (r : Record) : (enqueue r s).bufCount = s.bufCount := by
  unfold enqueue; split <;> rfl
@[simp] theorem enqueue_syncCount (r : Record) : (enqueue r s).syncCount = s.syncCount := by
  unfold enqueue; split <;> rfl
@[simp] theorem enqueue_cmdErr (r : Record) : (enqueue r s).cmdErr = s.cmdErr := by
  unfold enqueue; split <;> rfl
@[simp] theorem enqueue_hostIn (r : Record) : (enqueue r s).hostIn = s.hostIn := by
  unfold enqueue; split <;> rfl
@[simp] theorem enqueue_respOut (r : Record) : (enqueue r s).respOut = s.respOut := by
  unfold enqueue; split <;> rfl

/-! ### ingest -/

@[simp] theorem ingest_params (raw : List Word) : (ingest raw s).params = s.params := by
  simp [ingest]
@[simp] theorem ingest_configured (raw : List Word) : (ingest raw s).configured = s.configured := by
  simp [ingest]
@[simp] theorem ingest_channel (raw : List Word) : (ingest raw s).channel = s.channel := by
  simp [ingest]
@[simp] theorem ingest_pstate (raw : List Word) : (ingest raw s).pstate = s.pstate := by
  simp [ingest]
@[simp] theorem ingest_cursor (raw : List Word) : (ingest raw s).cursor = s.cursor := by
  simp [ingest]
@[simp] theorem ingest_corr (raw : List Word) : (ingest raw s).corr = s.corr := by
  simp [ingest]
@[simp] theorem ingest_syncCapture (raw : List Word) : (ingest raw s).syncCapture = s.syncCapture := by
  simp [ingest]
@[simp] theorem ingest_hitPos (raw : List Word) : (ingest raw s).hitPos = s.hitPos := by
  simp [ingest]
@[simp] theorem ingest_pend (raw : List Word) : (ingest raw s).pend = s.pend := by
  simp [ingest]
@[simp] theorem ingest_q (raw : List Word) : (ingest raw s).q = s.q := by
  simp [ingest]
@[simp] theorem ingest_qhead (raw : List Word) : (ingest raw s).qhead = s.qhead := by
  simp [ingest]
@[simp] theorem ingest_qcount (raw : List Word) : (ingest raw s).qcount = s.qcount := by
  simp [ingest]
@[simp] theorem ingest_pktCount (raw : List Word) : (ingest raw s).pktCount = s.pktCount := by
  simp [ingest]
@[simp] theorem ingest_dropCount (raw : List Word) : (ingest raw s).dropCount = s.dropCount := by
  simp [ingest]
@[simp] theorem ingest_syncCount (raw : List Word) : (ingest raw s).syncCount = s.syncCount := by
  simp [ingest]
@[simp] theorem ingest_cmdErr (raw : List Word) : (ingest raw s).cmdErr = s.cmdErr := by
  simp [ingest]
@[simp] theorem ingest_qOvf (raw : List Word) : (ingest raw s).qOvf = s.qOvf := by
  simp [ingest]
@[simp] theorem ingest_hostIn (raw : List Word) : (ingest raw s).hostIn = s.hostIn := by
  simp [ingest]
@[simp] theorem ingest_respOut (raw : List Word) : (ingest raw s).respOut = s.respOut := by
  simp [ingest]
@[simp] theorem ingest_w (raw : List Word) :
    (ingest raw s).w = s.w + BitVec.ofNat 32 s.params.symbolsPerBuffer := by
  simp [ingest]
@[simp] theorem ingest_bufCount (raw : List Word) : (ingest raw s).bufCount = s.bufCount + 1 := by
  simp [ingest]
@[simp] theorem ingest_fhist (raw : List Word) : (ingest raw s).fhist = nextHistory s.params raw s.fhist := by
  simp [ingest]
@[simp] theorem ingest_maxsq (raw : List Word) : (ingest raw s).maxsq = BitVec.ofNat 32 (peakFrom 0 raw) := by
  simp [ingest]
@[simp] theorem ingest_dbLevel (raw : List Word) :
    (ingest raw s).dbLevel = BitVec.ofInt 8 (mag2db (peakFrom 0 raw)) := by
  simp [ingest]

/-! ### headerDone -/

@[simp] theorem headerDone_params : (headerDone s).params = s.params := rfl
@[simp] theorem headerDone_configured : (headerDone s).configured = s.configured := rfl
@[simp] theorem headerDone_channel : (headerDone s).channel = s.channel := rfl
@[simp] theorem headerDone_pstate : (headerDone s).pstate = .payload := rfl
@[simp] theorem headerDone_w : (headerDone s).w = s.w := rfl
@[simp] theorem headerDone_sym : (headerDone s).sym = s.sym := rfl
@[simp] theorem headerDone_cursor : (headerDone s).cursor = s.cursor + BitVec.ofNat 32 (8 * hdrBytes) := rfl
@[simp] theorem headerDone_corr : (headerDone s).corr = s.corr := rfl
@[simp] theorem headerDone_syncCapture : (headerDone s).syncCapture = s.syncCapture := rfl
@[simp] theorem headerDone_hitPos : (headerDone s).hitPos = s.hitPos := rfl
@[simp] theorem headerDone_maxsq : (headerDone s).maxsq = s.maxsq := rfl
@[simp] theorem headerDone_dbLevel : (headerDone s).dbLevel = s.dbLevel := rfl
@[simp] theorem headerDone_fhist : (headerDone s).fhist = s.fhist := rfl
@[simp] theorem headerDone_q : (headerDone s).q = s.q := rfl
@[simp] theorem headerDone_qhead : (headerDone s).qhead = s.qhead := rfl
@[simp] theorem headerDone_qcount : (headerDone s).qcount = s.qcount := rfl
@[simp] theorem headerDone_pktCount : (headerDone s).pktCount = s.pktCount := rfl
@[simp] theorem headerDone_dropCount : (headerDone s).dropCount = s.dropCount := rfl
@[simp] theorem headerDone_bufCount : (headerDone s).bufCount = s.bufCount := rfl
@[simp] theorem headerDone_syncCount : (headerDone s).syncCount = s.syncCount := rfl
@[simp] theorem headerDone_cmdErr : (headerDone s).cmdErr = s.cmdErr := rfl
@[simp] theorem headerDone_qOvf : (headerDone s).qOvf = s.qOvf := rfl
@[simp] theorem headerDone_hostIn : (headerDone s).hostIn = s.hostIn := rfl
@[simp] theorem headerDone_respOut : (headerDone s).respOut = s.respOut := rfl

/-! ### payloadDone -/

@[simp] theorem payloadDone_params : (payloadDone s).params = s.params := by
  simp [payloadDone]
@[simp] theorem payloadDone_configured : (payloadDone s).configured = s.configured := by
  simp [payloadDone]
@[simp] theorem payloadDone_channel : (payloadDone s).channel = s.channel := by
  simp [payloadDone]
@[simp] theorem payloadDone_pstate : (payloadDone s).pstate = .begin := by
  simp [payloadDone]
@[simp] theorem payloadDone_w : (payloadDone s).w = s.w := by
  simp [payloadDone]
@[simp] theorem payloadDone_sym : (payloadDone s).sym = s.sym := by
  simp [payloadDone]
@[simp] theorem payloadDone_cursor : (payloadDone s).cursor = s.cursor + BitVec.ofNat 32 (8 * s.pend.plen.toNat) := by
  simp [payloadDone]
@[simp] theorem payloadDone_corr : (payloadDone s).corr = Correlator.clear := by
  simp [payloadDone]
@[simp] theorem payloadDone_syncCapture : (payloadDone s).syncCapture = s.syncCapture := by
  simp [payloadDone]
@[simp] theorem payloadDone_hitPos : (payloadDone s).hitPos = s.hitPos := by
  simp [payloadDone]
@[simp] theorem payloadDone_pend : (payloadDone s).pend = Pending.clear := by
  simp [payloadDone]
@[simp] theorem payloadDone_maxsq : (payloadDone s).maxsq = s.maxsq := by
  simp [payloadDone]
@[simp] theorem payloadDone_dbLevel : (payloadDone s).dbLevel = s.dbLevel := by
  simp [payloadDone]
@[simp] theorem payloadDone_fhist : (payloadDone s).fhist = s.fhist := by
  simp [payloadDone]
@[simp] theorem payloadDone_q :
    (payloadDone s).q = (enqueue (assemble (payloadRead s)) (payloadRead s)).q := rfl
@[simp] theorem payloadDone_qhead : (payloadDone s).qhead = s.qhead := by
  simp [payloadDone]
@[simp] theorem payloadDone_qcount :
    (payloadDone s).qcount = (enqueue (assemble (payloadRead s)) (payloadRead s)).qcount := rfl
@[simp] theorem payloadDone_pktCount : (payloadDone s).pktCount = s.pktCount + 1 := by
  simp [payloadDone]
@[simp] theorem payloadDone_dropCount :
    (payloadDone s).dropCount = (enqueue (assemble (payloadRead s)) (payloadRead s)).dropCount := rfl
@[simp] theorem payloadDone_bufCount : (payloadDone s).bufCount = s.bufCount := by
  simp [payloadDone]
@[simp] theorem payloadDone_syncCount : (payloadDone s).syncCount = s.syncCount := by
  simp [payloadDone]
@[simp] theorem payloadDone_cmdErr : (payloadDone s).cmdErr = s.cmdErr := by
  simp [payloadDone]
@[simp] theorem payloadDone_qOvf :
    (payloadDone s).qOvf = (enqueue (assemble (payloadRead s)) (payloadRead s)).qOvf := rfl
@[simp] theorem payloadDone_hostIn : (payloadDone s).hostIn = s.hostIn := by
  simp [payloadDone]
@[simp] theorem payloadDone_respOut : (payloadDone s).respOut = s.respOut := by
  simp [payloadDone]

/-! ### corrNext -/

@[simp] theorem corrNext_params (bit : Bool) : (corrNext s bit).params = s.params := by
  unfold corrNext; dsimp only; split <;> rfl
@[simp] theorem corrNext_configured (bit : Bool) : (corrNext s bit).configured = s.configured := by
  unfold corrNext; dsimp only; split <;> rfl
@[simp] theorem corrNext_channel (bit : Bool) : (corrNext s bit).channel = s.channel := by
  unfold corrNext; dsimp only; split <;> rfl
@[simp] theorem corrNext_w (bit : Bool) : (corrNext s bit).w = s.w := by
  unfold corrNext; dsimp only; split <;> rfl
@[simp] theorem corrNext_sym (bit : Bool) : (corrNext s bit).sym = s.sym := by
  unfold corrNext; dsimp only; split <;> rfl
@[simp] theorem corrNext_cursor (bit : Bool) : (corrNext s bit).cursor = s.cursor + 1 := by
  unfold corrNext; dsimp only; split <;> rfl
@[simp] theorem corrNext_corr (bit : Bool) : (corrNext s bit).corr = pushBit s.params.syncWord bit s.corr := by
  unfold corrNext; dsimp only; split <;> rfl
@[simp] theorem corrNext_pend (bit : Bool) : (corrNext s bit).pend = s.pend := by
  unfold corrNext; dsimp only; split <;> rfl
@[simp] theorem corrNext_maxsq (bit : Bool) : (corrNext s bit).maxsq = s.maxsq := by
  unfold corrNext; dsimp only; split <;> rfl
@[simp] theorem corrNext_dbLevel (bit : Bool) : (corrNext s bit).dbLevel = s.dbLevel := by
  unfold corrNext; dsimp only; split <;> rfl
@[simp] theorem corrNext_fhist (bit : Bool) : (corrNext s bit).fhist = s.fhist := by
  unfold corrNext; dsimp only; split <;> rfl
@[simp] theorem corrNext_q (bit : Bool) : (corrNext s bit).q = s.q := by
  unfold corrNext; dsimp only; split <;> rfl
@[simp] theorem corrNext_qhead (bit : Bool) : (corrNext s bit).qhead = s.qhead := by
  unfold corrNext; dsimp only; split <;> rfl
@[simp] theorem corrNext_qcount (bit : Bool) : (corrNext s bit).qcount = s.qcount := by
  unfold corrNext; dsimp only; split <;> rfl
@[simp] theorem corrNext_pktCount (bit : Bool) : (corrNext s bit).pktCount = s.pktCount := by
  unfold corrNext; dsimp only; split <;> rfl
@[simp] theorem corrNext_dropCount (bit : Bool) : (corrNext s bit).dropCount = s.dropCount := by
  unfold corrNext; dsimp only; split <;> rfl
@[simp] theorem corrNext_bufCount (bit : Bool) : (corrNext s bit).bufCount = s.bufCount := by
  unfold corrNext; dsimp only; split <;> rfl
@[simp] theorem corrNext_cmdErr (bit : Bool) : (corrNext s bit).cmdErr = s.cmdErr := by
  unfold corrNext; dsimp only; split <;> rfl
@[simp] theorem corrNext_qOvf (bit : Bool) : (corrNext s bit).qOvf = s.qOvf := by
  unfold corrNext; dsimp only; split <;> rfl
@[simp] theorem corrNext_hostIn (bit : Bool) : (corrNext s bit).hostIn = s.hostIn := by
  unfold corrNext; dsimp only; split <;> rfl
@[simp] theorem corrNext_respOut (bit : Bool) : (corrNext s bit).respOut = s.respOut := by
  unfold corrNext; dsimp only; split <;> rfl
theorem corrNext_syncCapture (bit : Bool) :
    (corrNext s bit).syncCapture = if isHit (pushBit s.params.syncWord bit s.corr) then (pushBit s.params.syncWord bit s.corr).matchReg else s.syncCapture := by
  unfold corrNext; dsimp only; split <;> rfl
theorem corrNext_hitPos (bit : Bool) :
    (corrNext s bit).hitPos = if isHit (pushBit s.params.syncWord bit s.corr) then s.cursor - 31 else s.hitPos := by
  unfold corrNext; dsimp only; split <;> rfl
theorem corrNext_syncCount (bit : Bool) :
    (corrNext s bit).syncCount = if isHit (pushBit s.params.syncWord bit s.corr) then s.syncCount + 1 else s.syncCount := by
  unfold corrNext; dsimp only; split <;> rfl
theorem corrNext_pstate (bit : Bool) :
    (corrNext s bit).pstate = if isHit (pushBit s.params.syncWord bit s.corr) then .header else s.pstate := by
  unfold corrNext; dsimp only; split <;> rfl

/-! ### assertReset -/

@[simp] theorem assertReset_params (rest : List HostEvent) : (assertReset rest s).params = s.params := rfl
@[simp] theorem assertReset_configured (rest : List HostEvent) : (assertReset rest s).configured = (State.resetWith s.params).configured := rfl
@[simp] theorem assertReset_channel (rest : List HostEvent) : (assertReset rest s).channel = (State.resetWith s.params).channel := rfl
@[simp] theorem assertReset_pstate (rest : List HostEvent) : (assertReset rest s).pstate = (State.resetWith s.params).pstate := rfl
@[simp] theorem assertReset_w (rest : List HostEvent) : (assertReset rest s).w = (State.resetWith s.params).w := rfl
@[simp] theorem assertReset_sym (rest : List HostEvent) : (assertReset rest s).sym = (State.resetWith s.params).sym := rfl
@[simp] theorem assertReset_cursor (rest : List HostEvent) : (assertReset rest s).cursor = (State.resetWith s.params).cursor := rfl
@[simp] theorem assertReset_corr (rest : List HostEvent) : (assertReset rest s).corr = (State.resetWith s.params).corr := rfl
@[simp] theorem assertReset_syncCapture (rest : List HostEvent) : (assertReset rest s).syncCapture = (State.resetWith s.params).syncCapture := rfl
@[simp] theorem assertReset_hitPos (rest : List HostEvent) : (assertReset rest s).hitPos = (State.resetWith s.params).hitPos := rfl
@[simp] theorem assertReset_pend (rest : List HostEvent) : (assertReset rest s).pend = (State.resetWith s.params).pend := rfl
@[simp] theorem assertReset_maxsq (rest : List HostEvent) : (assertReset rest s).maxsq = (State.resetWith s.params).maxsq := rfl
@[simp] theorem assertReset_dbLevel (rest : List HostEvent) : (assertReset rest s).dbLevel = (State.resetWith s.params).dbLevel := rfl
@[simp] theorem assertReset_fhist (rest : List HostEvent) : (assertReset rest s).fhist = (State.resetWith s.params).fhist := rfl
@[simp] theorem assertReset_q (rest : List HostEvent) : (assertReset rest s).q = (State.resetWith s.params).q := rfl
@[simp] theorem assertReset_qhead (rest : List HostEvent) : (assertReset rest s).qhead = (State.resetWith s.params).qhead := rfl
@[simp] theorem assertReset_qcount (rest : List HostEvent) : (assertReset rest s).qcount = (State.resetWith s.params).qcount := rfl
@[simp] theorem assertReset_pktCount (rest : List HostEvent) : (assertReset rest s).pktCount = (State.resetWith s.params).pktCount := rfl
@[simp] theorem assertReset_dropCount (rest : List HostEvent) : (assertReset rest s).dropCount = (State.resetWith s.params).dropCount := rfl
@[simp] theorem assertReset_bufCount (rest : List HostEvent) : (assertReset rest s).bufCount = (State.resetWith s.params).bufCount := rfl
@[simp] theorem assertReset_syncCount (rest : List HostEvent) : (assertReset rest s).syncCount = (State.resetWith s.params).syncCount := rfl
@[simp] theorem assertReset_cmdErr (rest : List HostEvent) : (assertReset rest s).cmdErr = (State.resetWith s.params).cmdErr := rfl
@[simp] theorem assertReset_qOvf (rest : List HostEvent) : (assertReset rest s).qOvf = (State.resetWith s.params).qOvf := rfl
@[simp] theorem assertReset_hostIn (rest : List HostEvent) : (assertReset rest s).hostIn = rest := rfl
@[simp] theorem assertReset_respOut (rest : List HostEvent) : (assertReset rest s).respOut = s.respOut := rfl

/-! ### resetWith -/

@[simp] theorem resetWith_params (p : Params) : (State.resetWith p).params = p := rfl
@[simp] theorem resetWith_configured (p : Params) : (State.resetWith p).configured = false := rfl
@[simp] theorem resetWith_channel (p : Params) : (State.resetWith p).channel = 0 := rfl
@[simp] theorem resetWith_pstate (p : Params) : (State.resetWith p).pstate = .begin := rfl
@[simp] theorem resetWith_w (p : Params) : (State.resetWith p).w = 0 := rfl
@[simp] theorem resetWith_sym (p : Params) : (State.resetWith p).sym = [] := rfl
@[simp] theorem resetWith_cursor (p : Params) : (State.resetWith p).cursor = 0 := rfl
@[simp] theorem resetWith_corr (p : Params) : (State.resetWith p).corr = Correlator.clear := rfl
@[simp] theorem resetWith_syncCapture (p : Params) : (State.resetWith p).syncCapture = 0 := rfl
@[simp] theorem resetWith_hitPos (p : Params) : (State.resetWith p).hitPos = 0 := rfl
@[simp] theorem resetWith_pend (p : Params) : (State.resetWith p).pend = Pending.clear := rfl
@[simp] theorem resetWith_maxsq (p : Params) : (State.resetWith p).maxsq = 0 := rfl
@[simp] theorem resetWith_dbLevel (p : Params) : (State.resetWith p).dbLevel = 0x80 := rfl
@[simp] theorem resetWith_fhist (p : Params) : (State.resetWith p).fhist = List.replicate (p.ntaps - 1) 0 := rfl
@[simp] theorem resetWith_q (p : Params) : (State.resetWith p).q = Vector.replicate 8 Record.blank := rfl
@[simp] theorem resetWith_qhead (p : Params) : (State.resetWith p).qhead = 0 := rfl
@[simp] theorem resetWith_qcount (p : Params) : (State.resetWith p).qcount = 0 := rfl
@[simp] theorem resetWith_pktCount (p : Params) : (State.resetWith p).pktCount = 0 := rfl
@[simp] theorem resetWith_dropCount (p : Params) : (State.resetWith p).dropCount = 0 := rfl
@[simp] theorem resetWith_bufCount (p : Params) : (State.resetWith p).bufCount = 0 := rfl
@[simp] theorem resetWith_syncCount (p : Params) : (State.resetWith p).syncCount = 0 := rfl
@[simp] theorem resetWith_cmdErr (p : Params) : (State.resetWith p).cmdErr = false := rfl
@[simp] theorem resetWith_qOvf (p : Params) : (State.resetWith p).qOvf = false := rfl
@[simp] theorem resetWith_hostIn (p : Params) : (State.resetWith p).hostIn = [] := rfl
@[simp] theorem resetWith_respOut (p : Params) : (State.resetWith p).respOut = [] := rfl

end Sys2Proof.Machine
end

