-- ==== Sys2Proof/Laws/Data.lean ====
section
/-! SUPPORT. Sys2Proof/Laws/Data.lean: the data path: the components of a sample word, saturation, the ring of the symbol store,
and the lengths the Decimator keeps. -/

namespace Sys2Proof.Machine

/-! ### Samples -/

theorem sampleI_range (v : Word) : -32768 ≤ sampleI v ∧ sampleI v ≤ 32767 := by
  have h1 := BitVec.le_toInt (v.extractLsb' 0 16)
  have h2 := BitVec.toInt_lt (x := v.extractLsb' 0 16)
  unfold sampleI
  omega

theorem sampleQ_range (v : Word) : -32768 ≤ sampleQ v ∧ sampleQ v ≤ 32767 := by
  have h1 := BitVec.le_toInt (v.extractLsb' 16 16)
  have h2 := BitVec.toInt_lt (x := v.extractLsb' 16 16)
  unfold sampleQ
  omega

theorem sat16_range (v : Int) : -32768 ≤ sat16 v ∧ sat16 v ≤ 32767 := by
  unfold sat16
  split
  · omega
  · split <;> omega

theorem sat16_of_range {v : Int} (h1 : -32768 ≤ v) (h2 : v ≤ 32767) : sat16 v = v := by
  unfold sat16
  rw [if_neg (by omega), if_neg (by omega)]

/-- A sample word put together from its own components is itself. -/
theorem sampleWord_self (v : Word) : sampleWord (sampleI v) (sampleQ v) = v := by
  unfold sampleWord sampleI sampleQ
  rw [BitVec.ofInt_toInt, BitVec.ofInt_toInt]
  ext j hj
  rw [BitVec.getElem_append]
  split
  · simp [BitVec.getLsbD_eq_getElem hj]
  · simp only [BitVec.getElem_extractLsb']
    rw [show 16 + (j - 16) = j by omega, BitVec.getLsbD_eq_getElem hj]

/-- Bits [15:0] of a sample word made from two components. -/
theorem sampleWord_low (i q : Int) : (sampleWord i q).extractLsb' 0 16 = BitVec.ofInt 16 i := by
  unfold sampleWord
  rw [extract_append_low _ _ (by omega), extract_whole]

/-- Bits [31:16] of a sample word made from two components. -/
theorem sampleWord_high (i q : Int) : (sampleWord i q).extractLsb' 16 16 = BitVec.ofInt 16 q := by
  unfold sampleWord
  rw [extract_append_high (k := 0) _ _ (by omega), extract_whole]

/-- A value sat16 lets through is kept by 16 bits. -/
theorem ofInt_sat16_toInt (v : Int) : (BitVec.ofInt 16 (sat16 v)).toInt = sat16 v := by
  have := sat16_range v
  rw [BitVec.toInt_ofInt]
  exact Int.bmod_eq_of_le (by omega) (by omega)

/-- The sum of the taps from index `k` on, as a sum over the tap table. -/
theorem tapSum_eq_sum (x : Nat → Word) (comp : Word → Int) (ts : List Int) (k : Nat) :
    tapSum x comp ts k = ∑ i ∈ Finset.range ts.length, ts.getD i 0 * comp (x (k + i)) := by
  induction ts generalizing k with
  | nil => rfl
  | cons t ts ih =>
    rw [tapSum, ih, List.length_cons, Finset.sum_range_succ', Int.add_comm]
    simp [Nat.add_comm, Nat.add_left_comm]

/-! ### The ring of the symbol store -/

theorem symEntry_lt (n : Word) : symEntry n < symCap := Nat.mod_lt _ (by simp)

/-- Two positions less than SYM_CAP apart have different entries. -/
theorem symEntry_add_inj {n : Word} {i j : Nat} (hi : i < symCap) (hj : j < symCap)
    (h : symEntry (n + BitVec.ofNat 32 i) = symEntry (n + BitVec.ofNat 32 j)) : i = j := by
  simp only [symEntry, symCap, BitVec.toNat_add, BitVec.toNat_ofNat] at h hi hj
  omega

theorem symWriteAll_wf {vs : List Word} {n : Word} {s : State} (h : s.sym.wf symCap = true) :
    (symWriteAll n vs s).sym.wf symCap = true := by
  induction vs generalizing n s with
  | nil => exact h
  | cons v vs ih => exact ih (Memory.write_keeps_wf h (symEntry_lt n))

theorem add_ofNat_succ (n : Word) (j : Nat) : n + 1 + BitVec.ofNat 32 j = n + BitVec.ofNat 32 (j + 1) := by
  apply BitVec.eq_of_toNat_eq
  simp only [BitVec.toNat_add, BitVec.toNat_ofNat, BitVec.ofNat_eq_ofNat]
  omega

/-- An entry that none of the written positions has keeps its symbol. -/
theorem symWriteAll_read_other {vs : List Word} {n : Word} {s : State} {a : Nat} (h : s.sym.wf symCap = true)
    (ha : ∀ j, j < vs.length → symEntry (n + BitVec.ofNat 32 j) ≠ a) :
    (symWriteAll n vs s).sym.read a = s.sym.read a := by
  induction vs generalizing n s with
  | nil => rfl
  | cons v vs ih =>
    have h0 : a ≠ symEntry n := by
      have := ha 0 (by simp)
      simpa using this.symm
    rw [symWriteAll, ih (s := symWrite n v s) (Memory.write_keeps_wf h (symEntry_lt n)), symWrite_sym,
      Memory.read_write h, if_neg h0]
    intro j hj
    rw [add_ofNat_succ]
    exact ha (j + 1) (by simpa using hj)

/-- Every written position holds its symbol, if no more than SYM_CAP were written. -/
theorem symWriteAll_read {vs : List Word} {n : Word} {s : State} {j : Nat} (h : s.sym.wf symCap = true)
    (hl : vs.length ≤ symCap) (hj : j < vs.length) :
    (symWriteAll n vs s).sym.read (symEntry (n + BitVec.ofNat 32 j)) = vs.getD j 0 := by
  induction vs generalizing n s j with
  | nil => simp at hj
  | cons v vs ih =>
    have hw : (symWrite n v s).sym.wf symCap = true := Memory.write_keeps_wf h (symEntry_lt n)
    simp only [List.length_cons] at hl hj
    cases j with
    | zero =>
      rw [symWriteAll, symWriteAll_read_other hw, symWrite_sym, Memory.read_write h]
      · simp
      · intro k hk heq
        rw [add_ofNat_succ] at heq
        have := symEntry_add_inj (n := n) (by omega) (by omega) heq
        omega
    | succ i =>
      rw [symWriteAll, ← add_ofNat_succ, ih hw (by omega) (by omega)]
      rfl

/-! ### The Decimator -/

@[simp] theorem decimOuts_length (p : Params) (raw fhist : List Word) :
    (decimOuts p raw fhist).length = p.symbolsPerBuffer := by
  simp [decimOuts]

@[simp] theorem nextHistory_length (p : Params) (raw fhist : List Word) :
    (nextHistory p raw fhist).length = p.ntaps - 1 := by
  simp [nextHistory]

theorem decimOuts_getD (p : Params) (raw fhist : List Word) {j : Nat} (h : j < p.symbolsPerBuffer) :
    (decimOuts p raw fhist).getD j 0 = decimOut p raw fhist j := by
  simp [decimOuts, h]

/-- The symbol store after the stages before the parse. -/
theorem ingest_sym (raw : List Word) (s : State) :
    (ingest raw s).sym = (symWriteAll s.w (decimOuts s.params raw s.fhist) s).sym := by
  have h : ∀ (vs : List Word) (n : Word) (s t : State), s.sym = t.sym →
      (symWriteAll n vs s).sym = (symWriteAll n vs t).sym := by
    intro vs
    induction vs with
    | nil => exact fun _ _ _ h => h
    | cons v vs ih => exact fun n s t h => ih _ _ _ (by simp [h])
  exact h _ _ _ _ rfl

end Sys2Proof.Machine
end

