-- ==== Sys2Proof/Laws/Fetch.lean ====
section
/-! SUPPORT. Sys2Proof/Laws/Fetch.lean: what the decoder, the fetch and the step can answer, said once. -/

namespace Sys2Proof

theorem atLeast_iff {α : Type} {n : Nat} {l : List α} : atLeast n l = true ↔ n ≤ l.length := by
  induction n generalizing l with
  | zero => simp [atLeast]
  | succ n ih =>
    cases l with
    | nil => simp [atLeast]
    | cons a l => simp [atLeast, ih]

/-- Everything the decoder can answer on a header word: one of the five commands, by opcode, or a rejection by name. -/
theorem decode_cons_cases (p : Params) (hdr : Word) (rest : List Word) :
    (opcodeOf hdr = 0x01 ∧ decode p (hdr :: rest) =
      .ok (.configure (hdr.extractLsb' 9 15) (hdr.getLsbD 8) (hdr.extractLsb' 0 8), rest)) ∨
    (opcodeOf hdr = 0x02 ∧ p.rawCount ≤ rest.length ∧ decode p (hdr :: rest) =
      .ok (.processBuffer (hdr.extractLsb' 0 24) (rest.take p.rawCount), rest.drop p.rawCount)) ∨
    (opcodeOf hdr = 0x02 ∧ rest.length < p.rawCount ∧ decode p (hdr :: rest) = .error .truncated) ∨
    (opcodeOf hdr = 0x03 ∧ decode p (hdr :: rest) = .ok (.readPacket (hdr.extractLsb' 0 24), rest)) ∨
    (opcodeOf hdr = 0x04 ∧ decode p (hdr :: rest) =
      .ok (.readReg (hdr.extractLsb' 8 16) (hdr.extractLsb' 0 8), rest)) ∨
    (opcodeOf hdr = 0x05 ∧ decode p (hdr :: rest) =
      .ok (.clearStatus (hdr.extractLsb' 2 22) (hdr.extractLsb' 0 2), rest)) ∨
    ((opcodeOf hdr ≠ 0x01 ∧ opcodeOf hdr ≠ 0x02 ∧ opcodeOf hdr ≠ 0x03 ∧ opcodeOf hdr ≠ 0x04 ∧ opcodeOf hdr ≠ 0x05) ∧
      decode p (hdr :: rest) = .error (.illegalOpcode (opcodeOf hdr))) := by
  by_cases h1 : opcodeOf hdr = 0x01
  · exact .inl ⟨h1, by simp [decode, h1]⟩
  by_cases h2 : opcodeOf hdr = 0x02
  · by_cases hl : p.rawCount ≤ rest.length
    · exact .inr (.inl ⟨h2, hl, by simp [decode, h2, atLeast_iff.2 hl]⟩)
    · have : atLeast p.rawCount rest = false := by
        rw [← Bool.not_eq_true, atLeast_iff]
        exact hl
      exact .inr (.inr (.inl ⟨h2, by omega, by simp [decode, h2, this]⟩))
  by_cases h3 : opcodeOf hdr = 0x03
  · exact .inr (.inr (.inr (.inl ⟨h3, by simp [decode, h3]⟩)))
  by_cases h4 : opcodeOf hdr = 0x04
  · exact .inr (.inr (.inr (.inr (.inl ⟨h4, by simp [decode, h4]⟩))))
  by_cases h5 : opcodeOf hdr = 0x05
  · exact .inr (.inr (.inr (.inr (.inr (.inl ⟨h5, by simp [decode, h5]⟩)))))
  · refine .inr (.inr (.inr (.inr (.inr (.inr ⟨⟨h1, h2, h3, h4, h5⟩, ?_⟩)))))
    simp only [decode, if_neg h1, if_neg h2, if_neg h3, if_neg h4, if_neg h5]

namespace Machine

@[simp] theorem toWord_comp_word : HostEvent.toWord ∘ HostEvent.word = id := rfl

/-- `scanWords n` is ready exactly when the first `n` events are words. -/
theorem scanWords_ready {n : Nat} {evs : List HostEvent} (h : scanWords n evs = .ready) :
    evs = ((evs.take n).map HostEvent.toWord).map HostEvent.word ++ evs.drop n ∧
      ((evs.take n).map HostEvent.toWord).length = n := by
  induction n generalizing evs with
  | zero => simp
  | succ n ih =>
    cases evs with
    | nil => cases h
    | cons e evs =>
      cases e with
      | reset => cases h
      | word v =>
        obtain ⟨h1, h2⟩ := ih (evs := evs) h
        refine ⟨?_, by simpa using h2⟩
        simp only [List.take_succ_cons, List.map_cons, HostEvent.toWord, List.drop_succ_cons, List.cons_append]
        rw [← h1]

theorem scanWords_of_words (ws : List Word) (rest : List HostEvent) :
    scanWords ws.length (ws.map HostEvent.word ++ rest) = .ready := by
  induction ws with
  | nil => rfl
  | cons w ws ih => exact ih

theorem scanWords_of_few {n : Nat} {ws : List Word} (h : ws.length < n) :
    scanWords n (ws.map HostEvent.word) = .waiting := by
  induction ws generalizing n with
  | nil =>
    cases n with
    | zero => simp at h
    | succ n => rfl
  | cons w ws ih =>
    cases n with
    | zero => simp at h
    | succ n => exact ih (by simpa using h)

theorem scanWords_of_reset {n : Nat} {ws : List Word} (h : ws.length < n) (rest : List HostEvent) :
    scanWords n (ws.map HostEvent.word ++ .reset :: rest) = .resetAt rest := by
  induction ws generalizing n with
  | nil =>
    cases n with
    | zero => simp at h
    | succ n => rfl
  | cons w ws ih =>
    cases n with
    | zero => simp at h
    | succ n => exact ih (by simpa using h)

/-- Everything a step can do when it answers a next state. -/
theorem step_cases {s t : State} (h : step s = .next t) :
    paramsInBounds s.params = true ∧
      ((fetch s.params s.hostIn = .idle ∧ t = s) ∨
        (∃ rest, fetch s.params s.hostIn = .resetAsserted rest ∧ t = assertReset rest s) ∨
        (∃ rest, fetch s.params s.hostIn = .illegal rest ∧ t = raiseCmdError .illegalOp { s with hostIn := rest }) ∨
        (∃ i rest, fetch s.params s.hostIn = .command i rest ∧ exec i { s with hostIn := rest } = .next t)) := by
  unfold step at h
  split at h
  · rename_i hp
    refine ⟨hp, ?_⟩
    split at h
    · rename_i hf
      injection h with h
      exact .inl ⟨hf, h.symm⟩
    · rename_i rest hf
      injection h with h
      exact .inr (.inl ⟨rest, hf, h.symm⟩)
    · rename_i rest hf
      injection h with h
      exact .inr (.inr (.inl ⟨rest, hf, h.symm⟩))
    · rename_i i rest hf
      exact .inr (.inr (.inr ⟨i, rest, hf, h⟩))
  · cases h

/-- A fetched command is shaped: a PROCESS_BUFFER carries RAW_COUNT samples. -/
theorem fetch_command_shaped {p : Params} {evs rest : List HostEvent} {i : Instr}
    (h : fetch p evs = .command i rest) : i.shaped p = true := by
  unfold fetch at h
  split at h
  · cases h
  · cases h
  · rename_i hdr more
    split at h
    · cases h
    · cases h
    · rename_i hs
      dsimp only at h
      have hlen := (scanWords_ready hs).2
      have hc := decode_cons_cases p hdr ((more.take (commandLength p hdr - 1)).map HostEvent.toWord)
      rcases hc with ⟨-, hd⟩ | ⟨ho, hl, hd⟩ | ⟨-, -, hd⟩ | ⟨-, hd⟩ | ⟨-, hd⟩ | ⟨-, hd⟩ | ⟨-, hd⟩ <;> rw [hd] at h
      · injection h with h
        subst h
        rfl
      · injection h with h
        subst h
        rw [Instr.shaped, List.length_take_of_le hl]
        simp
      · cases h
      · injection h with h
        subst h
        rfl
      · injection h with h
        subst h
        rfl
      · injection h with h
        subst h
        rfl
      · cases h

/-- Everything PROCESS_BUFFER can do when it answers a next state. -/
theorem execProcessBuffer_cases {z : BitVec 24} {raw : List Word} {s t : State}
    (h : execProcessBuffer z raw s = .next t) :
    (z ≠ 0 ∧ t = raiseCmdError .reservedBits s) ∨ (z = 0 ∧ s.configured = false ∧ t = s) ∨
      (z = 0 ∧ s.configured = true ∧ raw.length = s.params.rawCount ∧ parse (ingest raw s) = .ok t) := by
  unfold execProcessBuffer at h
  split at h
  · rename_i hz
    injection h with h
    exact .inl ⟨hz, h.symm⟩
  · rename_i hz
    have hz' : z = 0 := by simpa using hz
    split at h
    · rename_i hcfg
      injection h with h
      exact .inr (.inl ⟨hz', hcfg, h.symm⟩)
    · rename_i hcfg
      split at h
      · cases h
      · rename_i hl
        split at h
        · rename_i s1 hp
          injection h with h
          exact .inr (.inr ⟨hz', by simpa using hcfg, by simpa using hl, h ▸ hp⟩)
        · cases h

end Machine

end Sys2Proof
end

