-- ==== Sys2Proof/Laws/Parser.lean ====
section
/-! SUPPORT. Sys2Proof/Laws/Parser.lean: what the operations of the parse can do, said once for each: when a symbol read, a bit
and a byte are defined and what they are, what CORR_STEP, HEADER_STEP and PAYLOAD_STEP do when they go on, and the
induction over PARSE. -/

namespace Sys2Proof.Machine

/-! ### Sequencing -/

theorem except_bind_ok {ε α β : Type} {x : Except ε α} {f : α → Except ε β} {r : β} :
    (x >>= f) = .ok r ↔ ∃ a, x = .ok a ∧ f a = .ok r := by
  cases x with
  | error e => simp [bind, Except.bind]
  | ok a => simp [bind, Except.bind]

@[simp] theorem except_pure_ok {ε α : Type} {a b : α} :
    ((pure a : Except ε α) = .ok b) ↔ a = b := by
  simp [pure, Except.pure]

/-! ### Positions -/

/-- One position further on, one symbol fewer up to W. -/
theorem distance_succ {w n : Word} {k : Nat} (h : k ≤ (w - n).toNat) :
    (w - (n + BitVec.ofNat 32 k)).toNat = (w - n).toNat - k := by
  have hw := w.isLt
  have hn := n.isLt
  simp only [BitVec.toNat_sub, BitVec.toNat_add, BitVec.toNat_ofNat] at h ⊢
  omega

/-! ### SymRead, b[n], EXTRACT_BYTE -/

theorem symRead_of_held {s : State} {n : Word} (h1 : 1 ≤ (s.w - n).toNat) (h2 : (s.w - n).toNat ≤ symCap) :
    symRead s n = .ok (symAt s n) := by
  unfold symRead symAt
  rw [if_pos ⟨h1, h2⟩]

/-- SymRead answers exactly on the positions the store holds, and then with s[n]. -/
theorem symRead_ok_iff {s : State} {n : Word} {v : Int × Int} :
    symRead s n = .ok v ↔ 1 ≤ (s.w - n).toNat ∧ (s.w - n).toNat ≤ symCap ∧ v = symAt s n := by
  by_cases h : 1 ≤ (s.w - n).toNat ∧ (s.w - n).toNat ≤ symCap
  · rw [symRead_of_held h.1 h.2]
    constructor
    · intro hv
      exact ⟨h.1, h.2, by injection hv with hv; exact hv.symm⟩
    · rintro ⟨-, -, rfl⟩
      rfl
  · unfold symRead
    rw [if_neg h]
    constructor
    · intro hv
      cases hv
    · rintro ⟨h1, h2, -⟩
      exact absurd ⟨h1, h2⟩ h

theorem streamBit_of_held {s : State} {n : Word} (h1 : 2 ≤ (s.w - n).toNat) (h2 : (s.w - n).toNat ≤ symCap) :
    streamBit s n = .ok (bitAt s n) := by
  have hd : (s.w - (n + 1)).toNat = (s.w - n).toNat - 1 := distance_succ (k := 1) (by omega)
  unfold streamBit
  rw [symRead_of_held (by omega) h2, symRead_of_held (n := n + 1) (by omega) (by omega)]
  rfl

theorem streamBit_ok {s : State} {n : Word} {b : Bool} (h : streamBit s n = .ok b) : b = bitAt s n := by
  unfold streamBit at h
  obtain ⟨x, hx, h⟩ := except_bind_ok.1 h
  obtain ⟨y, hy, h⟩ := except_bind_ok.1 h
  rw [except_pure_ok] at h
  rw [(symRead_ok_iff.1 hx).2.2, (symRead_ok_iff.1 hy).2.2] at h
  exact h.symm

/-- The sum of b[q+k] * 2^k over k < n. -/
def bitSum (s : State) (q : Word) (n : Nat) : Nat :=
  ((List.range n).map fun k => (bitAt s (q + BitVec.ofNat 32 k)).toNat * 2 ^ k).sum

theorem bitSum_succ (s : State) (q : Word) (n : Nat) :
    bitSum s q (n + 1) = bitSum s q n + (bitAt s (q + BitVec.ofNat 32 n)).toNat * 2 ^ n := by
  simp [bitSum, List.range_succ]

theorem extractBits_of_held {s : State} {q : Word} {n : Nat} (h1 : n + 1 ≤ (s.w - q).toNat)
    (h2 : (s.w - q).toNat ≤ symCap) : extractBits s q n = .ok (bitSum s q n) := by
  induction n with
  | zero => rfl
  | succ k ih =>
    have hd := distance_succ (w := s.w) (n := q) (k := k) (by omega)
    rw [extractBits, ih (by omega), streamBit_of_held (by omega) (by omega), bitSum_succ]
    rfl

theorem extractBits_ok {s : State} {q : Word} {n v : Nat} (h : extractBits s q n = .ok v) : v = bitSum s q n := by
  induction n generalizing v with
  | zero =>
    injection h with h
    exact h.symm
  | succ k ih =>
    obtain ⟨u, hu, h⟩ := except_bind_ok.1 h
    obtain ⟨b, hb, h⟩ := except_bind_ok.1 h
    rw [except_pure_ok] at h
    rw [bitSum_succ, ← ih hu, ← streamBit_ok hb, h]

/-- EXTRACT_BYTE(q) is defined when s[q..q+8] are held. -/
theorem extractByte_of_held {s : State} {q : Word} (h1 : 9 ≤ (s.w - q).toNat) (h2 : (s.w - q).toNat ≤ symCap) :
    extractByte s q = .ok (byteAt s q) := by
  unfold extractByte
  rw [extractBits_of_held (by omega) h2]
  rfl

theorem extractByte_ok {s : State} {q : Word} {b : Byte} (h : extractByte s q = .ok b) : b = byteAt s q := by
  unfold extractByte at h
  obtain ⟨v, hv, h⟩ := except_bind_ok.1 h
  rw [except_pure_ok] at h
  rw [← h, extractBits_ok hv]
  rfl

/-- Bytes of the stream depend on the symbol store alone. -/
theorem byteAt_congr {s t : State} (h : s.sym = t.sym) (q : Word) : byteAt s q = byteAt t q := by
  simp [byteAt, bitAt, symAt, h]

/-! ### AccWrite and the extraction loop -/

theorem accWrite_ok_iff {s t : State} {i : Nat} {v : Byte} :
    accWrite s i v = .ok t ↔ i < accCap ∧ t = { s with pend := { s.pend with acc := s.pend.acc.write i v } } := by
  unfold accWrite
  split
  · rename_i h
    constructor
    · intro ht
      injection ht with ht
      exact ⟨h, ht.symm⟩
    · rintro ⟨-, rfl⟩
      rfl
  · rename_i h
    constructor
    · intro ht
      cases ht
    · rintro ⟨h', -⟩
      exact absurd h' h

/-- ACC after the stream's bytes from `q` on are written at `base`, `base + 1`, ..., `n` of them. -/
def accAfter (s : State) (base : Nat) (q : Word) : Nat → Memory 8
  | 0 => s.pend.acc
  | i + 1 => (accAfter s base q i).write (base + i) (byteAt s (q + BitVec.ofNat 32 (8 * i)))

/-- The state with another ACC and everything else as it was. -/
def withAcc (s : State) (m : Memory 8) : State := { s with pend := { s.pend with acc := m } }

@[simp] theorem withAcc_params (s : State) (m : Memory 8) : (withAcc s m).params = s.params := rfl
@[simp] theorem withAcc_configured (s : State) (m : Memory 8) : (withAcc s m).configured = s.configured := rfl
@[simp] theorem withAcc_channel (s : State) (m : Memory 8) : (withAcc s m).channel = s.channel := rfl
@[simp] theorem withAcc_pstate (s : State) (m : Memory 8) : (withAcc s m).pstate = s.pstate := rfl
@[simp] theorem withAcc_w (s : State) (m : Memory 8) : (withAcc s m).w = s.w := rfl
@[simp] theorem withAcc_sym (s : State) (m : Memory 8) : (withAcc s m).sym = s.sym := rfl
@[simp] theorem withAcc_cursor (s : State) (m : Memory 8) : (withAcc s m).cursor = s.cursor := rfl
@[simp] theorem withAcc_corr (s : State) (m : Memory 8) : (withAcc s m).corr = s.corr := rfl
@[simp] theorem withAcc_syncCapture (s : State) (m : Memory 8) : (withAcc s m).syncCapture = s.syncCapture := rfl
@[simp] theorem withAcc_hitPos (s : State) (m : Memory 8) : (withAcc s m).hitPos = s.hitPos := rfl
@[simp] theorem withAcc_maxsq (s : State) (m : Memory 8) : (withAcc s m).maxsq = s.maxsq := rfl
@[simp] theorem withAcc_dbLevel (s : State) (m : Memory 8) : (withAcc s m).dbLevel = s.dbLevel := rfl
@[simp] theorem withAcc_fhist (s : State) (m : Memory 8) : (withAcc s m).fhist = s.fhist := rfl
@[simp] theorem withAcc_q (s : State) (m : Memory 8) : (withAcc s m).q = s.q := rfl
@[simp] theorem withAcc_qhead (s : State) (m : Memory 8) : (withAcc s m).qhead = s.qhead := rfl
@[simp] theorem withAcc_qcount (s : State) (m : Memory 8) : (withAcc s m).qcount = s.qcount := rfl
@[simp] theorem withAcc_pktCount (s : State) (m : Memory 8) : (withAcc s m).pktCount = s.pktCount := rfl
@[simp] theorem withAcc_dropCount (s : State) (m : Memory 8) : (withAcc s m).dropCount = s.dropCount := rfl
@[simp] theorem withAcc_bufCount (s : State) (m : Memory 8) : (withAcc s m).bufCount = s.bufCount := rfl
@[simp] theorem withAcc_syncCount (s : State) (m : Memory 8) : (withAcc s m).syncCount = s.syncCount := rfl
@[simp] theorem withAcc_cmdErr (s : State) (m : Memory 8) : (withAcc s m).cmdErr = s.cmdErr := rfl
@[simp] theorem withAcc_qOvf (s : State) (m : Memory 8) : (withAcc s m).qOvf = s.qOvf := rfl
@[simp] theorem withAcc_hostIn (s : State) (m : Memory 8) : (withAcc s m).hostIn = s.hostIn := rfl
@[simp] theorem withAcc_respOut (s : State) (m : Memory 8) : (withAcc s m).respOut = s.respOut := rfl
@[simp] theorem withAcc_pend (s : State) (m : Memory 8) : (withAcc s m).pend = { s.pend with acc := m } := rfl

/-- The extraction loop changes ACC alone, to the bytes of the stream. -/
theorem extractInto_ok {base n : Nat} {q : Word} {s t : State} (h : extractInto base q n s = .ok t) :
    t = withAcc s (accAfter s base q n) := by
  induction n generalizing t with
  | zero =>
    injection h with h
    exact h.symm
  | succ i ih =>
    obtain ⟨u, hu, h⟩ := except_bind_ok.1 h
    obtain ⟨b, hb, h⟩ := except_bind_ok.1 h
    obtain ⟨-, rfl⟩ := accWrite_ok_iff.1 h
    obtain rfl := ih hu
    rw [extractByte_ok hb, byteAt_congr (s := withAcc s (accAfter s base q i)) (t := s) rfl]
    rfl

/-- The extraction loop goes through when its symbols are held and its bytes fit ACC. -/
theorem extractInto_of_held {base n : Nat} {q : Word} {s : State} (h1 : 8 * n + 1 ≤ (s.w - q).toNat)
    (h2 : (s.w - q).toNat ≤ symCap) (h3 : base + n ≤ accCap) :
    extractInto base q n s = .ok (withAcc s (accAfter s base q n)) := by
  induction n with
  | zero => rfl
  | succ i ih =>
    have hd := distance_succ (w := s.w) (n := q) (k := 8 * i) (by omega)
    rw [extractInto, ih (by omega) (by omega)]
    have hb : extractByte (withAcc s (accAfter s base q i)) (q + BitVec.ofNat 32 (8 * i))
        = .ok (byteAt s (q + BitVec.ofNat 32 (8 * i))) := by
      rw [extractByte_of_held (by rw [withAcc_w]; omega) (by rw [withAcc_w]; omega)]
      rw [byteAt_congr (s := withAcc s (accAfter s base q i)) (t := s) rfl]
    show (extractByte _ _ >>= fun b => accWrite _ _ b) = _
    rw [hb]
    show accWrite _ _ _ = _
    rw [accWrite, if_pos (by omega)]
    rfl

theorem accAfter_wf {s : State} {base n : Nat} {q : Word} (hs : s.pend.acc.wf accCap = true)
    (h : base + n ≤ accCap) : (accAfter s base q n).wf accCap = true := by
  induction n with
  | zero => exact hs
  | succ i ih => exact Memory.write_keeps_wf (ih (by omega)) (by omega)

/-- What ACC reads as after the loop: the stream's bytes where they were written, what was there elsewhere. -/
theorem accAfter_read {s : State} {base n : Nat} {q : Word} (hs : s.pend.acc.wf accCap = true)
    (h : base + n ≤ accCap) (a : Nat) :
    (accAfter s base q n).read a =
      if base ≤ a ∧ a < base + n then byteAt s (q + BitVec.ofNat 32 (8 * (a - base))) else s.pend.acc.read a := by
  induction n with
  | zero =>
    have : ¬(base ≤ a ∧ a < base + 0) := by omega
    rw [if_neg this]
    rfl
  | succ i ih =>
    rw [accAfter, Memory.read_write (accAfter_wf hs (by omega)), ih (by omega)]
    by_cases ha : a = base + i
    · subst ha
      simp
    · rw [if_neg ha]
      have : (base ≤ a ∧ a < base + i) ↔ (base ≤ a ∧ a < base + (i + 1)) := by omega
      simp only [this]

/-! ### CORR_STEP -/

theorem corrStep_of_bit {s : State} {bit : Bool} (h : streamBit s s.cursor = .ok bit) :
    corrStep s = .ok (corrNext s bit) := by
  unfold corrStep
  rw [h]
  rfl

/-- CORR_STEP goes through when s[CURSOR] and s[CURSOR+1] are held, on the bit b[CURSOR]. -/
theorem corrStep_of_held {s : State} (h1 : 2 ≤ held s) (h2 : held s ≤ symCap) :
    corrStep s = .ok (corrNext s (bitAt s s.cursor)) :=
  corrStep_of_bit (streamBit_of_held h1 h2)

/-- Everything CORR_STEP can do. -/
theorem corrStep_ok {s t : State} (h : corrStep s = .ok t) : t = corrNext s (bitAt s s.cursor) := by
  cases hb : streamBit s s.cursor with
  | error e =>
    unfold corrStep at h
    rw [hb] at h
    cases h
  | ok bit =>
    rw [corrStep_of_bit hb] at h
    injection h with h
    rw [← h, streamBit_ok hb]

/-! ### HEADER_STEP and PAYLOAD_STEP -/

/-- Everything HEADER_STEP can do: defer with no state change, or read the header. -/
theorem headerStep_cases {s : State} {r : Bool × State} (h : headerStep s = .ok r) :
    (held s < 17 ∧ r = (false, s)) ∨
      (17 ≤ held s ∧ r = (true, headerDone (withAcc s (accAfter s 0 s.cursor hdrBytes)))) := by
  unfold headerStep at h
  split at h
  · rename_i hd
    injection h with h
    exact .inl ⟨hd, h.symm⟩
  · rename_i hd
    obtain ⟨u, hu, h⟩ := except_bind_ok.1 h
    rw [except_pure_ok] at h
    obtain rfl := extractInto_ok hu
    exact .inr ⟨by simp at hd; omega, h.symm⟩

/-- HEADER_STEP reads the header when the 17 symbols it needs are held. -/
theorem headerStep_of_held {s : State} (h1 : 17 ≤ held s) (h2 : held s ≤ symCap) :
    headerStep s = .ok (true, headerDone (withAcc s (accAfter s 0 s.cursor hdrBytes))) := by
  unfold headerStep
  rw [if_neg (by simp; omega), extractInto_of_held (by simpa [held] using h1) h2 (by simp)]
  rfl

/-- Everything PAYLOAD_STEP can do: defer with no state change, or deliver the packet. -/
theorem payloadStep_cases {s : State} {r : Bool × State} (h : payloadStep s = .ok r) :
    (held s < 8 * s.pend.plen.toNat + 1 ∧ r = (false, s)) ∨
      (8 * s.pend.plen.toNat + 1 ≤ held s ∧
        r = (true, payloadDone (withAcc s (accAfter s hdrBytes s.cursor s.pend.plen.toNat)))) := by
  unfold payloadStep at h
  split at h
  · rename_i hd
    injection h with h
    exact .inl ⟨hd, h.symm⟩
  · rename_i hd
    obtain ⟨u, hu, h⟩ := except_bind_ok.1 h
    rw [except_pure_ok] at h
    obtain rfl := extractInto_ok hu
    exact .inr ⟨by omega, h.symm⟩

/-- PAYLOAD_STEP delivers the packet when its symbols are held and its bytes fit ACC. -/
theorem payloadStep_of_held {s : State} (h1 : 8 * s.pend.plen.toNat + 1 ≤ held s) (h2 : held s ≤ symCap)
    (h3 : s.pend.plen.toNat ≤ 510) :
    payloadStep s = .ok (true, payloadDone (withAcc s (accAfter s hdrBytes s.cursor s.pend.plen.toNat))) := by
  unfold payloadStep
  rw [if_neg (by omega), extractInto_of_held h1 h2 (by simp; omega)]
  rfl

/-! ### Induction over BEGIN_SCAN and PARSE -/

/-- What every correlator step in Begin keeps, BEGIN_SCAN keeps. -/
theorem beginScan_keeps {P : State → Prop}
    (hc : ∀ s t, s.pstate = .begin → 2 ≤ held s → P s → corrStep s = .ok t → P t)
    {fuel : Nat} {s : State} {r : Bool × State} (hb : s.pstate = .begin) (hs : P s)
    (h : beginScan fuel s = .ok r) : P r.2 := by
  induction fuel generalizing s with
  | zero =>
    injection h with h
    subst h
    exact hs
  | succ n ih =>
    unfold beginScan at h
    split at h
    · rename_i hd
      obtain ⟨t, ht, h⟩ := except_bind_ok.1 h
      have hP := hc s t hb hd hs ht
      split at h
      · rw [except_pure_ok] at h
        subst h
        exact hP
      · rename_i hne
        refine ih ?_ hP h
        have := corrStep_ok ht
        subst this
        unfold corrNext at hne ⊢
        simp only at hne ⊢
        split
        · rename_i hh
          rw [if_pos hh] at hne
          exact absurd rfl hne
        · exact hb
    · injection h with h
      subst h
      exact hs

/-- What every correlator step in Begin, every HEADER_STEP and every PAYLOAD_STEP that goes on keep, PARSE keeps. -/
theorem parse_keeps {P : State → Prop}
    (hc : ∀ s t, s.pstate = .begin → 2 ≤ held s → P s → corrStep s = .ok t → P t)
    (hh : ∀ s, s.pstate = .header → 17 ≤ held s → P s →
      P (headerDone (withAcc s (accAfter s 0 s.cursor hdrBytes))))
    (hp : ∀ s, s.pstate = .payload → 8 * s.pend.plen.toNat + 1 ≤ held s → P s →
      P (payloadDone (withAcc s (accAfter s hdrBytes s.cursor s.pend.plen.toNat))))
    {s t : State} (hs : P s) (h : parse s = .ok t) : P t := by
  unfold parse at h
  generalize 2 * held s + 2 = fuel at h
  induction fuel generalizing s with
  | zero =>
    injection h with h
    exact h ▸ hs
  | succ n ih =>
    obtain ⟨r, hr, h⟩ := except_bind_ok.1 h
    have hP : P r.2 := by
      unfold parseStep at hr
      split at hr
      · rename_i hb
        exact beginScan_keeps hc hb hs hr
      · rename_i hb
        rcases headerStep_cases hr with ⟨-, rfl⟩ | ⟨hd, rfl⟩
        · exact hs
        · exact hh s hb hd hs
      · rename_i hb
        rcases payloadStep_cases hr with ⟨-, rfl⟩ | ⟨hd, rfl⟩
        · exact hs
        · exact hp s hb hd hs
    split at h
    · exact ih hP h
    · rw [except_pure_ok] at h
      exact h ▸ hP

/-! ### PARSE as a relation -/

/-- A turn that does not proceed ends PARSE. -/
theorem parseRun_stop {s t : State} (h : parseStep s = .ok (false, t)) : ParseRun s t := by
  unfold parseStep at h
  split at h
  · exact .noHit s t ‹_› h
  · exact .headerDeferred s t ‹_› h
  · exact .payloadDeferred s t ‹_› h

/-- A turn that proceeds, and then PARSE. -/
theorem parseRun_turn {s u t : State} (h : parseStep s = .ok (true, u)) (hr : ParseRun u t) : ParseRun s t := by
  unfold parseStep at h
  split at h
  · exact .hit s u t ‹_› h hr
  · exact .headerTaken s u t ‹_› h hr
  · exact .payloadTaken s u t ‹_› h hr

end Sys2Proof.Machine
end

