-- ==== Sys2Proof/Laws/PerInstr.lean ====
section
/-! SUPPORT. Sys2Proof/Laws/PerInstr.lean: families of facts stated per instruction, one lemma per constructor of Instr. -/

namespace Sys2Proof.Laws

open Sys2Proof

/-- The header word of the command carries the opcode of the command's row in the opcode map, so that a decoder that reads
OP alone finds the length the command's words have (R58, R59). -/
def HeaderOpcode.Statement (i : Instr) : Prop :=
  opcodeOf (encodeHeader i) =
      (match i with
      | .configure _ _ _ => 0x01#8
      | .processBuffer _ _ => 0x02#8
      | .readPacket _ => 0x03#8
      | .readReg _ _ => 0x04#8
      | .clearStatus _ _ => 0x05#8) ∧
    ∀ p : Params, i.shaped p = true → (encode i).length = commandLength p (encodeHeader i)

theorem HeaderOpcode.opcode_configure (z : BitVec 15) (rf : Bool) (sel : BitVec 8) :
    opcodeOf (encodeHeader (.configure z rf sel)) = 0x01#8 := by
  unfold opcodeOf encodeHeader
  rw [extract_append_high _ _ (k := 16) rfl, extract_append_high _ _ (k := 15) rfl, extract_append_high _ _ (k := 0) rfl]
  exact extract_whole _

theorem HeaderOpcode.configure (z : BitVec 15) (rf : Bool) (sel : BitVec 8) :
    HeaderOpcode.Statement (.configure z rf sel) := by
  have h := HeaderOpcode.opcode_configure z rf sel
  exact ⟨h, fun p _ => by simp [encode, encodeSamples, commandLength, h]⟩

theorem HeaderOpcode.opcode_processBuffer (z : BitVec 24) (raw : List Word) :
    opcodeOf (encodeHeader (.processBuffer z raw)) = 0x02#8 := by
  unfold opcodeOf encodeHeader
  rw [extract_append_high _ _ (k := 0) rfl]
  exact extract_whole _

theorem HeaderOpcode.processBuffer (z : BitVec 24) (raw : List Word) :
    HeaderOpcode.Statement (.processBuffer z raw) := by
  have h := HeaderOpcode.opcode_processBuffer z raw
  refine ⟨h, fun p hs => ?_⟩
  have hl : raw.length = p.rawCount := by simpa [Instr.shaped] using hs
  simp [encode, encodeSamples, commandLength, h, hl, Nat.add_comm]

theorem HeaderOpcode.opcode_readPacket (z : BitVec 24) : opcodeOf (encodeHeader (.readPacket z)) = 0x03#8 := by
  unfold opcodeOf encodeHeader
  rw [extract_append_high _ _ (k := 0) rfl]
  exact extract_whole _

theorem HeaderOpcode.readPacket (z : BitVec 24) : HeaderOpcode.Statement (.readPacket z) := by
  have h := HeaderOpcode.opcode_readPacket z
  exact ⟨h, fun p _ => by simp [encode, encodeSamples, commandLength, h]⟩

theorem HeaderOpcode.opcode_readReg (z : BitVec 16) (reg : BitVec 8) :
    opcodeOf (encodeHeader (.readReg z reg)) = 0x04#8 := by
  unfold opcodeOf encodeHeader
  rw [extract_append_high _ _ (k := 16) rfl, extract_append_high _ _ (k := 0) rfl]
  exact extract_whole _

theorem HeaderOpcode.readReg (z : BitVec 16) (reg : BitVec 8) : HeaderOpcode.Statement (.readReg z reg) := by
  have h := HeaderOpcode.opcode_readReg z reg
  exact ⟨h, fun p _ => by simp [encode, encodeSamples, commandLength, h]⟩

theorem HeaderOpcode.opcode_clearStatus (z : BitVec 22) (mask : BitVec 2) :
    opcodeOf (encodeHeader (.clearStatus z mask)) = 0x05#8 := by
  unfold opcodeOf encodeHeader
  rw [extract_append_high _ _ (k := 22) rfl, extract_append_high _ _ (k := 0) rfl]
  exact extract_whole _

theorem HeaderOpcode.clearStatus (z : BitVec 22) (mask : BitVec 2) :
    HeaderOpcode.Statement (.clearStatus z mask) := by
  have h := HeaderOpcode.opcode_clearStatus z mask
  exact ⟨h, fun p _ => by simp [encode, encodeSamples, commandLength, h]⟩

end Sys2Proof.Laws
end

