-- ==== Sys2Proof/Laws/Queue.lean ====
section
/-! SUPPORT. Sys2Proof/Laws/Queue.lean: what ENQUEUE can do, and what a word of packed bytes holds (R45, R56, R107). -/

namespace Sys2Proof.Machine

/-- Everything ENQUEUE can do: the record into the slot after the newest, or the record dropped. -/
theorem enqueue_cases (r : Record) (s : State) :
    (s.qcount.toNat < qDepth ∧
      enqueue r s = { s with
        q := s.q.set ((s.qhead.toNat + s.qcount.toNat) % 8) r (Nat.mod_lt _ (by decide))
        qcount := s.qcount + 1 }) ∨
    (qDepth ≤ s.qcount.toNat ∧ enqueue r s = { s with dropCount := s.dropCount + 1, qOvf := true }) := by
  unfold enqueue
  split
  · exact .inl ⟨‹_›, rfl⟩
  · exact .inr ⟨by omega, rfl⟩

/-- Four bytes make one word. -/
theorem packWords_length {l : List Byte} {n : Nat} (h : l.length = 4 * n) : (packWords l).length = n := by
  induction n generalizing l with
  | zero => simp [List.length_eq_zero_iff.1 h, packWords]
  | succ n ih =>
    match l, h with
    | b0 :: b1 :: b2 :: b3 :: rest, h =>
      have := ih (l := rest) (by simp at h; omega)
      simp [packWords, this]

/-- Byte `j` of word `k` is byte `4 * k + j` of the list. -/
theorem packWords_byte {l : List Byte} {n k j : Nat} (h : l.length = 4 * n) (hk : k < n) (hj : j < 4) :
    ((packWords l).getD k 0).extractLsb' (8 * j) 8 = l.getD (4 * k + j) 0 := by
  induction n generalizing l k with
  | zero => omega
  | succ n ih =>
    match l, h with
    | b0 :: b1 :: b2 :: b3 :: rest, h =>
      cases k with
      | zero =>
        have hj' : j = 0 ∨ j = 1 ∨ j = 2 ∨ j = 3 := by omega
        rcases hj' with rfl | rfl | rfl | rfl
        · simp only [packWords, List.getD_cons_zero, Nat.mul_zero, Nat.add_zero]
          rw [extract_append_low _ _ (by omega), extract_whole]
        · simp only [packWords, List.getD_cons_zero, Nat.mul_zero, Nat.zero_add, List.getD_cons_succ, Nat.mul_one]
          rw [extract_append_high (k := 0) _ _ (by omega), extract_append_low _ _ (by omega), extract_whole]
        · simp only [packWords, List.getD_cons_zero, Nat.mul_zero, Nat.zero_add, List.getD_cons_succ]
          rw [extract_append_high (k := 8) _ _ (by omega), extract_append_high (k := 0) _ _ (by omega),
            extract_append_low _ _ (by omega), extract_whole]
        · simp only [packWords, List.getD_cons_zero, Nat.mul_zero, Nat.zero_add, List.getD_cons_succ]
          rw [extract_append_high (k := 16) _ _ (by omega), extract_append_high (k := 8) _ _ (by omega),
            extract_append_high (k := 0) _ _ (by omega), extract_whole]
      | succ k =>
        have := ih (l := rest) (k := k) (by simp at h; omega) (by omega)
        have he : 4 * (k + 1) + j = 4 * k + j + 1 + 1 + 1 + 1 := by omega
        simpa [packWords, he] using this

end Sys2Proof.Machine
end

