-- ==== Sys2Proof/Tests/Slice0.lean ====
section
/-! SUPPORT. Sys2Proof/Tests/Slice0.lean: the model's own tests, with the source of each expected value, and for every
statement with hypotheses a concrete state and operands that meet them together (the `witness_` theorems). -/

namespace Sys2Proof.Tests

open Sys2Proof Sys2Proof.Machine

/-! ### Small machines -/

/-- Four raw samples and two symbols a buffer, two taps, OVH = 0: within the bounds of R9. -/
def tiny : Params where
  syncWord := 0x8E89BED6
  ovh := 0
  rawCount := 4
  decim := 2
  taps := [1, 1]
  tapShift := 1

/-- Right after reset. -/
def fresh : State := State.resetWith tiny

/-- Configured, in Begin, nothing received. -/
def ready : State := { fresh with configured := true }

/-- In Begin with the low 31 bits of SYNC_WORD in the window; s[31] = (1, 0) is the one symbol not passed. -/
def almost : State :=
  { ready with
    w := 32
    cursor := 31
    bufCount := 16
    sym := [(31, 0x00000001)]
    corr := { win := 0x0E89BED6, woff := 31, fill := 31, matchReg := 0, lastMatchLen := 0 } }

/-- The correlator's registers after a hit. -/
def hitCorr : Correlator := { win := 0x8E89BED6, woff := 0, fill := 32, matchReg := 0x8E89BED6, lastMatchLen := 32 }

/-- In Header with 16 symbols. -/
def inHeader : State :=
  { ready with
    w := 48
    cursor := 32
    bufCount := 24
    pstate := .header
    corr := hitCorr
    syncCapture := 0x8E89BED6
    syncCount := 1 }

/-- In Payload with a payload of one byte and 8 symbols. -/
def inPayload : State :=
  { inHeader with
    w := 56
    cursor := 48
    bufCount := 28
    pstate := .payload
    pend := { acc := [(0, 7), (1, 1)], accCur := 2, ptype := 7, psize := 1, plen := 1 } }

/-- A queue with seven records. -/
def seven : State := { ready with qcount := 7, qhead := 3 }

/-- A full queue. -/
def full : State := { ready with qcount := 8, qhead := 5 }

/-- The next state of an outcome, where it is one. -/
def nextOf : Host.Outcome State Fault Refusal → Option State
  | .next t => some t
  | .fault _ => none
  | .refused _ => none

theorem next_of_isSome {o : Host.Outcome State Fault Refusal} (h : (nextOf o).isSome = true) : ∃ t, o = .next t := by
  match o with
  | .next t => exact ⟨t, rfl⟩
  | .fault _ => cases h
  | .refused _ => cases h

/-- The state an outcome holds, or the state after reset. -/
def after (o : Host.Outcome State Fault Refusal) : State := (nextOf o).getD State.reset

/-- A buffer of four samples (0, 2): with FHIST = (0, 0) it gives s = (0, 2) after the first, floor((2 + 2) / 2) = 2. -/
def quarter : List Word := List.replicate 4 0x00020000#32

/-! ### WellFormed refuses an ill-formed term of each kind -/

theorem test_wellFormed_accepts :
    Instr.wellFormed tiny (.configure 0 true 255) = true ∧ Instr.wellFormed tiny (.processBuffer 0 quarter) = true ∧
    Instr.wellFormed tiny (.readPacket 0) = true ∧ Instr.wellFormed tiny (.readReg 0 255) = true ∧
    Instr.wellFormed tiny (.clearStatus 0 3) = true := by decide
theorem test_wellFormed_configure_z : Instr.wellFormed tiny (.configure 1 true 0) = false := by decide
theorem test_wellFormed_processBuffer_z : Instr.wellFormed tiny (.processBuffer 1 quarter) = false := by decide
theorem test_wellFormed_processBuffer_short : Instr.wellFormed tiny (.processBuffer 0 [1, 2, 3]) = false := by decide
theorem test_wellFormed_processBuffer_long : Instr.wellFormed tiny (.processBuffer 0 [1, 2, 3, 4, 5]) = false := by decide
theorem test_wellFormed_readPacket_z : Instr.wellFormed tiny (.readPacket 0x800000) = false := by decide
theorem test_wellFormed_readReg_z : Instr.wellFormed tiny (.readReg 0x8000 0) = false := by decide
theorem test_wellFormed_clearStatus_z : Instr.wellFormed tiny (.clearStatus 1 0) = false := by decide

/-! ### Decoding, from words written out bit by bit from the format table of R55 -/

/-- OP 0000_0001, Z 000_0000_0000_0000, RF 1, SEL 0010_1010 (program P5). -/
theorem test_decode_configure :
    decode tiny [0b00000001_000000000000000_1_00101010, 9] = .ok (.configure 0 true 42, [9]) := by decide
/-- Z 100_0000_0000_0001, RF 0, SEL 1000_0000. -/
theorem test_decode_configure_reserved :
    decode tiny [0b00000001_100000000000001_0_10000000] = .ok (.configure 0x4001 false 128, []) := by decide
/-- OP 0000_0010, then RAW_COUNT = 4 samples, the first of them a READ_PACKET header word. -/
theorem test_decode_processBuffer :
    decode tiny [0b00000010_000000000000000000000000, 0x03000000, 2, 3, 4, 5] =
      .ok (.processBuffer 0 [0x03000000, 2, 3, 4], [5]) := by decide
/-- OP 0000_0011. -/
theorem test_decode_readPacket :
    decode tiny [0b00000011_000000000000000000000000] = .ok (.readPacket 0, []) := by decide
/-- OP 0000_0100, Z 0, REG 0000_1010. -/
theorem test_decode_readReg :
    decode tiny [0b00000100_0000000000000000_00001010] = .ok (.readReg 0 0x0A, []) := by decide
/-- OP 0000_0101, Z 00..01, MASK 10. -/
theorem test_decode_clearStatus :
    decode tiny [0b00000101_0000000000000000000001_10] = .ok (.clearStatus 1 2, []) := by decide
/-- The opcodes beside the assigned range (R61). -/
theorem test_decode_illegal :
    decode tiny [0b00000000_000000000000000000000000] = .error (.illegalOpcode 0) ∧
    decode tiny [0b00000110_000000000000000000000000] = .error (.illegalOpcode 6) ∧
    decode tiny [0b11111111_000100100011010001010110] = .error (.illegalOpcode 255) := by decide
theorem test_decode_truncated :
    decode tiny [] = .error .noWord ∧ decode tiny [0x02000000, 1, 2, 3] = .error .truncated := by decide
/-- The numbering of spec/opcode_table.json: a 32-bit row. -/
theorem test_decodeTableWord :
    decodeTableWord 32 0x0100012A = some (.configure 0 true 42) ∧ decodeTableWord 32 0x0400000A = some (.readReg 0 10) ∧
    decodeTableWord 32 0x05000002 = some (.clearStatus 0 2) ∧ decodeTableWord 32 0x06000000 = none := by decide
/-- R63, R64: READ_STATUS, CLEAR_ALL, RESYNC 42, and a SEL out of range. -/
theorem test_assemble :
    assembleLine tiny .readStatus = some [0x04000000] ∧ assembleLine tiny .clearAll = some [0x05000003] ∧
    assembleLine tiny (.resync 42) = some [0x0100002A] ∧ assembleLine tiny (.configure 256 true) = none := by decide

/-! ### The units, on the vectors of spec/95_test_vectors.md -/

/-- V-PWR-1, 2, 5, 15, 17, 18, 28. -/
theorem test_mag2db :
    [0, 1, 4, 852903448, 2 ^ 30 - 1, 2 ^ 30, 2 ^ 31].map mag2db = [-128, -91, -85, -1, -1, 0, 3] := by decide +kernel
/-- V-DEC-1. -/
theorem test_decimator_1 :
    (decimOuts tiny [10, 20, 0x0000FFFD, 0] [0]).map sampleI = [15, -2] ∧
    nextHistory tiny [10, 20, 0x0000FFFD, 0] [0] = [0] := by decide
/-- V-DEC-4, where the taps reach the old history: 4 + 3 + 2 = 9; the new history is 4, 3. -/
theorem test_decimator_4 :
    let p := { tiny with decim := 4, taps := [1, 1, 1], tapShift := 0 }
    decimOuts p [1, 2, 3, 4] [9, 8] = [9] ∧ nextHistory p [1, 2, 3, 4] [9, 8] = [4, 3] := by decide
/-- V-DEC-2 and V-DEC-3: a sum that saturates, a tap table read from TAPS[0] on, and a negative sum shifted down to its
floor. -/
theorem test_decimator_saturates_and_floors :
    decimOuts { tiny with rawCount := 2, decim := 1, tapShift := 0 } [0x80007FFF, 0x80007FFF] [0x80007FFF] =
      [0x80007FFF, 0x80007FFF] ∧
    decimOuts { tiny with rawCount := 2, decim := 1, taps := [1, 0, 0], tapShift := 2 } [0x0001FFFF, 0x0005FFFD] [0, 0] =
      [0x0000FFFF, 0x0001FFFF] := by decide
/-- V-DEM-1, 2, 6, 8, 10, 12. -/
theorem test_demod :
    demod (1000, 0) (0, 1000) = true ∧ demod (1000, 0) (0, -1000) = false ∧ demod (1000, 0) (-1000, 0) = false ∧
    demod (1, 0) (1, 1) = true ∧ demod (-32768, 32767) (-32768, -32768) = true ∧
    demod (32767, -32768) (-32768, -32768) = false := by decide
/-- V-COR-1, 4, 6: the window oldest slot first is SYNC_WORD, or SYNC_WORD with bit 5 or bit 31 flipped. -/
theorem test_compare :
    (fun c : Correlator => (c.lastMatchLen, c.matchReg))
        (compareWindow 0x8E89BED6 { Correlator.clear with win := 0x8E89BED6, woff := 31 }) = (32, 0x8E89BED6) ∧
    (fun c : Correlator => (c.lastMatchLen, c.matchReg))
        (compareWindow 0x8E89BED6 { Correlator.clear with win := 0x8E89BEF6, woff := 31 }) = (5, 0x16) ∧
    (fun c : Correlator => (c.lastMatchLen, c.matchReg))
        (compareWindow 0x8E89BED6 { Correlator.clear with win := 0x0E89BED6, woff := 31 }) = (31, 0x0E89BED6) := by
  decide +kernel
/-- SYM_CAP = 8192 entries, position modulo 8192 (R38), and W - n = 0 is not held (R40). -/
theorem test_symbol_store :
    symEntry 0x00002001 = 1 ∧ symRead (symWrite 0x00002001 0xFFFF0003 { fresh with w := 0x2002 }) 0x2001 = .ok (3, -1) ∧
    symRead { fresh with w := 5 } 5 = .error .symbolNotHeld ∧
    symRead { fresh with w := 0x2001 } 0 = .error .symbolNotHeld := by decide
theorem test_memory_canonical :
    Memory.write (Memory.write ([] : Memory 8) 5 1) 2 7 = [(2, 7), (5, 1)] ∧
    Memory.write ([(2, 7), (5, 1)] : Memory 8) 5 0 = [(2, 7)] ∧ Memory.wf 512 ([(2, 7), (5, 1)] : Memory 8) = true ∧
    Memory.wf 512 ([(5, 1), (2, 7)] : Memory 8) = false ∧ Memory.wf 512 ([(512, 1)] : Memory 8) = false := by decide

/-! ### The commands, one step each -/

/-- CONFIGURE 7, rf=0: CHANNEL, CONFIGURED, CURSOR = W, Begin, WIN_CTRL = 0 (R101). -/
theorem test_configure :
    let t := after (exec (.configure 0 false 7) inPayload)
    (t.channel, t.configured, t.cursor, t.pstate, winCtrlReg t, pendingLenReg t, t.syncCapture) =
      (7, true, 56, .begin, 0, 0, 0x8E89BED6) := by decide
/-- rf=1 clears the filter history (R75); a reserved bit rejects the whole command (program P5). -/
theorem test_configure_history_and_reserved :
    (after (exec (.configure 0 true 7) { ready with fhist := [3] })).fhist = [0] ∧
    after (exec (.configure 1 true 7) { ready with fhist := [3] }) = { ready with fhist := [3], cmdErr := true } := by
  decide +kernel
/-- A hit by hand: b[31] = DEMOD((1, 0), (0, y)) = 1 completes SYNC_WORD, HIT_POS = 31 - 31 = 0; MAXSQ = 4, V-PWR-5. -/
theorem test_processBuffer_hit :
    let t := after (exec (.processBuffer 0 quarter) almost)
    (t.pstate = .header ∧ t.hitPos = 0 ∧ t.syncCapture = 0x8E89BED6 ∧ t.syncCount = 1) ∧
      (t.cursor = 32 ∧ t.w = 34 ∧ t.maxsq = 4 ∧ t.dbLevel.toInt = -85 ∧ t.bufCount = 17) := by decide +kernel
/-- A packet by hand: PSIZE = 1, so DEVID is SYNC_CAPTURE and DLEN = 0 (R106); CURSOR passes the 8 symbols of the payload,
and one more bit is decided, up to W - 2. -/
theorem test_processBuffer_packet :
    let t := after (exec (.processBuffer 0 quarter) inPayload)
    (t.pstate = .begin ∧ t.qcount = 1 ∧ t.pktCount = 1 ∧ t.cursor = 57 ∧ t.w = 58 ∧ t.pend = Pending.clear) ∧
      (oldestRecord t).words.take 3 = [0x8E89BED6, 0x01070000, 0x0000AB00] := by decide +kernel
/-- An empty queue gives one zero word (R108). -/
theorem test_readPacket_empty : (after (exec (.readPacket 0) ready)).respOut = [0] := by decide
/-- 66 words, the first 1; QHEAD moves modulo 8 (R108). -/
theorem test_readPacket :
    let t := after (exec (.readPacket 0) { full with qhead := 7 })
    (t.respOut.length, t.respOut.head?, t.qhead, t.qcount) = (66, some 1, 0, 7) := by decide +kernel
/-- STATUS after CONFIGURE is 0x00000001 and DB_LEVEL after reset 0xFFFFFF80 (programs P1 and P5). -/
theorem test_readReg :
    (after (exec (.readReg 0 0) ready)).respOut = [1] ∧
    (after (exec (.readReg 0 0x0A) fresh)).respOut = [0xFFFFFF80] := by decide
/-- READ_REG 0x11: the response is 0 and CMD_ERR is set (program P5). -/
theorem test_readReg_reserved :
    (fun t : State => (t.respOut, t.cmdErr)) (after (exec (.readReg 0 0x11) ready)) = ([0], true) ∧
    (fun t : State => (t.respOut, t.cmdErr)) (after (exec (.readReg 0x8000 0) ready)) = ([0], true) := by decide
/-- Each mask bit clears its own bit only (R110). -/
theorem test_clearStatus :
    (fun t : State => (t.cmdErr, t.qOvf))
        (after (exec (.clearStatus 0 1) { ready with cmdErr := true, qOvf := true })) = (false, true) ∧
    (fun t : State => (t.cmdErr, t.qOvf))
        (after (exec (.clearStatus 0 2) { ready with cmdErr := true, qOvf := true })) = (true, false) := by decide
/-- A word of the table, put on the command interface, is what the next step executes. -/
theorem test_withFetchWord :
    (fun t : State => (t.configured, t.channel, t.hostIn)) (after (step (State.reset.withFetchWord 32 0x0100012A))) =
      (true, 42, []) := by decide

/-! ### Witnesses: the invariants hold somewhere -/

theorem coherent_fresh : ParseCoherent fresh := by constructor <;> decide
theorem coherent_ready : ParseCoherent ready := by constructor <;> decide
theorem coherent_almost : ParseCoherent almost := by constructor <;> decide
theorem coherent_inHeader : ParseCoherent inHeader := by constructor <;> decide
theorem coherent_inPayload : ParseCoherent inPayload := by constructor <;> decide
theorem stores_almost : StoresCanonical almost := by constructor <;> decide
theorem stores_inPayload : StoresCanonical inPayload := by constructor <;> decide
theorem good_fresh : Good fresh := ⟨by decide, coherent_fresh, by constructor <;> decide⟩
theorem good_almost : Good almost := ⟨by decide, coherent_almost, stores_almost⟩
theorem good_inPayload : Good inPayload := ⟨by decide, coherent_inPayload, stores_inPayload⟩
theorem faithful_almost : CorrelatorFaithful almost := by
  refine ⟨by decide, by decide, ?_, by decide, by decide, by decide⟩
  intro _ i hi
  by_cases h : i < 32
  · have : i = 31 := by change 31 ≤ i at hi; omega
    subst this
    decide
  · exact BitVec.getLsbD_of_ge _ _ (by omega)
theorem faithful_inPayload : CorrelatorFaithful inPayload :=
  ⟨by decide, by decide, fun h => absurd h (by decide), by decide, by decide, by decide⟩
/-- The two pair up to the symbols already passed: entry 3 is passed in `almost`, which has CURSOR = 31. -/
theorem same_almost : SameButPassedSymbols almost { almost with sym := [(3, 5), (31, 1)] } := by
  refine ⟨rfl, ?_⟩
  intro n h1 h2
  have h2' : (32#32 - n).toNat ≤ 1 := h2
  have h1' : 1 ≤ (32#32 - n).toNat := h1
  have : n = 31#32 := by bv_omega
  subst this
  decide
theorem reachable_fresh : Reachable tiny fresh := .reset
theorem reachable_delivered : Reachable tiny (deliver [.word 0x0100012A, .reset, .word 0xFF000000] fresh) := .deliver _ _ .reset

/-! ### Witnesses: each statement's hypotheses are met together, every clause's at the ends of its range -/

theorem witness_DecodeOfEncodeIsIdentity :
    Instr.shaped tiny (.processBuffer 0xFFFFFF quarter) = true ∧ Instr.shaped tiny (.readReg 0xFFFF 255) = true := by decide
theorem witness_EncodeOfDecodeIsIdentity :
    decode tiny [0x02FFFFFF, 1, 2, 3, 4, 5] = .ok (.processBuffer 0xFFFFFF [1, 2, 3, 4], [5]) := by decide
/-- The first and the last header word of each clause, and the words a PROCESS_BUFFER needs. -/
theorem witness_HeaderFieldsStandAtTheirBits :
    [0x01000000#32, 0x01FFFFFF, 0x02000000, 0x02FFFFFF, 0x03000000, 0x03FFFFFF, 0x04000000, 0x04FFFFFF, 0x05000000,
      0x05FFFFFF, 0x00000000, 0x00FFFFFF, 0x06000000, 0xFFFFFFFF].map (fun v => v.toNat / 2 ^ 24) =
      [1, 1, 2, 2, 3, 3, 4, 4, 5, 5, 0, 0, 6, 255] ∧ tiny.rawCount ≤ quarter.length := by decide
theorem witness_LengthIsToldFromOpcodeAlone :
    (0x02000000#32).toNat / 2 ^ 24 = 2 ∧ [1#32, 2, 3, 0x00000000].length = tiny.rawCount ∧
    (0x01FFFFFF#32).toNat / 2 ^ 24 ≠ 2 ∧ (0x03000000#32).toNat / 2 ^ 24 ≠ 2 := by decide
theorem witness_StepRunsTheDecodedCommand :
    paramsInBounds tiny = true ∧ decode tiny (0x02000000 :: quarter) = .ok (.processBuffer 0 quarter, []) ∧
    ({ almost with hostIn := (0x02000000 :: quarter).map HostEvent.word ++ [.reset] } : State).hostIn =
      (0x02000000 :: quarter).map HostEvent.word ++ [.reset] := ⟨by decide, by decide, rfl⟩
/-- Nothing received, a header alone, and all but the last sample. -/
theorem witness_WaitsForAWholeCommand :
    paramsInBounds ready.params = true ∧ ready.hostIn = [] ∧ (0x02FFFFFF#32).toNat / 2 ^ 24 = 2 ∧
    ([] : List Word).length < ready.params.rawCount ∧ [1#32, 2, 3].length < ready.params.rawCount := by decide
theorem witness_ResetDiscardsAPartialCommand :
    paramsInBounds ready.params = true ∧ (0x02000000#32).toNat / 2 ^ 24 = 2 ∧
    ({ ready with hostIn := .reset :: [.word 1] } : State).hostIn = .reset :: [.word 1] ∧
    ({ ready with hostIn := .word 0x02000000 :: [1#32, 2, 3].map HostEvent.word ++ .reset :: [] } : State).hostIn =
      .word 0x02000000 :: [1#32, 2, 3].map HostEvent.word ++ .reset :: [] ∧
    [1#32, 2, 3].length < ready.params.rawCount := by decide
theorem witness_IllegalOpcodeSetsCmdErrAlone :
    paramsInBounds ready.params = true ∧
    [0x00FFFFFF#32, 0x06000000, 0xFF123456].all (fun v =>
      decide (v.toNat / 2 ^ 24 = 0 ∨ 6 ≤ v.toNat / 2 ^ 24)) = true := by decide
theorem witness_ReservedBitsRejectTheCommand :
    paramsInBounds ready.params = true ∧
    ([.configure 1 true 0, .configure 0x4000 false 0, .processBuffer 1 quarter, .processBuffer 0x800000 quarter,
      .readPacket 1, .readPacket 0x800000, .readReg 1 0, .readReg 0x8000 0xFF, .clearStatus 1 3,
      .clearStatus 0x200000 0] : List Instr).all (fun i => i.shaped ready.params && !i.reservedClear) = true := by decide
/-- Both sides of the equivalence: 257 taps are refused, 256 are not. -/
theorem witness_ParametersOutOfBoundsAreRefused :
    paramsInBounds { tiny with taps := List.replicate 257 0 } = false ∧
    paramsInBounds { tiny with taps := List.replicate 256 (-32768) } = true ∧
    paramsInBounds { tiny with ovh := 255, tapShift := 31 } = true ∧
    paramsInBounds { tiny with ovh := 256 } = false ∧ paramsInBounds { tiny with decim := 3 } = false ∧
    paramsInBounds { tiny with rawCount := 8192 } = true ∧ paramsInBounds { tiny with rawCount := 8194 } = false := by
  decide +kernel
theorem witness_UnconfiguredBufferChangesNothing : fresh.configured = false := by decide
theorem witness_ProcessBufferCompletes :
    paramsInBounds inPayload.params = true ∧ ParseCoherent inPayload ∧ quarter.length = inPayload.params.rawCount :=
  ⟨by decide, coherent_inPayload, by decide⟩
theorem witness_ProcessBufferWritesAndFrame :
    Good inPayload ∧ inPayload.configured = true ∧ quarter.length = inPayload.params.rawCount ∧
    0 < inPayload.params.rawCount / inPayload.params.decim ∧
    ∀ j, j < inPayload.params.rawCount / inPayload.params.decim →
      symEntry (inPayload.w + BitVec.ofNat 32 j) ≠ 55 := by
  refine ⟨good_inPayload, by decide, by decide, by decide, ?_⟩
  intro j hj
  have h : inPayload.params.rawCount / inPayload.params.decim = 2 := by decide
  have : j = 0 ∨ j = 1 := by omega
  rcases this with rfl | rfl <;> decide
/-- Each clause: a nonzero reserved field, a machine not configured, and a buffer that is parsed. -/
theorem witness_ProcessBufferRunsTheParse :
    (1#24 ≠ 0 ∧ 0x800000#24 ≠ 0) ∧ fresh.configured = false ∧
    (inPayload.configured = true ∧ Good inPayload ∧ quarter.length = inPayload.params.rawCount) ∧
    (almost.configured = true ∧ Good almost ∧ quarter.length = almost.params.rawCount) :=
  ⟨by decide, by decide, ⟨by decide, good_inPayload, by decide⟩, by decide, good_almost, by decide⟩
/-- A step and its next state. -/
theorem witness_ResponsesAreOnlyAppended :
    (∃ t, step { full with hostIn := [.word 0x03000000] } = .next t) ∧
    fetch tiny [.word 0x03000000] = .command (.readPacket 0) [] ∧ fetch tiny [.word 0x04000010] = .command (.readReg 0 16) [] ∧
    fetch tiny [] = .idle ∧ fetch tiny [.reset] = .resetAsserted [] ∧ fetch tiny [.word 0] = .illegal [] :=
  ⟨next_of_isSome (by decide +kernel), by decide, by decide, by decide, by decide, by decide⟩
theorem witness_PeakIsTheMaximum : quarter ≠ [] ∧ [1#32, 2, 3].Perm [3, 2, 1] := by decide
/-- The ends of the range of each clause. -/
theorem witness_Decibel :
    (1 ≤ 1 ∧ 1 < 2 ^ 32) ∧ (1 ≤ 2 ^ 32 - 1 ∧ 2 ^ 32 - 1 < 2 ^ 32) ∧ (1 ≤ 2 ^ 31 ∧ 2 ^ 31 ≤ 2 ^ 31) ∧
    (1 ≤ 2 ^ 30 ∧ 2 * 2 ^ 30 ≤ 2 ^ 31) ∧ (1 ≤ 214748364 ∧ 10 * 214748364 ≤ 2 ^ 31) ∧ (0 ≤ 0 ∧ 0 < 2 ^ 32) := by decide
theorem witness_ReferenceDecimatorSelects : (List.replicate 2048 7#32).length = 2048 := List.length_replicate
/-- The first and the last output, the one entry of the history, and a sum on each side of the clamp. -/
theorem witness_DecimatorIsTheTapFilter :
    paramsInBounds tiny = true ∧ quarter.length = tiny.rawCount ∧ [7#32].length = tiny.taps.length - 1 ∧
    0 < tiny.rawCount / tiny.decim ∧ 1 < tiny.rawCount / tiny.decim ∧ 1 ≤ tiny.taps.length - 1 ∧
    paramsInBounds { tiny with taps := [32767, -32768], tapShift := 0 } = true := by decide
theorem witness_AssemblerLinesEncode :
    Reg.ofNumber 0x00 = some .status ∧ Reg.ofNumber 0x10 = some .pendingLen ∧ Reg.ofNumber 0x11 = none := by decide
theorem witness_DecimationIsContinuousAcrossBuffers :
    paramsInBounds tiny = true ∧ quarter.length = tiny.rawCount ∧ [7#32].length = tiny.ntaps - 1 := by decide
theorem witness_FilterHistoryIsClearedOnRequest :
    (∃ t, exec (.configure 0 true 9) { ready with fhist := [3] } = .next t ∧ 0#32 ∈ t.fhist) ∧
    (∃ t, exec (.configure 0 false 9) { ready with fhist := [3] } = .next t) ∧
    0#32 ∈ (assertReset [] { ready with fhist := [3] }).fhist :=
  ⟨⟨_, rfl, by decide⟩, ⟨_, rfl⟩, by decide⟩
/-- Just held, and held at the full depth of the store. -/
theorem witness_ExtractByteIsLeastSignificantFirst :
    (9 ≤ (inHeader.w - 39).toNat ∧ (inHeader.w - 39).toNat = 9) ∧
    (({ inHeader with w := 8232 } : State).w - 40).toNat = symCap := by decide
/-- Nothing to scan, one undecided symbol, a store full of symbols, and a scan that hits. -/
theorem witness_ScanStopsAtTheFirstHit :
    (ready.pstate = .begin ∧ held ready = 0) ∧ (almost.pstate = .begin ∧ held almost = 1) ∧
    held { ready with w := 8192 } = symCap ∧
    (match beginScan 2 { almost with w := 33, sym := [(31, 1), (32, 0x00020000)] } with
      | .ok (go, t) => go && decide (t.pstate = .header)
      | .error _ => false) = true := by decide +kernel
theorem witness_StepKeepsCorrelatorFaithful :
    CorrelatorFaithful { almost with hostIn := (0x02000000 :: quarter).map HostEvent.word } ∧
    ∃ t, step { almost with hostIn := (0x02000000 :: quarter).map HostEvent.word } = .next t :=
  ⟨⟨faithful_almost.fillBound, faithful_almost.fillOffset, faithful_almost.emptySlots, faithful_almost.matchBound,
    faithful_almost.matchLow, faithful_almost.afterHit⟩, next_of_isSome (by decide +kernel)⟩
/-- A turn of each of the three states that proceeds, and one that defers. -/
theorem witness_ParseStatesCycle :
    (∃ t, parseStep { almost with w := 33, sym := [(31, 1), (32, 0x00020000)] } = .ok (true, t)) ∧
    (∃ t, parseStep { inHeader with w := 49 } = .ok (true, t)) ∧
    (∃ t, parseStep { inPayload with w := 57 } = .ok (true, t)) ∧ parseStep inHeader = .ok (false, inHeader) ∧
    (∃ t, exec (.configure 0 true 9) inPayload = .next t) :=
  ⟨⟨_, rfl⟩, ⟨_, rfl⟩, ⟨_, rfl⟩, rfl, ⟨_, rfl⟩⟩
/-- 16 symbols, 17 symbols, and a store full of symbols. -/
theorem witness_HeaderStepReadsTheHeader :
    inHeader.pend.acc.wf accCap = true ∧ held inHeader = 16 ∧ held { inHeader with w := 49 } = 17 ∧
    held { inHeader with w := 8224 } = symCap := by decide
/-- PLEN = 1 with 8 and with 9 symbols; PSIZE = 5 and 6 on the two sides of the DEVID rule; PLEN = 510 and PLEN = 0. -/
theorem witness_PayloadStepDeliversThePacket :
    inPayload.pend.acc.wf accCap = true ∧ inPayload.pend.psize.toNat ≤ inPayload.pend.plen.toNat ∧
    held inPayload = 8 * inPayload.pend.plen.toNat ∧ held { inPayload with w := 57 } = 9 ∧
    (let s := { inPayload with w := 4129, pend := { inPayload.pend with psize := 255, plen := 510 } }
     s.pend.psize.toNat ≤ s.pend.plen.toNat ∧ s.pend.plen.toNat ≤ 510 ∧ held s = 8 * s.pend.plen.toNat + 1) ∧
    (let s := { inPayload with w := 89, pend := { inPayload.pend with psize := 5, plen := 5 } }
     s.pend.psize.toNat ≤ s.pend.plen.toNat ∧ held s = 8 * s.pend.plen.toNat + 1) ∧
    (let s := { inPayload with w := 97, pend := { inPayload.pend with psize := 6, plen := 6 } }
     s.pend.psize.toNat ≤ s.pend.plen.toNat ∧ held s = 8 * s.pend.plen.toNat + 1) ∧
    (let s := { inPayload with w := 49, pend := { inPayload.pend with psize := 0, plen := 0 } }
     s.pend.psize.toNat ≤ s.pend.plen.toNat ∧ held s = 8 * s.pend.plen.toNat + 1) := by decide
theorem witness_ParseEndsOnlyWhenNothingProceeds : ∃ t, parse { inPayload with w := 58 } = .ok t := ⟨_, rfl⟩
theorem witness_EnqueueDropsTheNewest : seven.qcount.toNat < 8 ∧ 8 ≤ full.qcount.toNat := by decide
theorem witness_ReadsAndTheirSideEffects :
    (0 < full.qcount.toNat ∧ full.qcount.toNat ≤ 8) ∧ 0 < ({ ready with qcount := 1 } : State).qcount.toNat ∧
    (0x10#8).toNat ≤ 0x10 ∧ (0x00#8).toNat ≤ 0x10 := by decide
/-- A buffer that completes a packet, with room for one more record and with a full queue. -/
theorem witness_BufferOnlyAppendsToTheQueue :
    (∃ t, exec (.processBuffer 0 quarter) { inPayload with qcount := 7 } = .next t) ∧
    (∃ t, exec (.processBuffer 0 quarter) { inPayload with qcount := 8 } = .next t) ∧
    ({ inPayload with qcount := 8 } : State).qcount.toNat ≤ 8 :=
  ⟨next_of_isSome (by decide +kernel), next_of_isSome (by decide +kernel), by decide⟩
theorem witness_RecordsPerBufferAreBounded :
    paramsInBounds inPayload.params = true ∧ ParseCoherent inPayload ∧
    ∃ t, exec (.processBuffer 0 quarter) inPayload = .next t :=
  ⟨by decide, coherent_inPayload, next_of_isSome (by decide +kernel)⟩
theorem witness_StepKeepsParseCoherent :
    ParseCoherent { inPayload with hostIn := (0x02000000 :: quarter).map HostEvent.word } ∧
    ∃ t, step { inPayload with hostIn := (0x02000000 :: quarter).map HostEvent.word } = .next t :=
  ⟨by constructor <;> decide, next_of_isSome (by decide +kernel)⟩
theorem witness_StepKeepsStoresCanonical :
    StoresCanonical { inPayload with hostIn := (0x02000000 :: quarter).map HostEvent.word } ∧
    ∃ t, step { inPayload with hostIn := (0x02000000 :: quarter).map HostEvent.word } = .next t :=
  ⟨by constructor <;> decide, next_of_isSome (by decide +kernel)⟩
theorem witness_ResetIsGood : paramsInBounds tiny = true ∧ paramsInBounds Params.reference = true := by decide
theorem witness_EveryStepCompletes : paramsInBounds inPayload.params = true ∧ ParseCoherent inPayload :=
  ⟨by decide, coherent_inPayload⟩
theorem witness_ReachableStatesAreGoodAndGoOn :
    paramsInBounds tiny = true ∧ Reachable tiny (deliver [.word 0x0100012A, .reset, .word 0xFF000000] fresh) :=
  ⟨by decide, reachable_delivered⟩
theorem witness_ParametersNeverChange : ∃ t, step { ready with hostIn := [.reset] } = .next t := ⟨_, rfl⟩
/-- A full queue; and steps that clear each sticky bit, by CLEAR_STATUS and by reset. -/
theorem witness_StickyBitsStayUntilCleared :
    qDepth ≤ full.qcount.toNat ∧
    (let s := { ready with cmdErr := true, qOvf := true, hostIn := [.word 0x05000003] }
     s.cmdErr = true ∧ s.qOvf = true ∧ (after (step s)).cmdErr = false ∧ (after (step s)).qOvf = false ∧
       (nextOf (step s)).isSome = true) ∧
    (let s := { ready with cmdErr := true, qOvf := true, hostIn := [.word 0x02000000, .reset] }
     (after (step s)).cmdErr = false ∧ (after (step s)).qOvf = false ∧ (nextOf (step s)).isSome = true) := by decide
theorem witness_PktAvailIsALevel :
    let s := { ready with qcount := 1, hostIn := [.word 0x03000000] }
    pktAvail s = true ∧ pktAvail (after (step s)) = false ∧ (nextOf (step s)).isSome = true := by decide +kernel
theorem witness_ConfigurationStaysUntilReset :
    (let s := { ready with hostIn := [.reset] }
     s.configured = true ∧ (after (step s)).configured = false ∧ (nextOf (step s)).isSome = true) ∧
    (let s := { ready with hostIn := [.word 0x01000007] }
     (after (step s)).channel ≠ s.channel ∧ (nextOf (step s)).isSome = true) := by decide
/-- A READ_REG is neither; nor is a rejected CONFIGURE or PROCESS_BUFFER. -/
theorem witness_OtherCommandsLeaveTheParseAlone :
    (∃ t, step { inPayload with hostIn := [.word 0x01000207] } = .next t) ∧
    fetch tiny [.word 0x01000207] = .command (.configure 1 false 7) [] ∧
    fetch tiny (.word 0x02000001 :: quarter.map HostEvent.word) = .command (.processBuffer 1 quarter) [] ∧
    fetch tiny [.word 0x04000000] = .command (.readReg 0 0) [] :=
  ⟨⟨_, rfl⟩, by decide, by decide, by decide⟩
theorem witness_NothingAfterConfigureDependsOnEarlierSymbols :
    (∀ rf : Bool, ∃ t : State, t.pstate ≠ almost.pstate ∧ t.corr ≠ almost.corr ∧ t.sym ≠ almost.sym ∧
      t = { almost with
        sym := t.sym
        configured := t.configured
        channel := t.channel
        pstate := t.pstate
        cursor := t.cursor
        corr := t.corr
        pend := t.pend
        fhist := if rf then t.fhist else almost.fhist }) ∧
    (∃ ev t,
      Good { almost with hostIn := ev } ∧ Good { almost with sym := [(3, 5), (31, 1)], hostIn := ev } ∧
      SameButPassedSymbols { almost with hostIn := ev } { almost with sym := [(3, 5), (31, 1)], hostIn := ev } ∧
      step { almost with hostIn := ev } = .next t) := by
  refine ⟨fun rf => ⟨{ almost with
      sym := [(3, 5)], configured := false, channel := 9, pstate := .payload, cursor := 7, corr := hitCorr,
      pend := inPayload.pend, fhist := if rf then [5] else almost.fhist }, by decide +revert, by decide +revert,
      by decide +revert, by cases rf <;> rfl⟩, (0x02000000 :: quarter).map HostEvent.word, ?_⟩
  obtain ⟨t, ht⟩ := next_of_isSome (o := step { almost with hostIn := (0x02000000 :: quarter).map HostEvent.word })
    (by decide +kernel)
  exact ⟨t, ⟨by decide, by constructor <;> decide, by constructor <;> decide⟩,
    ⟨by decide, by constructor <;> decide, by constructor <;> decide⟩, ⟨rfl, same_almost.2⟩, ht⟩

end Sys2Proof.Tests
end

