-- ==== Sys2Proof/Proofs/Scope.lean ====
section
/-! PROOFS. Sys2Proof/Proofs/Scope.lean: which parameters the model accepts (R9), and that a step is refused for no other
reason. -/

namespace Sys2Proof.Machine

/-- The test of the parameters says the bounds of R9. -/
theorem paramsInBounds_iff (p : Params) :
    paramsInBounds p = true ↔
      1 ≤ p.decim ∧ 1 ≤ p.rawCount ∧ p.rawCount % p.decim = 0 ∧
        1 ≤ p.rawCount / p.decim ∧ p.rawCount / p.decim ≤ 4096 ∧
        1 ≤ p.taps.length ∧ p.taps.length ≤ 256 ∧
        (∀ t ∈ p.taps, -32768 ≤ t ∧ t ≤ 32767) ∧ p.tapShift ≤ 31 ∧ p.ovh ≤ 255 := by
  simp only [paramsInBounds, Bool.and_eq_true, decide_eq_true_eq, List.all_eq_true, and_assoc]
  rfl

/-- PROCESS_BUFFER is refused only where it does not carry RAW_COUNT samples. -/
theorem execProcessBuffer_refused {z : BitVec 24} {raw : List Word} {s : State} {r : Refusal}
    (h : execProcessBuffer z raw s = .refused r) : raw.length ≠ s.params.rawCount := by
  unfold execProcessBuffer at h
  split at h
  · cases h
  · split at h
    · cases h
    · split at h
      next hl => exact hl
      next => split at h <;> cases h

/-- A shaped command is never refused: the four commands of one word always answer a next state. -/
theorem exec_ne_refused_of_shaped {i : Instr} {s : State} (hi : i.shaped s.params = true) (r : Refusal) :
    exec i s ≠ .refused r := by
  intro h
  cases i with
  | configure z rf sel =>
    simp only [exec, execConfigure] at h
    split at h <;> cases h
  | processBuffer z raw => exact execProcessBuffer_refused h (by simpa [Instr.shaped] using hi)
  | readPacket z =>
    simp only [exec, execReadPacket] at h
    split at h
    · cases h
    · split at h <;> cases h
  | readReg z reg =>
    simp only [exec, execReadReg] at h
    split at h
    · cases h
    · split at h <;> cases h
  | clearStatus z mask =>
    simp only [exec, execClearStatus] at h
    split at h <;> cases h

/-- A step is refused exactly where the parameters fail the test, and with that reason: every command it fetches is
shaped. -/
theorem step_refused_iff (s : State) (r : Refusal) :
    step s = .refused r ↔ paramsInBounds s.params = false ∧ r = .parametersOutOfBounds := by
  constructor
  · intro h
    unfold step at h
    split at h
    · split at h
      · cases h
      · cases h
      · cases h
      next i rest hf =>
        exact absurd h (exec_ne_refused_of_shaped (s := { s with hostIn := rest }) (fetch_command_shaped hf) r)
    next hp =>
      injection h with hr
      exact ⟨Bool.eq_false_of_not_eq_true hp, hr.symm⟩
  · rintro ⟨hp, rfl⟩
    simp [step, hp]

/-- Settles O12: a step is refused for its parameters alone, and the test of the parameters is R9. -/
theorem parametersOutOfBoundsAreRefused : Obligations.ParametersOutOfBoundsAreRefused := by
  intro s
  rw [step_refused_iff, ← paramsInBounds_iff, Bool.not_eq_true]
  exact and_iff_left rfl

end Sys2Proof.Machine
end

