-- ==== Sys2Proof/Proofs/StateStep.lean ====
section
/-! PROOFS. Sys2Proof/Proofs/StateStep.lean: everything a command and a step can do to the state, said once, and the one
induction over steps that every invariant between commands is derived from (R50, R101, R102, R108 to R112). -/

namespace Sys2Proof.Machine

/-! ### What a command can do -/

/-- The state a well-formed CONFIGURE leaves (R101). -/
def configuredState (rf : Bool) (sel : BitVec 8) (s : State) : State :=
  { s with
    configured := true
    channel := sel
    pstate := .begin
    cursor := s.w
    corr := Correlator.clear
    pend := Pending.clear
    fhist := if rf then List.replicate (s.params.ntaps - 1) 0 else s.fhist }

theorem execConfigure_zero (rf : Bool) (sel : BitVec 8) (s : State) :
    execConfigure 0 rf sel s = .next (configuredState rf sel s) := by
  cases rf <;> rfl

/-- Everything a command can do when it answers a next state: it is rejected, it does nothing but answer, or it is one of
the four commands that change the state otherwise, with its reserved field 0. -/
inductive Executed : Instr → State → State → Prop where
  | rejected (i : Instr) (s : State) (c : CmdErrorCause) (answer : List Word) :
      Executed i s (raiseCmdError c (respondAll answer s))
  | answered (i : Instr) (s : State) (answer : List Word) : Executed i s (respondAll answer s)
  | configured (rf : Bool) (sel : BitVec 8) (s : State) :
      Executed (.configure 0 rf sel) s (configuredState rf sel s)
  | parsed (raw : List Word) (s t : State) :
      s.configured = true → parse (ingest raw s) = .ok t → Executed (.processBuffer 0 raw) s t
  | dequeued (s : State) (answer : List Word) :
      s.qcount ≠ 0 → Executed (.readPacket 0) s (dequeue (respondAll answer s))
  | cleared (mask : BitVec 2) (s : State) :
      Executed (.clearStatus 0 mask) s
        { s with cmdErr := s.cmdErr && !mask.getLsbD 0, qOvf := s.qOvf && !mask.getLsbD 1 }

theorem respondAll_nil (s : State) : respondAll [] s = s := by simp [respondAll]

theorem Executed.rejected_silently (i : Instr) (s : State) (c : CmdErrorCause) :
    Executed i s (raiseCmdError c s) := by
  simpa [respondAll_nil] using Executed.rejected i s c []

theorem Executed.of_configure {z : BitVec 15} {rf : Bool} {sel : BitVec 8} {s t : State}
    (h : execConfigure z rf sel s = .next t) : Executed (.configure z rf sel) s t := by
  by_cases hz : z = 0
  · subst hz
    rw [execConfigure_zero] at h
    injection h with h
    exact h ▸ .configured rf sel s
  · rw [execConfigure, if_pos hz] at h
    injection h with h
    exact h ▸ .rejected_silently _ s _

theorem Executed.of_processBuffer {z : BitVec 24} {raw : List Word} {s t : State}
    (h : execProcessBuffer z raw s = .next t) : Executed (.processBuffer z raw) s t := by
  rcases execProcessBuffer_cases h with ⟨-, rfl⟩ | ⟨-, -, rfl⟩ | ⟨rfl, hcfg, -, hp⟩
  · exact .rejected_silently _ s _
  · simpa [respondAll_nil] using Executed.answered (.processBuffer z raw) t []
  · exact .parsed raw s t hcfg hp

theorem Executed.of_readPacket {z : BitVec 24} {s t : State} (h : execReadPacket z s = .next t) :
    Executed (.readPacket z) s t := by
  unfold execReadPacket at h
  split at h
  · injection h with h
    exact h ▸ .rejected _ s _ [0]
  · split at h
    · injection h with h
      exact h ▸ .answered _ s [0]
    next hz hq =>
      obtain rfl : z = 0 := by simpa using hz
      injection h with h
      exact h ▸ .dequeued s _ hq

theorem Executed.of_readReg {z : BitVec 16} {reg : BitVec 8} {s t : State} (h : execReadReg z reg s = .next t) :
    Executed (.readReg z reg) s t := by
  unfold execReadReg at h
  split at h
  · injection h with h
    exact h ▸ .rejected _ s _ [0]
  · split at h
    · injection h with h
      exact h ▸ .rejected _ s _ [0]
    next r _ =>
      injection h with h
      exact h ▸ .answered _ s [regValue s r]

theorem Executed.of_clearStatus {z : BitVec 22} {mask : BitVec 2} {s t : State}
    (h : execClearStatus z mask s = .next t) : Executed (.clearStatus z mask) s t := by
  unfold execClearStatus at h
  split at h
  · injection h with h
    exact h ▸ .rejected_silently _ s _
  next hz =>
    obtain rfl : z = 0 := by simpa using hz
    injection h with h
    exact h ▸ .cleared mask s

/-- Every next state that a command answers is one of the six kinds. -/
theorem Executed.of_exec {i : Instr} {s t : State} (h : exec i s = .next t) : Executed i s t := by
  cases i with
  | configure z rf sel => exact .of_configure h
  | processBuffer z raw => exact .of_processBuffer h
  | readPacket z => exact .of_readPacket h
  | readReg z reg => exact .of_readReg h
  | clearStatus z mask => exact .of_clearStatus h

/-- A shaped command completes, if the parse of a well-formed PROCESS_BUFFER does. -/
theorem exec_completes {i : Instr} {s : State} (hi : i.shaped s.params = true)
    (hp : ∀ raw, s.configured = true → ∃ t, parse (ingest raw s) = .ok t) : ∃ t, exec i s = .next t := by
  cases i with
  | processBuffer z raw =>
    have hl : raw.length = s.params.rawCount := by simpa [Instr.shaped] using hi
    simp only [exec, execProcessBuffer]
    split
    · exact ⟨_, rfl⟩
    · split
      · exact ⟨_, rfl⟩
      next hcfg =>
        obtain ⟨t, ht⟩ := hp raw (by simpa using hcfg)
        exact ⟨t, by rw [if_neg (by simp [hl]), ht]⟩
  | configure z rf sel =>
    simp only [exec, execConfigure]
    split <;> exact ⟨_, rfl⟩
  | readPacket z =>
    simp only [exec, execReadPacket]
    split
    · exact ⟨_, rfl⟩
    · split <;> exact ⟨_, rfl⟩
  | readReg z reg =>
    simp only [exec, execReadReg]
    split
    · exact ⟨_, rfl⟩
    · split <;> exact ⟨_, rfl⟩
  | clearStatus z mask =>
    simp only [exec, execClearStatus]
    split <;> exact ⟨_, rfl⟩

/-! ### What a step can do -/

/-- What every step that is no reset, no CONFIGURE and no parsed PROCESS_BUFFER leaves: the parameters, the whole parse, the
stores, and a queue that is no longer than it was (R112, R130). -/
structure ContextKept (s t : State) : Prop where
  params : t.params = s.params
  configured : t.configured = s.configured
  pstate : t.pstate = s.pstate
  w : t.w = s.w
  sym : t.sym = s.sym
  cursor : t.cursor = s.cursor
  corr : t.corr = s.corr
  syncCapture : t.syncCapture = s.syncCapture
  pend : t.pend = s.pend
  fhist : t.fhist = s.fhist
  bufCount : t.bufCount = s.bufCount
  qcount : t.qcount.toNat ≤ s.qcount.toNat

theorem ContextKept.held_eq {s t : State} (h : ContextKept s t) : held t = held s := by
  rw [held, held, h.w, h.cursor]

theorem contextKept_hostIn (s : State) (rest : List HostEvent) : ContextKept s { s with hostIn := rest } :=
  ⟨rfl, rfl, rfl, rfl, rfl, rfl, rfl, rfl, rfl, rfl, rfl, le_rfl⟩

theorem contextKept_answered (s : State) (answer : List Word) : ContextKept s (respondAll answer s) :=
  ⟨rfl, rfl, rfl, rfl, rfl, rfl, rfl, rfl, rfl, rfl, rfl, le_rfl⟩

theorem contextKept_rejected (s : State) (c : CmdErrorCause) (answer : List Word) :
    ContextKept s (raiseCmdError c (respondAll answer s)) :=
  ⟨rfl, rfl, rfl, rfl, rfl, rfl, rfl, rfl, rfl, rfl, rfl, le_rfl⟩

theorem contextKept_dequeued {s : State} (answer : List Word) (h : s.qcount ≠ 0) :
    ContextKept s (dequeue (respondAll answer s)) :=
  ⟨rfl, rfl, rfl, rfl, rfl, rfl, rfl, rfl, rfl, rfl, rfl, by
    show (s.qcount - 1).toNat ≤ s.qcount.toNat
    bv_omega⟩

theorem contextKept_cleared (s : State) (mask : BitVec 2) :
    ContextKept s { s with cmdErr := s.cmdErr && !mask.getLsbD 0, qOvf := s.qOvf && !mask.getLsbD 1 } :=
  ⟨rfl, rfl, rfl, rfl, rfl, rfl, rfl, rfl, rfl, rfl, rfl, le_rfl⟩

/-- The induction over steps: what depends on the parse, the stores and a bound on the queue alone, and what reset,
CONFIGURE and a parsed PROCESS_BUFFER keep, every step keeps. -/
theorem step_keeps {P : State → Prop}
    (hframe : ∀ s t, ContextKept s t → P s → P t)
    (hreset : ∀ s rest, P s → P (assertReset rest s))
    (hconfigure : ∀ s rf sel, P s → P (configuredState rf sel s))
    (hbuffer : ∀ s t raw, s.configured = true → parse (ingest raw s) = .ok t → P s → P t)
    {s t : State} (hs : P s) (h : step s = .next t) : P t := by
  obtain ⟨-, hc⟩ := step_cases h
  rcases hc with ⟨-, rfl⟩ | ⟨rest, -, rfl⟩ | ⟨rest, -, rfl⟩ | ⟨i, rest, -, he⟩
  · exact hs
  · exact hreset s rest hs
  · have hs' := hframe _ _ (contextKept_hostIn s rest) hs
    have hk := contextKept_rejected { s with hostIn := rest } .illegalOp []
    rw [respondAll_nil] at hk
    exact hframe _ _ hk hs'
  · have hs' := hframe _ _ (contextKept_hostIn s rest) hs
    cases Executed.of_exec he with
    | rejected _ _ c answer => exact hframe _ _ (contextKept_rejected _ c answer) hs'
    | answered _ _ answer => exact hframe _ _ (contextKept_answered _ answer) hs'
    | configured rf sel _ => exact hconfigure _ rf sel hs'
    | parsed raw _ _ hcfg hp => exact hbuffer _ _ raw hcfg hp hs'
    | dequeued _ answer hq => exact hframe _ _ (contextKept_dequeued answer hq) hs'
    | cleared mask _ => exact hframe _ _ (contextKept_cleared _ mask) hs'

end Sys2Proof.Machine
end

