-- ==== Sys2Proof/Proofs/ParseTurns.lean ====
section
/-! PROOFS. Sys2Proof/Proofs/ParseTurns.lean: what one turn of PARSE does to PSTATE and to the symbols ahead of CURSOR, that
PARSE returns only where nothing proceeds, and when it completes (R89, R90). -/

namespace Sys2Proof.Machine

/-! ### One turn -/

theorem held_corrNext {s : State} (bit : Bool) (h : 1 ≤ held s) : held (corrNext s bit) = held s - 1 := by
  rw [held, corrNext_w, corrNext_cursor]
  exact distance_succ (k := 1) h

/-- HEADER_STEP passes 16 symbols. -/
theorem held_headerDone {s : State} (m : Memory 8) (h : 16 ≤ held s) :
    held (headerDone (withAcc s m)) = held s - 16 := by
  rw [held, headerDone_w, headerDone_cursor]
  exact distance_succ (k := 16) h

/-- PAYLOAD_STEP passes 8 * PLEN symbols. -/
theorem held_payloadDone {s : State} (m : Memory 8) (h : 8 * s.pend.plen.toNat ≤ held s) :
    held (payloadDone (withAcc s m)) = held s - 8 * s.pend.plen.toNat := by
  rw [held, payloadDone_w, payloadDone_cursor]
  exact distance_succ h

/-- Everything BEGIN_SCAN can answer: a hit, at least one symbol further on; or no hit, and then, with turns enough, no
defined bit is left. -/
theorem beginScan_cases {fuel : Nat} {s : State} {r : Bool × State} (hb : s.pstate = .begin)
    (h : beginScan fuel s = .ok r) :
    (r.1 = true ∧ r.2.pstate = .header ∧ held r.2 < held s) ∨
      (r.1 = false ∧ r.2.pstate = .begin ∧ (held s ≤ fuel → held r.2 ≤ 1)) := by
  induction fuel generalizing s with
  | zero =>
    injection h with h
    subst h
    exact .inr ⟨rfl, hb, fun hf => by simp only; omega⟩
  | succ n ih =>
    unfold beginScan at h
    split at h
    next hd =>
      obtain ⟨u, hu, h⟩ := except_bind_ok.1 h
      obtain rfl := corrStep_ok hu
      have hheld := held_corrNext (bitAt s s.cursor) (show 1 ≤ held s by omega)
      split at h
      next hhit =>
        rw [except_pure_ok] at h
        subst h
        exact .inl ⟨rfl, hhit, by simp only; omega⟩
      next hno =>
        have hb' : (corrNext s (bitAt s s.cursor)).pstate = .begin := by
          rw [corrNext_pstate] at hno ⊢
          split
          next hhit => exact absurd (if_pos hhit) hno
          · exact hb
        rcases ih hb' h with ⟨h1, h2, h3⟩ | ⟨h1, h2, h3⟩
        · exact .inl ⟨h1, h2, by omega⟩
        · exact .inr ⟨h1, h2, fun hf => h3 (by omega)⟩
    · injection h with h
      subst h
      exact .inr ⟨rfl, hb, fun _ => by simp only; omega⟩

/-- Everything a turn that proceeds can do to PSTATE and to the symbols ahead. -/
theorem parseStep_proceeds {s t : State} (h : parseStep s = .ok (true, t)) :
    (s.pstate = .begin ∧ t.pstate = .header ∧ held t < held s) ∨
      (s.pstate = .header ∧ t.pstate = .payload ∧ held t + 16 = held s) ∨
      (s.pstate = .payload ∧ t.pstate = .begin ∧ held t ≤ held s) := by
  unfold parseStep at h
  split at h
  next hb =>
    rcases beginScan_cases hb h with ⟨-, h2, h3⟩ | ⟨h1, -, -⟩
    · exact .inl ⟨hb, h2, h3⟩
    · cases h1
  next hb =>
    rcases headerStep_cases h with ⟨-, hr⟩ | ⟨hd, hr⟩
    · cases hr
    · injection hr with _ hr
      subst hr
      exact .inr (.inl ⟨hb, rfl, by rw [held_headerDone _ (by omega)]; omega⟩)
  next hb =>
    rcases payloadStep_cases h with ⟨-, hr⟩ | ⟨hd, hr⟩
    · cases hr
    · injection hr with _ hr
      subst hr
      exact .inr (.inr ⟨hb, payloadDone_pstate _, by rw [held_payloadDone _ (by omega)]; omega⟩)

/-- What a turn that does not proceed leaves: PSTATE as it was, and too few symbols for the state the parse is in. -/
theorem parseStep_stops {s t : State} (h : parseStep s = .ok (false, t)) :
    (s.pstate = .begin ∧ t.pstate = .begin ∧ held t ≤ 1) ∨
      (s.pstate = .header ∧ t = s ∧ held s ≤ 16) ∨
      (s.pstate = .payload ∧ t = s ∧ held s ≤ 8 * s.pend.plen.toNat) := by
  unfold parseStep at h
  split at h
  next hb =>
    rcases beginScan_cases hb h with ⟨h1, -, -⟩ | ⟨-, h2, h3⟩
    · cases h1
    · exact .inl ⟨hb, h2, h3 le_rfl⟩
  next hb =>
    rcases headerStep_cases h with ⟨hd, hr⟩ | ⟨-, hr⟩
    · injection hr with _ hr
      exact .inr (.inl ⟨hb, hr, by omega⟩)
    · cases hr
  next hb =>
    rcases payloadStep_cases h with ⟨hd, hr⟩ | ⟨-, hr⟩
    · injection hr with _ hr
      exact .inr (.inr ⟨hb, hr, by omega⟩)
    · cases hr

/-- BEGIN_SCAN with no defined bit left does nothing. -/
theorem beginScan_of_few {s : State} (h : held s ≤ 1) (fuel : Nat) : beginScan fuel s = .ok (false, s) := by
  cases fuel with
  | zero => rfl
  | succ n => rw [beginScan, if_neg (by omega)]

/-- A turn after one that did not proceed does not proceed either. -/
theorem parseStep_stops_again {s t : State} (h : parseStep s = .ok (false, t)) : parseStep t = .ok (false, t) := by
  rcases parseStep_stops h with ⟨-, hb, hd⟩ | ⟨-, rfl, -⟩ | ⟨-, rfl, -⟩
  · simp only [parseStep, hb]
    exact beginScan_of_few hd _
  · exact h
  · exact h

/-! ### PARSE -/

/-- A bound on the turns that can still proceed: every one lowers it (R90). -/
def turnsLeft (s : State) : Nat := 2 * held s + if s.pstate = .payload then 1 else 0

theorem turnsLeft_decreases {s t : State} (h : parseStep s = .ok (true, t)) : turnsLeft t < turnsLeft s := by
  rcases parseStep_proceeds h with ⟨h1, h2, h3⟩ | ⟨h1, h2, h3⟩ | ⟨h1, h2, h3⟩ <;>
  · simp only [turnsLeft, h1, h2, reduceCtorEq, if_false, if_true]
    omega

/-- The loop of PARSE, with turns enough, ends only in a state in which nothing proceeds. -/
theorem parseLoop_ends {fuel : Nat} {s t : State} (hf : turnsLeft s < fuel) (h : parseLoop fuel s = .ok t) :
    parseStep t = .ok (false, t) := by
  induction fuel generalizing s with
  | zero => omega
  | succ n ih =>
    obtain ⟨⟨go, u⟩, hr, h⟩ := except_bind_ok.1 h
    cases go with
    | true =>
      have := turnsLeft_decreases hr
      exact ih (s := u) (by omega) h
    | false =>
      obtain rfl := except_pure_ok.1 h
      exact parseStep_stops_again hr

/-- The bound on PARSE's turns is more than the turns that can proceed. -/
theorem turnsLeft_lt_bound (s : State) : turnsLeft s < 2 * held s + 2 := by
  unfold turnsLeft
  split <;> omega

theorem parse_ends {s t : State} (h : parse s = .ok t) : parseStep t = .ok (false, t) :=
  parseLoop_ends (turnsLeft_lt_bound s) h

/-- What is ahead of CURSOR in a state in which nothing proceeds. -/
theorem held_of_stopped {s : State} (h : parseStep s = .ok (false, s)) :
    (s.pstate = .begin → held s ≤ 1) ∧ (s.pstate = .header → held s ≤ 16) ∧
      (s.pstate = .payload → held s ≤ 8 * s.pend.plen.toNat) := by
  rcases parseStep_stops h with ⟨hb, -, hd⟩ | ⟨hb, -, hd⟩ | ⟨hb, -, hd⟩ <;> simp [hb, hd]

/-- What none of the three kinds of turn changes, PARSE leaves as it was. -/
theorem parse_leaves {α : Type} (f : State → α)
    (hcorr : ∀ s bit, f (corrNext s bit) = f s)
    (hheader : ∀ s m, f (headerDone (withAcc s m)) = f s)
    (hpayload : ∀ s m, f (payloadDone (withAcc s m)) = f s)
    {s t : State} (h : parse s = .ok t) : f t = f s := by
  refine parse_keeps (P := fun u => f u = f s) ?corr ?header ?payload rfl h
  case corr =>
    intro u v _ _ hu hv
    rw [corrStep_ok hv, hcorr, hu]
  case header => exact fun u _ _ hu => (hheader u _).trans hu
  case payload => exact fun u _ _ hu => (hpayload u _).trans hu

theorem parse_params {s t : State} (h : parse s = .ok t) : t.params = s.params :=
  parse_leaves State.params (by simp) (by simp) (by simp) h

theorem parse_configured {s t : State} (h : parse s = .ok t) : t.configured = s.configured :=
  parse_leaves State.configured (by simp) (by simp) (by simp) h

theorem parse_channel {s t : State} (h : parse s = .ok t) : t.channel = s.channel :=
  parse_leaves State.channel (by simp) (by simp) (by simp) h

theorem parse_cmdErr {s t : State} (h : parse s = .ok t) : t.cmdErr = s.cmdErr :=
  parse_leaves State.cmdErr (by simp) (by simp) (by simp) h

/-! ### When PARSE completes -/

/-- What PARSE needs to complete: no more symbols ahead of CURSOR than the store holds, and in Payload a PLEN that ACC has
room for (R42, R43). -/
def ParseFits (s : State) : Prop := held s ≤ symCap ∧ (s.pstate = .payload → s.pend.plen.toNat ≤ 510)

theorem beginScan_completes {fuel : Nat} {s : State} (h : held s ≤ symCap) : ∃ r, beginScan fuel s = .ok r := by
  induction fuel generalizing s with
  | zero => exact ⟨_, rfl⟩
  | succ n ih =>
    by_cases hd : 2 ≤ held s
    · rw [beginScan, if_pos hd, corrStep_of_held hd h]
      simp only [bind, Except.bind]
      split
      · exact ⟨_, rfl⟩
      · exact ih (by rw [held_corrNext _ (by omega)]; omega)
    · exact ⟨_, by rw [beginScan, if_neg hd]⟩

theorem parseStep_completes {s : State} (h : ParseFits s) : ∃ r, parseStep s = .ok r := by
  obtain ⟨hheld, hplen⟩ := h
  unfold parseStep
  split
  · exact beginScan_completes hheld
  · by_cases hd : 17 ≤ held s
    · exact ⟨_, headerStep_of_held hd hheld⟩
    · exact ⟨_, by rw [headerStep, if_pos (by simp; omega)]⟩
  next hb =>
    by_cases hd : 8 * s.pend.plen.toNat + 1 ≤ held s
    · exact ⟨_, payloadStep_of_held hd hheld (hplen hb)⟩
    · exact ⟨_, by rw [payloadStep, if_pos (by omega)]⟩

/-- PLEN after HEADER_STEP: PSIZE + OVH, clamped to what ACC has room for (R94). -/
theorem headerDone_plen (s : State) :
    (headerDone s).pend.plen.toNat =
      min ((headerDone s).pend.psize.toNat + (headerDone s).params.ovh) (accCap - hdrBytes) := by
  show (BitVec.ofNat 10 _).toNat = _
  rw [BitVec.toNat_ofNat, Nat.mod_eq_of_lt (by simp only [accCap, hdrBytes]; omega)]
  rfl

/-- A state HEADER_STEP answers in Payload has the clamped PLEN. -/
theorem ParseFits.of_proceeds {s t : State} (hs : ParseFits s) (h : parseStep s = .ok (true, t)) : ParseFits t := by
  obtain ⟨hheld, -⟩ := hs
  rcases parseStep_proceeds h with ⟨-, hp, hd⟩ | ⟨hb, -, hd⟩ | ⟨-, hp, hd⟩
  · exact ⟨by omega, fun hp' => by rw [hp] at hp'; cases hp'⟩
  · refine ⟨by omega, fun _ => ?_⟩
    simp only [parseStep, hb] at h
    rcases headerStep_cases h with ⟨-, hr⟩ | ⟨-, hr⟩
    · cases hr
    · injection hr with _ hr
      rw [hr, headerDone_plen]
      simp only [accCap, hdrBytes]
      omega
  · exact ⟨by omega, fun hp' => by rw [hp] at hp'; cases hp'⟩

/-- PARSE completes from every state that fits. -/
theorem parse_completes {s : State} (h : ParseFits s) : ∃ t, parse s = .ok t := by
  unfold parse
  generalize 2 * held s + 2 = fuel
  induction fuel generalizing s with
  | zero => exact ⟨s, rfl⟩
  | succ n ih =>
    obtain ⟨⟨go, u⟩, hr⟩ := parseStep_completes h
    rw [parseLoop, hr]
    cases go with
    | true => exact ih (h.of_proceeds hr)
    | false => exact ⟨u, rfl⟩

end Sys2Proof.Machine
end

