-- ==== Sys2Proof/Proofs/CorrelatorState.lean ====
section
/-! PROOFS. Sys2Proof/Proofs/CorrelatorState.lean: what the correlator's registers hold: the window in arrival order, the
matched run, and the invariant that every step keeps (R23, R24, R82 to R84, R88). -/

namespace Sys2Proof.Machine

/-! ### COMPARE -/

/-- COMPARE in the registers: LAST_MATCH_LEN bits of the window, from the oldest, are SYNC_WORD's, the next is not, and
MATCH_REG holds those and 0 above (R24, R83). -/
theorem compareWindow_spec (sync : Word) (c : Correlator) :
    let n := (compareWindow sync c).lastMatchLen.toNat
    n ≤ 32 ∧
    (∀ i, i < n → c.win.getLsbD ((c.woff.toNat + 1 + i) % 32) = sync.getLsbD i) ∧
    (n < 32 → c.win.getLsbD ((c.woff.toNat + 1 + n) % 32) ≠ sync.getLsbD n) ∧
    ∀ i, (compareWindow sync c).matchReg.getLsbD i = (decide (i < n) && sync.getLsbD i) := by
  obtain ⟨-, hle, hmatch, hstop, hreg⟩ :=
    compareFrom_spec c.win sync ((c.woff.toNat + 1) % 32) (fuel := 32) (p := 0) 0 le_rfl
  simp only [Nat.zero_add, Nat.zero_le, true_and, true_implies, Nat.mod_add_mod] at hle hmatch hstop hreg
  have hn : (compareWindow sync c).lastMatchLen.toNat =
      (compareFrom c.win sync ((c.woff.toNat + 1) % 32) 32 0 0).2 := by
    show (BitVec.ofNat 6 (compareFrom c.win sync ((c.woff.toNat + 1) % 32) 32 0 0).2).toNat = _
    rw [BitVec.toNat_ofNat, Nat.mod_eq_of_lt (by omega)]
  rw [hn]
  refine ⟨hle, hmatch, hstop, fun i => (hreg i).trans ?_⟩
  split
  next hi => rw [decide_eq_true hi, Bool.true_and]
  next hi => rw [decide_eq_false hi, Bool.false_and]; exact BitVec.getLsbD_zero

/-- Settles O33, by the specification of COMPARE's loop. -/
theorem matchRegistersHoldTheMatchedRun : Obligations.MatchRegistersHoldTheMatchedRun := by
  refine ⟨fun sync c => ?_, fun s => ⟨rfl, rfl⟩⟩
  obtain ⟨hle, hmatch, hstop, hreg⟩ := compareWindow_spec sync c
  refine ⟨hle, fun i hi => ⟨hmatch i hi, ?_⟩, hstop, fun i hi => ?_⟩
  · rw [hreg, hmatch i hi, decide_eq_true hi, Bool.true_and]
  · rw [hreg, decide_eq_false (by omega), Bool.false_and]

/-! ### One more decided bit -/

/-- COMPARE's registers after one more bit: the window with the bit in slot WOFF is compared. -/
theorem pushBit_matched (sync : Word) (bit : Bool) (c : Correlator) :
    (pushBit sync bit c).lastMatchLen.toNat ≤ 32 ∧
      ∀ i, (pushBit sync bit c).matchReg.getLsbD i =
        (decide (i < (pushBit sync bit c).lastMatchLen.toNat) && sync.getLsbD i) := by
  obtain ⟨hle, -, -, hreg⟩ := compareWindow_spec sync
    { c with win := setBit c.win c.woff.toNat bit, fill := BitVec.ofNat 6 (min (c.fill.toNat + 1) 32) }
  exact ⟨hle, hreg⟩

/-- The slots after the one just written hold the window as it was, and the slot written holds the bit. -/
theorem pushBit_slot (sync : Word) (bit : Bool) (c : Correlator) (i : Nat) :
    (pushBit sync bit c).win.getLsbD i = if i = c.woff.toNat then bit else c.win.getLsbD i := by
  rw [pushBit_win, setBit_getLsbD _ _ c.woff.isLt]

/-- Settles O34: slot WOFF holds the oldest bit and is the one overwritten; the slot after it becomes the oldest. -/
theorem windowKeepsArrivalOrder : Obligations.WindowKeepsArrivalOrder := by
  refine fun sync bit c => ⟨?_, pushBit_fill sync bit c⟩
  have hw := c.woff.isLt
  have hnew : (pushBit sync bit c).win.getLsbD (((pushBit sync bit c).woff.toNat + 31) % 32) = bit := by
    rw [pushBit_slot, pushBit_woff, woff_succ_toNat, if_pos (by omega)]
  have hold : ∀ i, i < 31 → (pushBit sync bit c).win.getLsbD (((pushBit sync bit c).woff.toNat + i) % 32) =
      c.win.getLsbD ((c.woff.toNat + (i + 1)) % 32) := by
    intro i hi
    rw [pushBit_slot, pushBit_woff, woff_succ_toNat, if_neg (by omega)]
    congr 1
    omega
  have hlast : windowOldestFirst (pushBit sync bit c) =
      ((List.range 31).map fun i =>
        (pushBit sync bit c).win.getLsbD (((pushBit sync bit c).woff.toNat + i) % 32)) ++ [bit] := by
    rw [windowOldestFirst, List.range_succ, List.map_append, List.map_singleton, hnew]
  have htail : (windowOldestFirst c).tail =
      (List.range 31).map fun i => c.win.getLsbD ((c.woff.toNat + (i + 1)) % 32) := by
    rw [windowOldestFirst, List.range_succ_eq_map, List.map_cons, List.tail_cons, List.map_map]
    rfl
  rw [hlast, htail]
  congr 1
  exact List.map_congr_left fun i hi => hold i (List.mem_range.1 hi)

/-! ### The invariant -/

/-- The invariant reads the parameters, PSTATE, the correlator's registers and SYNC_CAPTURE alone. -/
theorem CorrelatorFaithful.congr {s t : State} (hs : CorrelatorFaithful s) (hparams : t.params = s.params)
    (hcorr : t.corr = s.corr) (hcapture : t.syncCapture = s.syncCapture)
    (hpstate : t.pstate ≠ .begin → s.pstate ≠ .begin) : CorrelatorFaithful t := by
  constructor
  · exact hcorr ▸ hs.fillBound
  · exact hcorr ▸ hs.fillOffset
  · exact hcorr ▸ hs.emptySlots
  · exact hcorr ▸ hs.matchBound
  · rw [hparams]
    exact hcorr ▸ hs.matchLow
  · intro hp
    rw [hparams, hcorr, hcapture]
    exact hs.afterHit (hpstate hp)

/-- A cleared correlator in Begin meets the invariant. -/
theorem correlatorFaithful_of_clear {s : State} (hpstate : s.pstate = .begin) (hcorr : s.corr = Correlator.clear) :
    CorrelatorFaithful s := by
  constructor
  case afterHit => exact fun hp => absurd hpstate hp
  all_goals rw [hcorr]; simp [Correlator.clear]

/-- A correlator step keeps the invariant: a bit goes into the first empty slot while the window fills, and a hit captures
the whole of SYNC_WORD. -/
theorem CorrelatorFaithful.corrNext {s : State} (hs : CorrelatorFaithful s) (hb : s.pstate = .begin) (bit : Bool) :
    CorrelatorFaithful (corrNext s bit) := by
  obtain ⟨hmatch, hreg⟩ := pushBit_matched s.params.syncWord bit s.corr
  have hfill := pushBit_fill s.params.syncWord bit s.corr
  constructor
  case fillBound => rw [corrNext_corr, hfill]; omega
  case fillOffset =>
    rw [corrNext_corr, hfill, pushBit_woff, woff_succ_toNat]
    intro hlt
    rw [hs.fillOffset (by omega)]
    omega
  case emptySlots =>
    rw [corrNext_corr, hfill]
    intro hlt i hi
    have hwoff := hs.fillOffset (by omega)
    rw [pushBit_slot, if_neg (by omega)]
    exact hs.emptySlots (by omega) i (by omega)
  case matchBound => rw [corrNext_corr]; exact hmatch
  case matchLow =>
    rw [corrNext_corr, corrNext_params]
    exact fun i _ => hreg i
  case afterHit =>
    rw [corrNext_pstate, corrNext_corr, corrNext_params, corrNext_syncCapture]
    intro hp
    have hhit : isHit (pushBit s.params.syncWord bit s.corr) = true := by
      by_contra hno
      exact hp (by rw [if_neg hno, hb])
    obtain ⟨hfull, hlen⟩ := (isHit_iff _).1 hhit
    refine ⟨hfull, hlen, ?_⟩
    rw [if_pos hhit]
    ext i hi
    rw [← BitVec.getLsbD_eq_getElem, ← BitVec.getLsbD_eq_getElem, hreg, hlen, decide_eq_true hi, Bool.true_and]

theorem CorrelatorFaithful.parse {s t : State} (hs : CorrelatorFaithful s) (h : parse s = .ok t) :
    CorrelatorFaithful t := by
  refine parse_keeps (P := CorrelatorFaithful) ?corr ?header ?payload hs h
  case corr =>
    intro u v hb _ hu hv
    obtain rfl := corrStep_ok hv
    exact hu.corrNext hb _
  case header =>
    intro u hb _ hu
    exact hu.congr rfl rfl rfl fun _ => by simp [hb]
  case payload =>
    intro u _ _ _
    exact correlatorFaithful_of_clear (payloadDone_pstate _) (payloadDone_corr _)

/-- Settles O38: reset clears the correlator. -/
theorem resetCorrelatorFaithful : Obligations.ResetCorrelatorFaithful :=
  fun _ => correlatorFaithful_of_clear rfl rfl

/-- Settles O37, by the induction over steps; a PROCESS_BUFFER keeps the invariant turn by turn of its parse. -/
theorem stepKeepsCorrelatorFaithful : Obligations.StepKeepsCorrelatorFaithful := by
  intro s t hs h
  refine step_keeps (P := CorrelatorFaithful) ?frame ?reset ?configure ?buffer hs h
  case frame =>
    intro u v hk hu
    exact hu.congr hk.params hk.corr hk.syncCapture fun hp => hk.pstate ▸ hp
  case reset => exact fun u rest _ => correlatorFaithful_of_clear rfl rfl
  case configure => exact fun u rf sel _ => correlatorFaithful_of_clear rfl rfl
  case buffer =>
    intro u v raw _ hp hu
    have hi : CorrelatorFaithful (ingest raw u) := hu.congr (by simp) (by simp) (by simp) (by simp)
    exact hi.parse hp

end Sys2Proof.Machine
end

