-- ==== Sys2Proof/Proofs/StateInvariants.lean ====
section
/-! PROOFS. Sys2Proof/Proofs/StateInvariants.lean: the invariants between commands, kept by every step and met at reset, and the
progress they give: no reachable state stops (R16, R20, R28, R35, R36, R40 to R43, R50). -/

namespace Sys2Proof.Machine

/-! ### Parameters and PSTATE -/

/-- Settles O53, by the induction over steps. -/
theorem parametersNeverChange : Obligations.ParametersNeverChange := by
  intro s t h
  refine step_keeps (P := fun u => u.params = s.params) ?frame ?reset ?configure ?buffer rfl h
  case frame => exact fun u v hk hu => hk.params.trans hu
  case reset => exact fun u rest hu => hu
  case configure => exact fun u rf sel hu => hu
  case buffer =>
    intro u v raw _ hp hu
    rw [parse_params hp, ingest_params, hu]

/-- Settles O39: a turn that proceeds takes one of the three transitions, one that does not keeps PSTATE. -/
theorem parseStatesCycle : Obligations.ParseStatesCycle := by
  refine ⟨fun s t h => ?_, fun s t h => ?_, fun s t rf sel h => ?_, fun s rest => rfl⟩
  · rcases parseStep_proceeds h with ⟨h1, h2, -⟩ | ⟨h1, h2, -⟩ | ⟨h1, h2, -⟩
    · exact .inl ⟨h1, h2⟩
    · exact .inr (.inl ⟨h1, h2⟩)
    · exact .inr (.inr ⟨h1, h2⟩)
  · rcases parseStep_stops h with ⟨h1, h2, -⟩ | ⟨-, rfl, -⟩ | ⟨-, rfl, -⟩
    · rw [h1, h2]
    · rfl
    · rfl
  · rw [exec, execConfigure_zero] at h
    injection h with h
    rw [← h]
    rfl

/-! ### R36 -/

/-- The part of R36 that holds after every turn of PARSE, not only between commands: (b) to (f) without the bounds on the
symbols ahead of CURSOR. -/
structure TurnCoherent (s : State) : Prop where
  inBegin : s.pstate = .begin →
    s.pend.accCur = 0 ∧ s.pend.ptype = 0 ∧ s.pend.psize = 0 ∧ s.pend.plen = 0
  inHeader : s.pstate = .header → s.pend.accCur = 0
  inPayload : s.pstate = .payload →
    s.pend.accCur = 2 ∧ s.pend.plen.toNat = min (s.pend.psize.toNat + s.params.ovh) (accCap - hdrBytes)
  fillBound : s.corr.fill.toNat ≤ 32
  fillOffset : s.corr.fill.toNat < 32 → s.corr.woff.toNat = s.corr.fill.toNat % 32
  queueBound : s.qcount.toNat ≤ qDepth

theorem ParseCoherent.turn {s : State} (h : ParseCoherent s) : TurnCoherent s where
  inBegin hb := by
    obtain ⟨h1, h2, h3, h4, -⟩ := h.inBegin hb
    exact ⟨h1, h2, h3, h4⟩
  inHeader hb := (h.inHeader hb).1
  inPayload hb := by
    obtain ⟨h1, h2, -⟩ := h.inPayload hb
    exact ⟨h1, h2⟩
  fillBound := h.fillBound
  fillOffset := h.fillOffset
  queueBound := h.queueBound

/-- What is ahead of CURSOR when PARSE returns is what R36 allows (R89). -/
theorem TurnCoherent.parseCoherent {s : State} (h : TurnCoherent s) (hcfg : s.configured = true)
    (hstop : parseStep s = .ok (false, s)) : ParseCoherent s := by
  obtain ⟨hbegin, hheader, hpayload⟩ := held_of_stopped hstop
  constructor
  case inBegin =>
    intro hb
    obtain ⟨h1, h2, h3, h4⟩ := h.inBegin hb
    exact ⟨h1, h2, h3, h4, hbegin hb⟩
  case inHeader => exact fun hb => ⟨h.inHeader hb, hheader hb⟩
  case inPayload =>
    intro hb
    obtain ⟨h1, h2⟩ := h.inPayload hb
    exact ⟨h1, h2, hpayload hb⟩
  case fillBound => exact h.fillBound
  case fillOffset => exact h.fillOffset
  case queueBound => exact h.queueBound
  case unconfigured => exact fun hno => by rw [hcfg] at hno; cases hno

theorem TurnCoherent.corrNext {s : State} (h : TurnCoherent s) (hb : s.pstate = .begin) (bit : Bool) :
    TurnCoherent (corrNext s bit) := by
  obtain ⟨h1, h2, h3, h4⟩ := h.inBegin hb
  have hnot : (Machine.corrNext s bit).pstate ≠ .payload := by
    rw [corrNext_pstate, hb]
    split <;> decide
  have hfill := pushBit_fill s.params.syncWord bit s.corr
  constructor
  case inBegin => rw [corrNext_pend]; exact fun _ => ⟨h1, h2, h3, h4⟩
  case inHeader => rw [corrNext_pend]; exact fun _ => h1
  case inPayload => exact fun hp => absurd hp hnot
  case fillBound => rw [corrNext_corr, hfill]; omega
  case fillOffset =>
    rw [corrNext_corr, hfill, pushBit_woff, woff_succ_toNat]
    intro hlt
    rw [h.fillOffset (by omega)]
    omega
  case queueBound => rw [corrNext_qcount]; exact h.queueBound

theorem TurnCoherent.headerDone {s : State} (h : TurnCoherent s) (m : Memory 8) :
    TurnCoherent (headerDone (withAcc s m)) where
  inBegin hb := by cases hb
  inHeader hb := by cases hb
  inPayload _ := ⟨rfl, headerDone_plen _⟩
  fillBound := h.fillBound
  fillOffset := h.fillOffset
  queueBound := h.queueBound

/-- ENQUEUE keeps QCOUNT within the queue (R107). -/
theorem enqueue_queueBound (r : Record) {s : State} (h : s.qcount.toNat ≤ qDepth) :
    (enqueue r s).qcount.toNat ≤ qDepth := by
  rcases enqueue_cases r s with ⟨hlt, he⟩ | ⟨-, he⟩ <;> rw [he]
  · show (s.qcount + 1).toNat ≤ qDepth
    simp only [qDepth] at hlt ⊢
    bv_omega
  · exact h

/-- In Begin with everything cleared, the queue's bound is all that is left of R36 (b) to (f) but the symbols ahead. -/
theorem turnCoherent_of_clear {s : State} (hb : s.pstate = .begin) (hcorr : s.corr = Correlator.clear)
    (hpend : s.pend = Pending.clear) (hq : s.qcount.toNat ≤ qDepth) : TurnCoherent s where
  inBegin _ := by rw [hpend]; exact ⟨rfl, rfl, rfl, rfl⟩
  inHeader hb' := by rw [hb] at hb'; cases hb'
  inPayload hb' := by rw [hb] at hb'; cases hb'
  fillBound := by rw [hcorr]; simp [Correlator.clear]
  fillOffset := by rw [hcorr]; simp [Correlator.clear]
  queueBound := hq

theorem TurnCoherent.parse {s t : State} (hs : TurnCoherent s) (h : parse s = .ok t) : TurnCoherent t := by
  refine parse_keeps (P := TurnCoherent) ?corr ?header ?payload hs h
  case corr =>
    intro u v hb _ hu hv
    rw [corrStep_ok hv]
    exact hu.corrNext hb _
  case header => exact fun u _ _ hu => hu.headerDone _
  case payload =>
    intro u _ _ hu
    exact turnCoherent_of_clear (payloadDone_pstate _) (payloadDone_corr _) (payloadDone_pend _)
      (enqueue_queueBound _ hu.queueBound)

/-- The stages before the parse leave what `TurnCoherent` reads. -/
theorem TurnCoherent.ingest {s : State} (h : TurnCoherent s) (raw : List Word) : TurnCoherent (ingest raw s) := by
  constructor
  · simpa using h.inBegin
  · simpa using h.inHeader
  · simpa using h.inPayload
  · simpa using h.fillBound
  · simpa using h.fillOffset
  · simpa using h.queueBound

/-- R36 reads the parameters, CONFIGURED, the parse and QCOUNT alone. -/
theorem ParseCoherent.frame {s t : State} (h : ParseCoherent s) (hk : ContextKept s t) : ParseCoherent t := by
  constructor
  · rw [hk.pstate, hk.pend, hk.held_eq]; exact h.inBegin
  · rw [hk.pstate, hk.pend, hk.held_eq]; exact h.inHeader
  · rw [hk.pstate, hk.pend, hk.held_eq, hk.params]; exact h.inPayload
  · rw [hk.corr]; exact h.fillBound
  · rw [hk.corr]; exact h.fillOffset
  · exact hk.qcount.trans h.queueBound
  · rw [hk.configured, hk.w, hk.cursor, hk.pstate, hk.bufCount]; exact h.unconfigured

/-- A cleared parse that no symbol is ahead of meets R36, where the queue does and CONFIGURED = 0 keeps the rest at 0. -/
theorem parseCoherent_of_clear {s : State} (hb : s.pstate = .begin) (hcorr : s.corr = Correlator.clear)
    (hpend : s.pend = Pending.clear) (hq : s.qcount.toNat ≤ qDepth) (hcursor : s.cursor = s.w)
    (hcfg : s.configured = false → s.w = 0 ∧ s.bufCount = 0) : ParseCoherent s := by
  have ht := turnCoherent_of_clear hb hcorr hpend hq
  have hheld : held s = 0 := by simp [held, hcursor]
  constructor
  case inBegin =>
    intro _
    obtain ⟨h1, h2, h3, h4⟩ := ht.inBegin hb
    exact ⟨h1, h2, h3, h4, by omega⟩
  case inHeader => exact fun hb' => ⟨ht.inHeader hb', by omega⟩
  case inPayload => exact fun hb' => by rw [hb] at hb'; cases hb'
  case fillBound => exact ht.fillBound
  case fillOffset => exact ht.fillOffset
  case queueBound => exact hq
  case unconfigured =>
    intro hno
    obtain ⟨hw, hbuf⟩ := hcfg hno
    exact ⟨hw, hcursor.trans hw, hb, hbuf⟩

/-- Settles O48, by the induction over steps: after a PROCESS_BUFFER the bounds on the symbols ahead hold because PARSE
returns only where nothing proceeds. -/
theorem stepKeepsParseCoherent : Obligations.StepKeepsParseCoherent := by
  intro s t hs h
  refine step_keeps (P := ParseCoherent) ?frame ?reset ?configure ?buffer hs h
  case frame => exact fun u v hk hu => hu.frame hk
  case reset =>
    intro u rest _
    exact parseCoherent_of_clear rfl rfl rfl (by simp) rfl fun _ => ⟨rfl, rfl⟩
  case configure =>
    intro u rf sel hu
    exact parseCoherent_of_clear rfl rfl rfl hu.queueBound rfl fun hno => by cases hno
  case buffer =>
    intro u v raw hcfg hp hu
    have hv : v.configured = true := by rw [parse_configured hp, ingest_configured, hcfg]
    exact ((hu.turn.ingest raw).parse hp).parseCoherent hv (parse_ends hp)

/-! ### The stores -/

/-- PARSE keeps the stores: HEADER_STEP writes two bytes inside ACC, and PAYLOAD_STEP leaves ACC cleared. -/
theorem StoresCanonical.parse {s t : State} (hs : StoresCanonical s) (h : parse s = .ok t) :
    StoresCanonical t := by
  refine parse_keeps (P := StoresCanonical) ?corr ?header ?payload hs h
  case corr =>
    intro u v _ _ hu hv
    rw [corrStep_ok hv]
    exact ⟨by rw [corrNext_sym]; exact hu.sym, by rw [corrNext_pend]; exact hu.acc,
      by rw [corrNext_fhist, corrNext_params]; exact hu.fhist⟩
  case header => exact fun u _ _ hu => ⟨hu.sym, accAfter_wf hu.acc (by simp), hu.fhist⟩
  case payload =>
    intro u _ _ hu
    exact ⟨by rw [payloadDone_sym]; exact hu.sym, by rw [payloadDone_pend]; rfl,
      by rw [payloadDone_fhist, payloadDone_params]; exact hu.fhist⟩

theorem StoresCanonical.ingest {s : State} (hs : StoresCanonical s) (raw : List Word) :
    StoresCanonical (ingest raw s) where
  sym := by rw [ingest_sym]; exact symWriteAll_wf hs.sym
  acc := by rw [ingest_pend]; exact hs.acc
  fhist := by simp

theorem storesCanonical_reset (p : Params) : StoresCanonical (State.resetWith p) :=
  ⟨rfl, rfl, by simp⟩

/-- Settles O49, by the induction over steps; a PROCESS_BUFFER keeps the stores turn by turn of its parse. -/
theorem stepKeepsStoresCanonical : Obligations.StepKeepsStoresCanonical := by
  intro s t hs h
  refine step_keeps (P := StoresCanonical) ?frame ?reset ?configure ?buffer hs h
  case frame =>
    intro u v hk hu
    exact ⟨hk.sym ▸ hu.sym, hk.pend ▸ hu.acc, by rw [hk.fhist, hk.params]; exact hu.fhist⟩
  case reset =>
    intro u rest _
    obtain ⟨h1, h2, h3⟩ := storesCanonical_reset u.params
    exact ⟨h1, h2, h3⟩
  case configure =>
    intro u rf sel hu
    refine ⟨hu.sym, rfl, ?_⟩
    cases rf with
    | true => simp [configuredState]
    | false => exact hu.fhist
  case buffer =>
    intro u v raw _ hp hu
    exact (hu.ingest raw).parse hp

/-! ### Reset, progress, reachable states -/

theorem good_reset {p : Params} (hp : paramsInBounds p = true) : Good (State.resetWith p) where
  params := hp
  coherent := parseCoherent_of_clear rfl rfl rfl (by simp) rfl fun _ => ⟨rfl, rfl⟩
  stores := storesCanonical_reset p

/-- Settles O50; REFCFG is within the bounds of R9. -/
theorem resetIsGood : Obligations.ResetIsGood :=
  ⟨fun _ hp => good_reset hp, good_reset (by decide)⟩

/-- Between commands at most 8 * 510 symbols are ahead of CURSOR (R36). -/
theorem ParseCoherent.held_le {s : State} (h : ParseCoherent s) : held s ≤ 4080 := by
  cases hb : s.pstate with
  | begin =>
    obtain ⟨-, -, -, -, hd⟩ := h.inBegin hb
    omega
  | header =>
    obtain ⟨-, hd⟩ := h.inHeader hb
    omega
  | payload =>
    obtain ⟨-, hplen, hd⟩ := h.inPayload hb
    simp only [accCap, hdrBytes] at hplen
    omega

/-- The symbols of one buffer are added to those ahead of CURSOR. -/
theorem held_ingest (raw : List Word) (s : State) :
    held (ingest raw s) ≤ held s + s.params.symbolsPerBuffer := by
  rw [held, ingest_w, ingest_cursor, held]
  simp only [BitVec.toNat_sub, BitVec.toNat_add, BitVec.toNat_ofNat]
  omega

/-- After the stages before the parse the store still holds every symbol ahead of CURSOR: 4080 from before and at most 4096
new ones are no more than SYM_CAP (R42). -/
theorem ParseCoherent.fits_ingest {s : State} (h : ParseCoherent s) (hp : paramsInBounds s.params = true)
    (raw : List Word) : ParseFits (ingest raw s) := by
  obtain ⟨-, -, -, -, hM, -⟩ := (paramsInBounds_iff _).1 hp
  refine ⟨?_, fun hb => ?_⟩
  · have := held_ingest raw s
    have := h.held_le
    simp only [Params.symbolsPerBuffer, symCap] at *
    omega
  · rw [ingest_pstate] at hb
    rw [ingest_pend]
    obtain ⟨-, hplen, -⟩ := h.inPayload hb
    simp only [accCap, hdrBytes] at hplen
    omega

/-- Settles O51: the one command that can stop is a PROCESS_BUFFER, and its parse fits. -/
theorem everyStepCompletes : Obligations.EveryStepCompletes := by
  intro s hp hs
  unfold step
  rw [if_pos hp]
  split
  · exact ⟨_, rfl⟩
  · exact ⟨_, rfl⟩
  · exact ⟨_, rfl⟩
  next i rest hf =>
    exact exec_completes (s := { s with hostIn := rest }) (fetch_command_shaped hf)
      fun raw _ => parse_completes ((hs.frame (contextKept_hostIn s rest)).fits_ingest hp raw)

/-- A step keeps all the invariants together. -/
theorem Good.step {s t : State} (hs : Good s) (h : step s = .next t) : Good t where
  params := by rw [parametersNeverChange s t h]; exact hs.params
  coherent := stepKeepsParseCoherent s t hs.coherent h
  stores := stepKeepsStoresCanonical s t hs.stores h

theorem Good.deliver {s : State} (hs : Good s) (evs : List HostEvent) : Good (deliver evs s) where
  params := hs.params
  coherent := hs.coherent.frame (contextKept_hostIn s _)
  stores := ⟨hs.stores.sym, hs.stores.acc, hs.stores.fhist⟩

theorem good_of_reachable {p : Params} (hp : paramsInBounds p = true) {s : State} (h : Reachable p s) : Good s := by
  induction h with
  | reset => exact good_reset hp
  | deliver evs s _ ih => exact ih.deliver evs
  | step s t _ hstep ih => exact ih.step hstep

/-- Settles O52: the invariants hold in every reachable state, and a state that meets them does not stop. -/
theorem reachableStatesAreGoodAndGoOn : Obligations.ReachableStatesAreGoodAndGoOn := by
  intro p s hp h
  have hs := good_of_reachable hp h
  exact ⟨hs, everyStepCompletes s hs.params hs.coherent⟩

end Sys2Proof.Machine
end

