-- ==== Sys2Proof/Proofs/QueueAndFlags.lean ====
section
/-! PROOFS. Sys2Proof/Proofs/QueueAndFlags.lean: what a PROCESS_BUFFER does to the queue and its counters, which commands clear a
sticky bit or change the configuration, the fields of STATUS and WIN_CTRL, and the reset table (R19, R29 to R35, R107). -/

namespace Sys2Proof.Machine

/-! ### The queue -/

/-- ENQUEUE with room puts the record at the end of the queue (R107). -/
theorem queued_enqueue {s : State} (r : Record) (h : s.qcount.toNat < qDepth) :
    queued (enqueue r s) = queued s ++ [r] := by
  have hq : (s.qcount + 1).toNat = s.qcount.toNat + 1 := by
    simp only [qDepth] at h
    bv_omega
  simp only [enqueue, if_pos h, queued, hq, List.range_succ, List.map_append, List.map_singleton]
  congr 1
  · refine List.map_congr_left fun i hi => ?_
    have hi := List.mem_range.1 hi
    simp only [qDepth] at h
    exact Vector.getElem_set_ne _ _ (by omega)
  · rw [Vector.getElem_set_self]

/-- What has come to the queue since the state `s`: the records `new` at its end, each with the buffer's dB level, and
`dropped` records that found it full, all of them counted (R69, R107). -/
structure Appended (s t : State) (new : List Record) (dropped : Nat) : Prop where
  queue : queued t = queued s ++ new
  level : ∀ r ∈ new, r.db = t.dbLevel
  counted : t.pktCount = s.pktCount + BitVec.ofNat 32 (new.length + dropped)
  drops : t.dropCount = s.dropCount + BitVec.ofNat 32 dropped
  noDrop : dropped = 0 → t.qOvf = s.qOvf
  overflow : 0 < dropped → t.qOvf = true ∧ t.qcount.toNat = 8
  bound : t.qcount.toNat ≤ 8

theorem appended_none {s t : State} (hq : t.q = s.q) (hhead : t.qhead = s.qhead) (hcount : t.qcount = s.qcount)
    (hpkt : t.pktCount = s.pktCount) (hdrop : t.dropCount = s.dropCount) (hovf : t.qOvf = s.qOvf)
    (hb : s.qcount.toNat ≤ 8) : Appended s t [] 0 where
  queue := by simp [queued, hq, hhead, hcount]
  level := by simp
  counted := by simp [hpkt]
  drops := by simp [hdrop]
  noDrop _ := hovf
  overflow h := absurd h (by omega)
  bound := hcount ▸ hb

theorem Appended.corrNext {s t : State} {new : List Record} {dropped : Nat} (h : Appended s t new dropped)
    (bit : Bool) : Appended s (corrNext t bit) new dropped where
  queue := by simpa [queued] using h.queue
  level := by simpa using h.level
  counted := by simpa using h.counted
  drops := by simpa using h.drops
  noDrop := by simpa using h.noDrop
  overflow := by simpa using h.overflow
  bound := by simpa using h.bound

theorem Appended.headerDone {s t : State} {new : List Record} {dropped : Nat} (h : Appended s t new dropped)
    (m : Memory 8) : Appended s (headerDone (withAcc t m)) new dropped :=
  ⟨h.queue, h.level, h.counted, h.drops, h.noDrop, h.overflow, h.bound⟩

/-- One more counted. -/
theorem add_ofNat_add_one (v : Word) (n : Nat) : v + BitVec.ofNat 32 n + 1 = v + BitVec.ofNat 32 (n + 1) := by
  rw [BitVec.ofNat_add, BitVec.add_assoc]
  rfl

/-- A packet that finds room is one more record at the end of the queue (R96, R107). -/
theorem Appended.queued {s t : State} {new : List Record} {dropped : Nat} (h : Appended s t new dropped)
    {r : Record} (hr : r.db = t.dbLevel) (hroom : t.qcount.toNat < qDepth) :
    Appended s (packetPassed (enqueue r t)) (new ++ [r]) dropped := by
  have he : enqueue r t = _ := if_pos hroom
  constructor
  case queue =>
    rw [← List.append_assoc, ← h.queue]
    exact queued_enqueue r hroom
  case level =>
    rw [packetPassed_dbLevel, enqueue_dbLevel]
    intro x hx
    rcases List.mem_append.1 hx with hx | hx
    · exact h.level x hx
    · rw [List.mem_singleton.1 hx, hr]
  case counted =>
    rw [packetPassed_pktCount, enqueue_pktCount, h.counted, add_ofNat_add_one, List.length_append,
      List.length_singleton, Nat.add_right_comm]
  case drops => rw [packetPassed_dropCount, he]; exact h.drops
  case noDrop => rw [packetPassed_qOvf, he]; exact h.noDrop
  case overflow =>
    intro hd
    obtain ⟨-, hfull⟩ := h.overflow hd
    simp only [qDepth] at hroom
    omega
  case bound => rw [packetPassed_qcount]; exact enqueue_queueBound r h.bound

/-- A packet that finds the queue full is one more dropped record (R96, R107). -/
theorem Appended.dropped {s t : State} {new : List Record} {dropped : Nat} (h : Appended s t new dropped)
    (r : Record) (hfull : ¬t.qcount.toNat < qDepth) :
    Appended s (packetPassed (enqueue r t)) new (dropped + 1) := by
  have he : enqueue r t = _ := if_neg hfull
  have h8 : t.qcount.toNat = 8 := by
    have := h.bound
    simp only [qDepth] at hfull
    omega
  constructor
  case queue => rw [he]; exact h.queue
  case level => rw [packetPassed_dbLevel, enqueue_dbLevel]; exact h.level
  case counted => rw [packetPassed_pktCount, enqueue_pktCount, h.counted, add_ofNat_add_one, Nat.add_assoc]
  case drops => rw [packetPassed_dropCount, he, ← add_ofNat_add_one, ← h.drops]
  case noDrop => exact fun h0 => absurd h0 (by omega)
  case overflow => rw [packetPassed_qOvf, packetPassed_qcount, he]; exact fun _ => ⟨rfl, h8⟩
  case bound => rw [packetPassed_qcount]; exact enqueue_queueBound r h.bound

/-- PAYLOAD_STEP delivers one packet, queued or dropped, whose record carries DB_LEVEL (R106). -/
theorem Appended.payloadDone {s t : State} {new : List Record} {dropped : Nat} (h : Appended s t new dropped)
    (m : Memory 8) : ∃ new' dropped', Appended s (payloadDone (withAcc t m)) new' dropped' := by
  have hread : Appended s (payloadRead (withAcc t m)) new dropped :=
    ⟨h.queue, h.level, h.counted, h.drops, h.noDrop, h.overflow, h.bound⟩
  by_cases hroom : (payloadRead (withAcc t m)).qcount.toNat < qDepth
  · have hp := hread.queued (r := assemble (payloadRead (withAcc t m))) rfl hroom
    exact ⟨_, _, hp.queue, hp.level, hp.counted, hp.drops, hp.noDrop, hp.overflow, hp.bound⟩
  · have hp := hread.dropped (assemble (payloadRead (withAcc t m))) hroom
    exact ⟨_, _, hp.queue, hp.level, hp.counted, hp.drops, hp.noDrop, hp.overflow, hp.bound⟩

/-- Settles O45: every turn of the parse that goes with a PROCESS_BUFFER appends to the queue or leaves it alone. -/
theorem bufferOnlyAppendsToTheQueue : Obligations.BufferOnlyAppendsToTheQueue := by
  intro s t raw hb h
  suffices hsuff : ∃ new dropped, Appended s t new dropped by
    obtain ⟨new, dropped, ha⟩ := hsuff
    exact ⟨new, dropped, ha.queue, ha.level, ha.counted, ha.drops, ha.noDrop, ha.overflow⟩
  rcases execProcessBuffer_cases h with ⟨hz, -⟩ | ⟨-, -, rfl⟩ | ⟨-, -, -, hp⟩
  · exact absurd rfl hz
  · exact ⟨[], 0, appended_none rfl rfl rfl rfl rfl rfl hb⟩
  · refine parse_keeps (P := fun u => ∃ new dropped, Appended s u new dropped) ?corr ?header ?payload ?start hp
    case corr =>
      rintro u v _ _ ⟨new, dropped, hu⟩ hv
      exact ⟨new, dropped, corrStep_ok hv ▸ hu.corrNext _⟩
    case header => exact fun u _ _ ⟨new, dropped, hu⟩ => ⟨new, dropped, hu.headerDone _⟩
    case payload => exact fun u _ _ ⟨_, _, hu⟩ => hu.payloadDone _
    case start =>
      exact ⟨[], 0, appended_none (ingest_q s raw) (ingest_qhead s raw) (ingest_qcount s raw) (ingest_pktCount s raw)
        (ingest_dropCount s raw) (ingest_qOvf s raw) hb⟩

/-! ### The sticky bits and the configuration -/

/-- ENQUEUE only ever sets Q_OVF (R107). -/
theorem enqueue_qOvf_of_set (r : Record) {s : State} (h : s.qOvf = true) : (enqueue r s).qOvf = true := by
  rcases enqueue_cases r s with ⟨-, he⟩ | ⟨-, he⟩ <;> rw [he]
  exact h

/-- PARSE only ever sets Q_OVF. -/
theorem parse_qOvf {s t : State} (hs : s.qOvf = true) (h : parse s = .ok t) : t.qOvf = true := by
  refine parse_keeps (P := fun u => u.qOvf = true) ?corr ?header ?payload hs h
  case corr =>
    intro u v _ _ hu hv
    rw [corrStep_ok hv, corrNext_qOvf, hu]
  case header => exact fun u _ _ hu => hu
  case payload => exact fun u _ _ hu => enqueue_qOvf_of_set _ hu

/-- Only a well-formed CLEAR_STATUS with mask bit 0 clears CMD_ERR (R31). -/
theorem Executed.cmdErr_falls {i : Instr} {s t : State} (h : Executed i s t) (hs : s.cmdErr = true)
    (ht : t.cmdErr = false) : ∃ mask, i = .clearStatus 0 mask ∧ mask.getLsbD 0 = true := by
  cases h with
  | rejected _ _ c answer => cases ht
  | answered _ _ answer => cases hs.symm.trans ht
  | configured rf sel _ => cases hs.symm.trans ht
  | parsed raw _ _ _ hp =>
    rw [parse_cmdErr hp, ingest_cmdErr, hs] at ht
    cases ht
  | dequeued _ answer _ => cases hs.symm.trans ht
  | cleared mask _ => exact ⟨mask, rfl, by simpa [hs] using ht⟩

/-- Only a well-formed CLEAR_STATUS with mask bit 1 clears Q_OVF (R31). -/
theorem Executed.qOvf_falls {i : Instr} {s t : State} (h : Executed i s t) (hs : s.qOvf = true)
    (ht : t.qOvf = false) : ∃ mask, i = .clearStatus 0 mask ∧ mask.getLsbD 1 = true := by
  cases h with
  | rejected _ _ c answer => cases hs.symm.trans ht
  | answered _ _ answer => cases hs.symm.trans ht
  | configured rf sel _ => cases hs.symm.trans ht
  | parsed raw _ _ _ hp => cases (parse_qOvf (by rw [ingest_qOvf, hs]) hp).symm.trans ht
  | dequeued _ answer _ => cases hs.symm.trans ht
  | cleared mask _ => exact ⟨mask, rfl, by simpa [hs] using ht⟩

/-- No command clears CONFIGURED (R19). -/
theorem Executed.keeps_configured {i : Instr} {s t : State} (h : Executed i s t) (hs : s.configured = true) :
    t.configured = true := by
  cases h with
  | rejected _ _ c answer => exact hs
  | answered _ _ answer => exact hs
  | configured rf sel _ => rfl
  | parsed raw _ _ _ hp => rw [parse_configured hp, ingest_configured, hs]
  | dequeued _ answer _ => exact hs
  | cleared mask _ => exact hs

/-- No command but a well-formed CONFIGURE changes CHANNEL (R19, R101). -/
theorem Executed.channel_changes {i : Instr} {s t : State} (h : Executed i s t) (hne : t.channel ≠ s.channel) :
    ∃ rf sel, i = .configure 0 rf sel := by
  cases h with
  | rejected _ _ c answer => exact absurd rfl hne
  | answered _ _ answer => exact absurd rfl hne
  | configured rf sel _ => exact ⟨rf, sel, rfl⟩
  | parsed raw _ _ _ hp => exact absurd ((parse_channel hp).trans (ingest_channel s raw)) hne
  | dequeued _ answer _ => exact absurd rfl hne
  | cleared mask _ => exact absurd rfl hne

/-- Settles O54: of the commands only CLEAR_STATUS clears a sticky bit. -/
theorem stickyBitsStayUntilCleared : Obligations.StickyBitsStayUntilCleared := by
  refine ⟨fun c s => rfl, fun r s hfull => ?_, fun s t h => ?_⟩
  · rcases enqueue_cases r s with ⟨hroom, -⟩ | ⟨-, he⟩
    · omega
    · rw [he]
  · obtain ⟨-, hc⟩ := step_cases h
    rcases hc with ⟨-, rfl⟩ | ⟨rest, hf, -⟩ | ⟨rest, -, rfl⟩ | ⟨i, rest, hf, he⟩
    · exact ⟨fun hs ht => Bool.noConfusion (hs.symm.trans ht), fun hs ht => Bool.noConfusion (hs.symm.trans ht)⟩
    · exact ⟨fun _ _ => .inl ⟨rest, hf⟩, fun _ _ => .inl ⟨rest, hf⟩⟩
    · exact ⟨fun _ ht => Bool.noConfusion ht, fun hs ht => Bool.noConfusion (hs.symm.trans ht)⟩
    · have hx := Executed.of_exec he
      refine ⟨fun hs ht => ?_, fun hs ht => ?_⟩
      · obtain ⟨mask, rfl, hm⟩ := hx.cmdErr_falls hs ht
        exact .inr ⟨mask, rest, hf, hm⟩
      · obtain ⟨mask, rfl, hm⟩ := hx.qOvf_falls hs ht
        exact .inr ⟨mask, rest, hf, hm⟩

/-- Settles O56: no command clears CONFIGURED, and only CONFIGURE changes CHANNEL. -/
theorem configurationStaysUntilReset : Obligations.ConfigurationStaysUntilReset := by
  refine ⟨fun s rf sel => ⟨_, execConfigure_zero rf sel s, rfl, rfl⟩, fun s t h => ?_⟩
  obtain ⟨-, hc⟩ := step_cases h
  rcases hc with ⟨-, rfl⟩ | ⟨rest, hf, -⟩ | ⟨rest, -, rfl⟩ | ⟨i, rest, hf, he⟩
  · exact ⟨fun ⟨hs, ht⟩ => Bool.noConfusion (hs.symm.trans ht), fun hne => absurd rfl hne⟩
  · exact ⟨fun _ => ⟨rest, hf⟩, fun _ => .inl ⟨rest, hf⟩⟩
  · exact ⟨fun ⟨hs, ht⟩ => Bool.noConfusion (hs.symm.trans ht), fun hne => absurd rfl hne⟩
  · have hx := Executed.of_exec he
    refine ⟨fun ⟨hs, ht⟩ => ?_, fun hne => ?_⟩
    · cases (hx.keeps_configured hs).symm.trans ht
    · obtain ⟨rf, sel, rfl⟩ := hx.channel_changes hne
      exact .inr ⟨rf, sel, rest, hf⟩

/-! ### The registers -/

/-- Settles O20: a field of the concatenation is found past the fields below it. -/
theorem statusFieldsStandAtTheirBits : Obligations.StatusFieldsStandAtTheirBits := by
  intro s
  have hpstate : (statusReg s).extractLsb' 1 2 = s.pstate.code := by
    simp (disch := decide) only [statusReg, BitVec.extractLsb'_append_eq_of_le, BitVec.extractLsb'_append_eq_of_add_le,
      Nat.reduceSub, extract_whole]
  refine ⟨?configured, ?pstate, ?pktAvail, ?reserved4, ?qcount, ?reserved12, ?cmdErr, ?qOvf, ?reserved18⟩
  case pstate =>
    rw [hpstate]
    cases s.pstate <;> rfl
  case configured | pktAvail | cmdErr | qOvf =>
    simp only [statusReg, pktAvail, BitVec.getLsbD_append, Nat.reduceSub, Nat.reduceLT, if_true, if_false,
      BitVec.getLsbD_ofBool, decide_true, Bool.true_and]
  case reserved4 | qcount | reserved12 | reserved18 =>
    simp (disch := decide) only [statusReg, BitVec.extractLsb'_append_eq_of_le, BitVec.extractLsb'_append_eq_of_add_le,
      Nat.reduceSub, extract_whole, BitVec.ofNat_eq_ofNat]

/-- Settles O21, in the same way as STATUS. -/
theorem winCtrlFieldsStandAtTheirBits : Obligations.WinCtrlFieldsStandAtTheirBits := by
  intro s
  refine ⟨?woff, ?reserved5, ?fill, ?reserved14, ?lastMatchLen, ?reserved22⟩
  all_goals
    simp (disch := decide) only [winCtrlReg, BitVec.extractLsb'_append_eq_of_le, BitVec.extractLsb'_append_eq_of_add_le,
      Nat.reduceSub, extract_whole, BitVec.ofNat_eq_ofNat]

/-! ### Reset -/

/-- Settles O47: the reset state is the table. -/
theorem resetTable : Obligations.ResetTable := by
  intro p
  simp [Correlator.clear, Pending.clear, queued, Params.ntaps]

end Sys2Proof.Machine
end

