-- ==== Sys2Proof/Proofs/CommandStream.lean ====
section
/-! PROOFS. Sys2Proof/Proofs/CommandStream.lean: the two streams of a step and what the reads return on them: the command that is
taken off the command interface, the words it appends to the response stream, the bytes of a record in those words, and
what READ_PACKET and READ_REG leave behind (R45, R47, R49, R50, R56, R58). -/

namespace Sys2Proof.Machine

/-! ### The command interface -/

/-- Words that decode with nothing left over are exactly as many as their header's opcode says (R59). -/
theorem commandLength_of_decode {p : Params} {hdr : Word} {more : List Word} {i : Instr}
    (h : decode p (hdr :: more) = .ok (i, [])) : commandLength p hdr - 1 = more.length := by
  have one_word {op : BitVec 8} {j : Instr} (ho : opcodeOf hdr = op) (hop : op ≠ 0x02)
      (hd : decode p (hdr :: more) = .ok (j, more)) : commandLength p hdr - 1 = more.length := by
    obtain ⟨-, rfl⟩ : j = i ∧ more = [] := by simpa [h] using hd.symm
    rw [commandLength, ho, if_neg hop]
    rfl
  rcases decode_cons_cases p hdr more with
    ⟨ho, hd⟩ | ⟨ho, hl, hd⟩ | ⟨-, -, hd⟩ | ⟨ho, hd⟩ | ⟨ho, hd⟩ | ⟨ho, hd⟩ | ⟨-, hd⟩
  · exact one_word ho (by decide) hd
  · obtain ⟨-, hrest⟩ : _ ∧ more.length ≤ p.rawCount := by simpa [hd] using h
    rw [commandLength, if_pos ho, Nat.add_sub_cancel_left]
    exact Nat.le_antisymm hl hrest
  · cases hd.symm.trans h
  · exact one_word ho (by decide) hd
  · exact one_word ho (by decide) hd
  · exact one_word ho (by decide) hd
  · cases hd.symm.trans h

/-- A whole command at the front of the command interface is what the machine fetches (R49). -/
theorem fetch_of_decode {p : Params} {ws : List Word} {i : Instr} (rest : List HostEvent)
    (h : decode p ws = .ok (i, [])) : fetch p (ws.map HostEvent.word ++ rest) = .command i rest := by
  cases ws with
  | nil => cases h
  | cons hdr more =>
    have hlen := commandLength_of_decode h
    simp [fetch, hlen, scanWords_of_words, h]

/-- Settles O7: the machine fetches the command that the words in front decode to, and a step is the execution of it. -/
theorem stepRunsTheDecodedCommand : Obligations.StepRunsTheDecodedCommand := by
  intro s ws i rest hp hd hin
  rw [step, if_pos hp, hin, fetch_of_decode rest hd]

/-! ### The bytes of a record -/

theorem Record.bytes_length (r : Record) : r.bytes.length = 260 := by simp [Record.bytes]

theorem Record.bytes_devid (r : Record) {k : Nat} (h : k < 6) : r.bytes.getD k 0 = r.devid[k] := by
  simp [Record.bytes, List.getD_eq_getElem?_getD, List.getElem?_append_left, h]

/-- TYPE, SIZE, DLEN and DB stand after the six bytes of DEVID (R56). -/
theorem Record.bytes_header (r : Record) {k : Nat} (h : k < 4) :
    r.bytes.getD (6 + k) 0 = [r.type, r.size, r.dlen, r.db].getD k 0 := by
  have hall : r.bytes = r.devid.toList ++ ([r.type, r.size, r.dlen, r.db] ++ (r.data.toList ++ [0])) := by
    simp [Record.bytes]
  rw [hall, List.getD_append_right _ _ _ _ (by simp), List.getD_append _ _ _ _ (by simp; omega)]
  simp

theorem Record.bytes_data (r : Record) {i : Nat} (h : i < 249) : r.bytes.getD (10 + i) 0 = r.data[i] := by
  rw [Record.bytes, List.getD_append _ _ _ _ (by simp; omega), List.getD_append_right _ _ _ _ (by simp)]
  simp [List.getD_eq_getElem?_getD, h]

/-- The last byte is padding. -/
theorem Record.bytes_last (r : Record) : r.bytes.getD 259 0 = 0 := by
  simp [Record.bytes, List.getD_eq_getElem?_getD]

@[simp] theorem Record.words_length (r : Record) : r.words.length = 65 := packWords_length r.bytes_length

/-- Settles O22: the words are the 260 bytes packed four to a word, and each field has its run of bytes. -/
theorem recordSerialization : Obligations.RecordSerialization := by
  intro r
  refine ⟨r.words_length, fun b hb => ?_, fun k h => r.bytes_devid h, r.bytes_header (k := 0) (by omega),
    r.bytes_header (k := 1) (by omega), r.bytes_header (k := 2) (by omega), r.bytes_header (k := 3) (by omega),
    fun i h => r.bytes_data h, r.bytes_last⟩
  have hbyte := packWords_byte (n := 65) (k := b / 4) (j := b % 4) r.bytes_length (by omega) (by omega)
  rwa [Nat.div_add_mod] at hbyte

/-! ### What the reads answer -/

/-- READ_PACKET with a record queued (R108). -/
theorem execReadPacket_queued {s : State} (h : s.qcount ≠ 0) :
    execReadPacket 0 s = .next (dequeue (respondAll (1 :: (oldestRecord s).words) s)) := by
  rw [execReadPacket, if_neg (by simp), if_neg h]

/-- READ_REG of an assigned register (R109). -/
theorem execReadReg_assigned {reg : BitVec 8} {r : Reg} (h : Reg.ofNumber reg = some r) (s : State) :
    execReadReg 0 reg s = .next (respond (regValue s r) s) := by
  simp [execReadReg, h]

/-- The numbers 0x00..0x10 are assigned (R32). -/
theorem Reg.ofNumber_assigned {n : BitVec 8} (h : n.toNat ≤ 0x10) : ∃ r, Reg.ofNumber n = some r := by
  unfold Reg.ofNumber
  generalize n.toNat = k at h ⊢
  interval_cases k <;> exact ⟨_, rfl⟩

/-- The response stream is in no register. -/
@[simp] theorem regValue_respond (v : Word) (s : State) (r : Reg) : regValue (respond v s) r = regValue s r := by
  cases r <;> rfl

/-- The record that leaves the queue is its first (R29, R108). -/
theorem queued_eq_oldest_cons {s : State} (h : s.qcount ≠ 0) : queued s = oldestRecord s :: queued (dequeue s) := by
  have hlast : (s.qcount - 1).toNat + 1 = s.qcount.toNat := by bv_omega
  simp only [queued, ← hlast, List.range_succ_eq_map, List.map_cons, List.map_map, dequeue_qcount]
  congr 1
  · simp [oldestRecord, Nat.mod_eq_of_lt (show s.qhead.toNat < 8 from s.qhead.isLt)]
  · refine List.map_congr_left fun i _ => ?_
    have hslot : (s.qhead.toNat + (i + 1)) % 8 = ((s.qhead + 1).toNat + i) % 8 := by bv_omega
    simp [hslot]

/-- Settles O44: READ_PACKET takes the first record off the queue, and no register shows the response stream, which is all
that READ_REG changes. -/
theorem readsAndTheirSideEffects : Obligations.ReadsAndTheirSideEffects := by
  constructor
  · intro s hpos _
    have hq : s.qcount ≠ 0 := by
      intro h
      simp [h] at hpos
    exact ⟨_, oldestRecord s, execReadPacket_queued hq, queued_eq_oldest_cons hq, rfl⟩
  · intro s reg hreg
    obtain ⟨r, hr⟩ := Reg.ofNumber_assigned hreg
    refine ⟨_, _, regValue s r, execReadReg_assigned hr s, rfl, execReadReg_assigned hr _, ?_⟩
    simp

/-! ### The response stream -/

/-- The words a command returns: one for READ_REG, 1 or 66 for READ_PACKET, none for the others (R58). -/
def Answers : Instr → List Word → Prop
  | .readReg _ _, ws => ws.length = 1
  | .readPacket _, ws => ws.length = 1 ∨ ws.length = 66
  | .configure _ _ _, ws => ws = []
  | .processBuffer _ _, ws => ws = []
  | .clearStatus _ _, ws => ws = []

theorem parse_respOut {s t : State} (h : parse s = .ok t) : t.respOut = s.respOut :=
  parse_leaves State.respOut (by simp) (by simp) (by simp) h

theorem execConfigure_respOut {z : BitVec 15} {rf : Bool} {sel : BitVec 8} {s t : State}
    (h : execConfigure z rf sel s = .next t) : t.respOut = s.respOut := by
  by_cases hz : z = 0
  · subst hz
    rw [execConfigure_zero] at h
    injection h with h
    exact h ▸ rfl
  · rw [execConfigure, if_pos hz] at h
    injection h with h
    exact h ▸ rfl

theorem execProcessBuffer_respOut {z : BitVec 24} {raw : List Word} {s t : State}
    (h : execProcessBuffer z raw s = .next t) : t.respOut = s.respOut := by
  rcases execProcessBuffer_cases h with ⟨-, rfl⟩ | ⟨-, -, rfl⟩ | ⟨-, -, -, hp⟩
  · rfl
  · rfl
  · rw [parse_respOut hp, ingest_respOut]

theorem execClearStatus_respOut {z : BitVec 22} {mask : BitVec 2} {s t : State}
    (h : execClearStatus z mask s = .next t) : t.respOut = s.respOut := by
  unfold execClearStatus at h
  split at h
  all_goals
    injection h with h
    exact h ▸ rfl

/-- A READ_REG returns one word, zero when it is rejected (R60, R109). -/
theorem execReadReg_respOut {z : BitVec 16} {reg : BitVec 8} {s t : State} (h : execReadReg z reg s = .next t) :
    ∃ v, t.respOut = s.respOut ++ [v] := by
  unfold execReadReg at h
  split at h
  · injection h with h
    exact ⟨0, h ▸ rfl⟩
  · split at h
    · injection h with h
      exact ⟨0, h ▸ rfl⟩
    next r _ =>
      injection h with h
      exact ⟨regValue s r, h ▸ rfl⟩

/-- A READ_PACKET returns one zero word when it is rejected or the queue is empty, and else 1 and the oldest record
(R60, R108). -/
theorem execReadPacket_respOut {z : BitVec 24} {s t : State} (h : execReadPacket z s = .next t) :
    t.respOut = s.respOut ++ [0] ∨ t.respOut = s.respOut ++ 1 :: (oldestRecord s).words := by
  unfold execReadPacket at h
  split at h
  · injection h with h
    exact .inl (h ▸ rfl)
  · split at h
    · injection h with h
      exact .inl (h ▸ rfl)
    · injection h with h
      exact .inr (h ▸ rfl)

/-- A command appends its response and no other word (R50, R58). -/
theorem exec_answers {i : Instr} {s t : State} (h : exec i s = .next t) :
    ∃ ws, t.respOut = s.respOut ++ ws ∧ Answers i ws := by
  cases i with
  | configure z rf sel => exact ⟨[], by simpa using execConfigure_respOut h, rfl⟩
  | processBuffer z raw => exact ⟨[], by simpa using execProcessBuffer_respOut h, rfl⟩
  | readPacket z =>
    rcases execReadPacket_respOut h with hr | hr
    · exact ⟨_, hr, .inl rfl⟩
    · exact ⟨_, hr, .inr (by simp)⟩
  | readReg z reg =>
    obtain ⟨v, hr⟩ := execReadReg_respOut h
    exact ⟨[v], hr, rfl⟩
  | clearStatus z mask => exact ⟨[], by simpa using execClearStatus_respOut h, rfl⟩

/-- Settles O23: of the four kinds of step, the execution of a command alone returns words, and those are its response. -/
theorem responsesAreOnlyAppended : Obligations.ResponsesAreOnlyAppended := by
  intro s t h
  obtain ⟨-, hc⟩ := step_cases h
  rcases hc with ⟨hf, rfl⟩ | ⟨rest, hf, rfl⟩ | ⟨rest, hf, rfl⟩ | ⟨i, rest, hf, he⟩
  · exact ⟨[], by simp, by rw [hf]⟩
  · exact ⟨[], by simp [assertReset], by rw [hf]⟩
  · exact ⟨[], by simp, by rw [hf]⟩
  · obtain ⟨ws, hr, ha⟩ := exec_answers he
    refine ⟨ws, hr, ?_⟩
    rw [hf]
    cases i <;> exact ha

end Sys2Proof.Machine
end

