-- ==== Sys2Proof/Proofs/Encoding.lean ====
section
/-! PROOFS. Sys2Proof/Proofs/Encoding.lean: the decoder and the encoder: what each opcode decodes to, the fields in a header word
and the header word in its fields, and the round trips (R55, R57, R58, R59, R61). -/

namespace Sys2Proof

/-! ### What each opcode decodes to -/

section
variable (p : Params) {hdr : Word} (rest : List Word)

theorem decode_of_opcode_configure (h : opcodeOf hdr = 0x01) : decode p (hdr :: rest) =
    .ok (.configure (hdr.extractLsb' 9 15) (hdr.getLsbD 8) (hdr.extractLsb' 0 8), rest) := by
  simp [decode, h]

theorem decode_of_opcode_processBuffer (h : opcodeOf hdr = 0x02) (hl : p.rawCount ≤ rest.length) :
    decode p (hdr :: rest) =
      .ok (.processBuffer (hdr.extractLsb' 0 24) (rest.take p.rawCount), rest.drop p.rawCount) := by
  simp [decode, h, atLeast_iff.2 hl]

theorem decode_of_opcode_readPacket (h : opcodeOf hdr = 0x03) :
    decode p (hdr :: rest) = .ok (.readPacket (hdr.extractLsb' 0 24), rest) := by
  simp [decode, h]

theorem decode_of_opcode_readReg (h : opcodeOf hdr = 0x04) :
    decode p (hdr :: rest) = .ok (.readReg (hdr.extractLsb' 8 16) (hdr.extractLsb' 0 8), rest) := by
  simp [decode, h]

theorem decode_of_opcode_clearStatus (h : opcodeOf hdr = 0x05) :
    decode p (hdr :: rest) = .ok (.clearStatus (hdr.extractLsb' 2 22) (hdr.extractLsb' 0 2), rest) := by
  simp [decode, h]

/-- An opcode outside 0x01..0x05 is illegal (R61). -/
theorem decode_of_opcode_illegal (h : (opcodeOf hdr).toNat = 0 ∨ 6 ≤ (opcodeOf hdr).toNat) :
    decode p (hdr :: rest) = .error (.illegalOpcode (opcodeOf hdr)) := by
  have unassigned {op : BitVec 8} (hop : 1 ≤ op.toNat ∧ op.toNat ≤ 5) : opcodeOf hdr ≠ op := by
    rintro rfl
    omega
  simp only [decode, if_neg (unassigned (op := 0x01) (by decide)), if_neg (unassigned (op := 0x02) (by decide)),
    if_neg (unassigned (op := 0x03) (by decide)), if_neg (unassigned (op := 0x04) (by decide)),
    if_neg (unassigned (op := 0x05) (by decide))]

end

/-! ### The fields of an encoded header word -/

theorem configure_fields (z : BitVec 15) (rf : Bool) (sel : BitVec 8) :
    (encodeHeader (.configure z rf sel)).extractLsb' 9 15 = z ∧
      (encodeHeader (.configure z rf sel)).getLsbD 8 = rf ∧
      (encodeHeader (.configure z rf sel)).extractLsb' 0 8 = sel := by
  refine ⟨?_, ?_, ?_⟩ <;> unfold encodeHeader
  · rw [extract_append_high _ _ (k := 1) rfl, extract_append_high _ _ (k := 0) rfl, extract_append_low _ _ (by omega),
      extract_whole]
  · rw [bit_append_high _ _ (k := 0) rfl, bit_append_low _ _ (by omega), BitVec.getLsbD_ofBool]
    simp
  · rw [extract_append_low _ _ (by omega), extract_whole]

theorem processBuffer_fields (z : BitVec 24) (raw : List Word) :
    (encodeHeader (.processBuffer z raw)).extractLsb' 0 24 = z := by
  unfold encodeHeader
  rw [extract_append_low _ _ (by omega), extract_whole]

theorem readPacket_fields (z : BitVec 24) : (encodeHeader (.readPacket z)).extractLsb' 0 24 = z := by
  unfold encodeHeader
  rw [extract_append_low _ _ (by omega), extract_whole]

theorem readReg_fields (z : BitVec 16) (reg : BitVec 8) :
    (encodeHeader (.readReg z reg)).extractLsb' 8 16 = z ∧ (encodeHeader (.readReg z reg)).extractLsb' 0 8 = reg := by
  constructor <;> unfold encodeHeader
  · rw [extract_append_high _ _ (k := 0) rfl, extract_append_low _ _ (by omega), extract_whole]
  · rw [extract_append_low _ _ (by omega), extract_whole]

theorem clearStatus_fields (z : BitVec 22) (mask : BitVec 2) :
    (encodeHeader (.clearStatus z mask)).extractLsb' 2 22 = z ∧
      (encodeHeader (.clearStatus z mask)).extractLsb' 0 2 = mask := by
  constructor <;> unfold encodeHeader
  · rw [extract_append_high _ _ (k := 0) rfl, extract_append_low _ _ (by omega), extract_whole]
  · rw [extract_append_low _ _ (by omega), extract_whole]

/-- Settles O1: a header word carries its command's opcode, so the decoder reads that command's fields, and each field of an
encoded header is the field it was made from. -/
theorem decodeOfEncodeIsIdentity : Obligations.DecodeOfEncodeIsIdentity := by
  intro p i rest hi
  cases i with
  | configure z rf sel =>
    obtain ⟨hz, hrf, hsel⟩ := configure_fields z rf sel
    refine (decode_of_opcode_configure p rest (Laws.HeaderOpcode.opcode_configure z rf sel)).trans ?_
    rw [hz, hrf, hsel]
  | processBuffer z raw =>
    have hl : raw.length = p.rawCount := by simpa [Instr.shaped] using hi
    refine (decode_of_opcode_processBuffer p (raw ++ rest) (Laws.HeaderOpcode.opcode_processBuffer z raw)
      (by simp [hl])).trans ?_
    rw [processBuffer_fields, ← hl, List.take_left, List.drop_left]
  | readPacket z =>
    refine (decode_of_opcode_readPacket p rest (Laws.HeaderOpcode.opcode_readPacket z)).trans ?_
    rw [readPacket_fields]
  | readReg z reg =>
    obtain ⟨hz, hreg⟩ := readReg_fields z reg
    refine (decode_of_opcode_readReg p rest (Laws.HeaderOpcode.opcode_readReg z reg)).trans ?_
    rw [hz, hreg]
  | clearStatus z mask =>
    obtain ⟨hz, hmask⟩ := clearStatus_fields z mask
    refine (decode_of_opcode_clearStatus p rest (Laws.HeaderOpcode.opcode_clearStatus z mask)).trans ?_
    rw [hz, hmask]

/-! ### A header word is its fields -/

/-- Two fields of a word, the one starting where the other ends, are one field. -/
theorem adjacent_fields (v : Word) (lo n m : Nat) {hi : Nat} (h : hi = lo + n) :
    v.extractLsb' hi m ++ v.extractLsb' lo n = v.extractLsb' lo (m + n) :=
  BitVec.extractLsb'_append_extractLsb'_eq_extractLsb' h

theorem ofBool_bit (v : Word) (i : Nat) : BitVec.ofBool (v.getLsbD i) = v.extractLsb' i 1 := by
  ext j hj
  obtain rfl : j = 0 := by omega
  simp

theorem encodeHeader_configure_self {hdr : Word} (h : opcodeOf hdr = 0x01#8) :
    encodeHeader (.configure (hdr.extractLsb' 9 15) (hdr.getLsbD 8) (hdr.extractLsb' 0 8)) = hdr := by
  rw [encodeHeader, ← h, opcodeOf, ofBool_bit, adjacent_fields hdr 9 15 8 rfl, adjacent_fields hdr 8 1 23 rfl,
    adjacent_fields hdr 0 8 24 rfl]
  exact extract_whole hdr

theorem encodeHeader_processBuffer_self {hdr : Word} (raw : List Word) (h : opcodeOf hdr = 0x02#8) :
    encodeHeader (.processBuffer (hdr.extractLsb' 0 24) raw) = hdr := by
  rw [encodeHeader, ← h, opcodeOf, adjacent_fields hdr 0 24 8 rfl]
  exact extract_whole hdr

theorem encodeHeader_readPacket_self {hdr : Word} (h : opcodeOf hdr = 0x03#8) :
    encodeHeader (.readPacket (hdr.extractLsb' 0 24)) = hdr := by
  rw [encodeHeader, ← h, opcodeOf, adjacent_fields hdr 0 24 8 rfl]
  exact extract_whole hdr

theorem encodeHeader_readReg_self {hdr : Word} (h : opcodeOf hdr = 0x04#8) :
    encodeHeader (.readReg (hdr.extractLsb' 8 16) (hdr.extractLsb' 0 8)) = hdr := by
  rw [encodeHeader, ← h, opcodeOf, adjacent_fields hdr 8 16 8 rfl, adjacent_fields hdr 0 8 24 rfl]
  exact extract_whole hdr

theorem encodeHeader_clearStatus_self {hdr : Word} (h : opcodeOf hdr = 0x05#8) :
    encodeHeader (.clearStatus (hdr.extractLsb' 2 22) (hdr.extractLsb' 0 2)) = hdr := by
  rw [encodeHeader, ← h, opcodeOf, adjacent_fields hdr 2 22 8 rfl, adjacent_fields hdr 0 2 30 rfl]
  exact extract_whole hdr

/-- Settles O2: the fields the decoder takes are the whole of the header word below the opcode, and the samples and the words
after them are the whole of what follows it. -/
theorem encodeOfDecodeIsIdentity : Obligations.EncodeOfDecodeIsIdentity := by
  intro p ws rest i h
  cases ws with
  | nil => cases h
  | cons hdr more =>
    rcases decode_cons_cases p hdr more with
      ⟨ho, hd⟩ | ⟨ho, hl, hd⟩ | ⟨-, -, hd⟩ | ⟨ho, hd⟩ | ⟨ho, hd⟩ | ⟨ho, hd⟩ | ⟨-, hd⟩ <;>
      cases hd.symm.trans h
    · exact ⟨congrArg (· :: rest) (encodeHeader_configure_self ho), rfl⟩
    · refine ⟨?_, by simp [Instr.shaped, hl]⟩
      rw [encode, encodeHeader_processBuffer_self _ ho, encodeSamples, List.cons_append, List.take_append_drop]
    · exact ⟨congrArg (· :: rest) (encodeHeader_readPacket_self ho), rfl⟩
    · exact ⟨congrArg (· :: rest) (encodeHeader_readReg_self ho), rfl⟩
    · exact ⟨congrArg (· :: rest) (encodeHeader_clearStatus_self ho), rfl⟩

/-! ### The fields by division -/

/-- A field of a word, counted by division. -/
theorem field_eq_ofNat (v : Word) (start len : Nat) :
    v.extractLsb' start len = BitVec.ofNat len (v.toNat / 2 ^ start) := by
  rw [BitVec.extractLsb', Nat.shiftRight_eq_div_pow]

theorem low_field_eq_ofNat (v : Word) (len : Nat) : v.extractLsb' 0 len = BitVec.ofNat len v.toNat := rfl

theorem bit_eq_decide (v : Word) (i : Nat) : v.getLsbD i = decide (v.toNat / 2 ^ i % 2 = 1) :=
  Nat.testBit_eq_decide_div_mod_eq

theorem opcodeOf_toNat (hdr : Word) : (opcodeOf hdr).toNat = hdr.toNat / 2 ^ 24 := by
  rw [opcodeOf, field_eq_ofNat, BitVec.toNat_ofNat]
  omega

theorem opcodeOf_eq_iff {hdr : Word} {op : BitVec 8} : opcodeOf hdr = op ↔ hdr.toNat / 2 ^ 24 = op.toNat := by
  rw [← opcodeOf_toNat, BitVec.toNat_inj]

/-- Settles O3: each opcode selects its command, with the fields taken by division. -/
theorem headerFieldsStandAtTheirBits : Obligations.HeaderFieldsStandAtTheirBits := by
  intro p hdr rest
  refine ⟨fun h => ?_, fun h hl => ?_, fun h => ?_, fun h => ?_, fun h => ?_, fun h => ?_⟩
  · rw [decode_of_opcode_configure p rest (opcodeOf_eq_iff.2 h), field_eq_ofNat, bit_eq_decide, low_field_eq_ofNat]
  · rw [decode_of_opcode_processBuffer p rest (opcodeOf_eq_iff.2 h) hl, low_field_eq_ofNat]
  · rw [decode_of_opcode_readPacket p rest (opcodeOf_eq_iff.2 h), low_field_eq_ofNat]
  · rw [decode_of_opcode_readReg p rest (opcodeOf_eq_iff.2 h), field_eq_ofNat, low_field_eq_ofNat]
  · rw [decode_of_opcode_clearStatus p rest (opcodeOf_eq_iff.2 h), field_eq_ofNat, low_field_eq_ofNat]
  · rw [← opcodeOf_toNat] at h ⊢
    rw [decode_of_opcode_illegal p rest h, BitVec.ofNat_toNat, BitVec.setWidth_eq]

/-- Settles O5: five sequences of words written out, one for each command. -/
theorem writtenOutWordsDecode : Obligations.WrittenOutWordsDecode :=
  ⟨rfl, rfl, rfl, rfl, rfl⟩

end Sys2Proof
end

