-- ==== Sys2Proof/Proofs/Assembler.lean ====
section
/-! PROOFS. Sys2Proof/Proofs/Assembler.lean: the words of the assembler's lines in numbers, and the register names (R32, R44, R63,
R64). -/

namespace Sys2Proof.Machine

/-! ### Words in numbers -/

theorem toNat_append_eq_add {m n : Nat} (a : BitVec m) (b : BitVec n) : (a ++ b).toNat = a.toNat * 2 ^ n + b.toNat := by
  rw [BitVec.toNat_append, ← Nat.shiftLeft_add_eq_or_of_lt b.isLt, Nat.shiftLeft_eq]

/-- A number below bit `k`, joined to a word that is 0 below bit `k`, is added to it. -/
theorem or_ofNat_of_lt {v : Word} {k n : Nat} (hv : v.toNat % 2 ^ k = 0) (h : n < 2 ^ k) :
    v ||| BitVec.ofNat 32 n = BitVec.ofNat 32 (v.toNat + n) := by
  obtain ⟨a, ha⟩ := Nat.dvd_of_mod_eq_zero hv
  have hadd : v.toNat + n = v.toNat ||| n := by rw [ha, Nat.two_pow_add_eq_or_of_lt h]
  rw [hadd, BitVec.ofNat_or, BitVec.ofNat_toNat, BitVec.setWidth_eq]

/-- The header word of a CONFIGURE, field by field at its weight (R55). -/
theorem encodeHeader_configure_eq (z : BitVec 15) (rf : Bool) (sel : BitVec 8) :
    encodeHeader (.configure z rf sel) =
      BitVec.ofNat 32 (0x01000000 + z.toNat * 2 ^ 9 + rf.toNat * 2 ^ 8 + sel.toNat) := by
  have hrf := rf.toNat_le
  apply BitVec.eq_of_toNat_eq
  simp only [encodeHeader, toNat_append_eq_add, BitVec.toNat_ofBool, BitVec.toNat_ofNat]
  omega

/-- The header word of a PROCESS_BUFFER, field by field at its weight (R55). -/
theorem encodeHeader_processBuffer_eq (z : BitVec 24) (raw : List Word) :
    encodeHeader (.processBuffer z raw) = BitVec.ofNat 32 (0x02000000 + z.toNat) := by
  apply BitVec.eq_of_toNat_eq
  simp only [encodeHeader, toNat_append_eq_add, BitVec.toNat_ofNat]
  omega

/-- The header word of a READ_PACKET, field by field at its weight (R55). -/
theorem encodeHeader_readPacket_eq (z : BitVec 24) :
    encodeHeader (.readPacket z) = BitVec.ofNat 32 (0x03000000 + z.toNat) := by
  apply BitVec.eq_of_toNat_eq
  simp only [encodeHeader, toNat_append_eq_add, BitVec.toNat_ofNat]
  omega

/-- The header word of a READ_REG, field by field at its weight (R55). -/
theorem encodeHeader_readReg_eq (z : BitVec 16) (reg : BitVec 8) :
    encodeHeader (.readReg z reg) = BitVec.ofNat 32 (0x04000000 + z.toNat * 2 ^ 8 + reg.toNat) := by
  apply BitVec.eq_of_toNat_eq
  simp only [encodeHeader, toNat_append_eq_add, BitVec.toNat_ofNat]
  omega

/-- The header word of a CLEAR_STATUS, field by field at its weight (R55). -/
theorem encodeHeader_clearStatus_eq (z : BitVec 22) (mask : BitVec 2) :
    encodeHeader (.clearStatus z mask) = BitVec.ofNat 32 (0x05000000 + z.toNat * 2 ^ 2 + mask.toNat) := by
  apply BitVec.eq_of_toNat_eq
  simp only [encodeHeader, toNat_append_eq_add, BitVec.toNat_ofNat]
  omega

/-- A sample word in numbers: Q above I, each modulo 2^16 (R44). -/
theorem sampleWord_eq_ofNat (i q : Int) :
    sampleWord i q = BitVec.ofNat 32 ((q % 2 ^ 16).toNat * 2 ^ 16 + (i % 2 ^ 16).toNat) := by
  apply BitVec.eq_of_toNat_eq
  simp only [sampleWord, toNat_append_eq_add, BitVec.toNat_ofInt, BitVec.toNat_ofNat]
  omega

/-! ### The lines -/

section
variable (p : Params)

theorem assembleLine_configure (n : Nat) (rf : Bool) :
    assembleLine p (.configure n rf) =
      if n ≤ 255 then some [BitVec.ofNat 32 (0x01000000 + rf.toNat * 2 ^ 8) ||| BitVec.ofNat 32 n] else none := by
  by_cases h : n ≤ 255
  · have hn : n % 2 ^ 8 = n := Nat.mod_eq_of_lt (by omega)
    rw [assembleLine, if_pos h, if_pos h, encode, encodeSamples, encodeHeader_configure_eq, BitVec.toNat_ofNat, hn,
      or_ofNat_of_lt (k := 8) (by cases rf <;> rfl) (by omega)]
    cases rf <;> rfl
  · rw [assembleLine, if_neg h, if_neg h]

theorem assembleLine_readReg (n : Nat) :
    assembleLine p (.readReg n) = if n ≤ 255 then some [0x04000000#32 ||| BitVec.ofNat 32 n] else none := by
  by_cases h : n ≤ 255
  · have hn : n % 2 ^ 8 = n := Nat.mod_eq_of_lt (by omega)
    rw [assembleLine, if_pos h, if_pos h, encode, encodeSamples, encodeHeader_readReg_eq, BitVec.toNat_ofNat, hn,
      or_ofNat_of_lt (k := 8) rfl (by omega)]
    rfl
  · rw [assembleLine, if_neg h, if_neg h]

theorem assembleLine_clearStatus (n : Nat) :
    assembleLine p (.clearStatus n) = if n ≤ 3 then some [0x05000000#32 ||| BitVec.ofNat 32 n] else none := by
  by_cases h : n ≤ 3
  · have hn : n % 2 ^ 2 = n := Nat.mod_eq_of_lt (by omega)
    rw [assembleLine, if_pos h, if_pos h, encode, encodeSamples, encodeHeader_clearStatus_eq, BitVec.toNat_ofNat, hn,
      or_ofNat_of_lt (k := 2) rfl (by omega)]
    rfl
  · rw [assembleLine, if_neg h, if_neg h]

theorem fitsSample_iff (v : Int) : fitsSample v = true ↔ -32768 ≤ v ∧ v ≤ 32767 := by
  simp [fitsSample]

theorem assembleLine_processBuffer (buf : List (Int × Int)) :
    assembleLine p (.processBuffer buf) =
      if buf.length = p.rawCount ∧
          ∀ iq ∈ buf, -32768 ≤ iq.1 ∧ iq.1 ≤ 32767 ∧ -32768 ≤ iq.2 ∧ iq.2 ≤ 32767 then
        some (0x02000000#32 ::
          buf.map fun iq => BitVec.ofNat 32 ((iq.2 % 2 ^ 16).toNat * 2 ^ 16 + (iq.1 % 2 ^ 16).toNat))
      else none := by
  have hfit : buf.all (fun iq => fitsSample iq.1 && fitsSample iq.2) = true ↔
      ∀ iq ∈ buf, -32768 ≤ iq.1 ∧ iq.1 ≤ 32767 ∧ -32768 ≤ iq.2 ∧ iq.2 ≤ 32767 := by
    simp only [List.all_eq_true, Bool.and_eq_true, fitsSample_iff, and_assoc]
  have hwords : encode (.processBuffer 0 (buf.map fun iq => sampleWord iq.1 iq.2)) = 0x02000000#32 ::
      buf.map fun iq => BitVec.ofNat 32 ((iq.2 % 2 ^ 16).toNat * 2 ^ 16 + (iq.1 % 2 ^ 16).toNat) := by
    simp only [encode, encodeSamples, encodeHeader_processBuffer_eq, sampleWord_eq_ofNat]
    rfl
  simp only [assembleLine, hfit, hwords]

/-- A register name stands for its number, which is one a READ_REG line accepts (R63). -/
theorem assembleLine_readRegNamed (r : Reg) :
    assembleLine p (.readRegNamed r) = assembleLine p (.readReg r.number.toNat) := by
  have hr : r.number.toNat ≤ 255 := Nat.le_of_lt_succ r.number.isLt
  rw [assembleLine, assembleLine, if_pos hr, BitVec.ofNat_toNat, BitVec.setWidth_eq]

end

/-! ### The register names -/

theorem Reg.ofNumber_number (r : Reg) : Reg.ofNumber r.number = some r := by cases r <;> rfl

/-- No other number than its own stands for a register. -/
theorem Reg.number_of_ofNumber {n : BitVec 8} {r : Reg} (h : Reg.ofNumber n = some r) : n = r.number := by
  apply BitVec.eq_of_toNat_eq
  unfold Reg.ofNumber at h
  split at h <;> cases h
  all_goals assumption

/-- Settles O6: each line's words are its header word and its samples in numbers, a pseudo-command is the line it stands for,
and a register's name and its number in the map of R32 determine each other. -/
theorem assemblerLinesEncode : Obligations.AssemblerLinesEncode := by
  refine ⟨fun p n buf => ⟨?_, ?_, ?_, ?_, ?_, ?_, ?_, ?_, ?_, ?_⟩, fun p r => ⟨?_, ?_, ?_⟩, fun n r h => ?_⟩
  · exact assembleLine_configure p n false
  · exact assembleLine_configure p n true
  · exact assembleLine_processBuffer p buf
  · exact congrArg (some [·]) (encodeHeader_readPacket_eq 0)
  · exact assembleLine_readReg p n
  · exact assembleLine_clearStatus p n
  · rfl
  · rfl
  · rfl
  · rfl
  · exact assembleLine_readRegNamed p r
  · exact r.ofNumber_number
  · cases r <;> rfl
  · exact Reg.number_of_ofNumber h

end Sys2Proof.Machine
end

