-- ==== Sys2Proof/Proofs/Rejection.lean ====
section
/-! PROOFS. Sys2Proof/Proofs/Rejection.lean: the length of a command told from its opcode, and the step on a header word that is
illegal or has a nonzero reserved field (R59, R60, R61). -/

namespace Sys2Proof.Machine

/-! ### One word or 1 + RAW_COUNT words -/

theorem commandLength_of_ne {hdr : Word} (p : Params) (h : opcodeOf hdr ≠ 0x02) : commandLength p hdr = 1 := if_neg h

/-- A header word of any opcode but 2 is a whole command by itself or illegal (R59). -/
theorem decode_one_word (p : Params) {hdr : Word} (h : opcodeOf hdr ≠ 0x02) :
    (∃ i, decode p [hdr] = .ok (i, [])) ∨ ∃ e, decode p [hdr] = .error e := by
  rcases decode_cons_cases p hdr [] with
    ⟨-, hd⟩ | ⟨ho, -, -⟩ | ⟨ho, -, -⟩ | ⟨-, hd⟩ | ⟨-, hd⟩ | ⟨-, hd⟩ | ⟨-, hd⟩
  · exact .inl ⟨_, hd⟩
  · exact absurd ho h
  · exact absurd ho h
  · exact .inl ⟨_, hd⟩
  · exact .inl ⟨_, hd⟩
  · exact .inl ⟨_, hd⟩
  · exact .inr ⟨_, hd⟩

/-- A header word that decodes to nothing is taken alone (R61). -/
theorem fetch_illegal {p : Params} {hdr : Word} {e : DecodeError} (rest : List HostEvent) (h : opcodeOf hdr ≠ 0x02)
    (hd : decode p [hdr] = .error e) : fetch p (.word hdr :: rest) = .illegal rest := by
  simp [fetch, commandLength_of_ne p h, scanWords, hd]

/-- Settles O4: RAW_COUNT words after a header with opcode 2 are its samples, and a header with another opcode is decoded
alone. -/
theorem lengthIsToldFromOpcodeAlone : Obligations.LengthIsToldFromOpcodeAlone := by
  intro p hdr rest
  refine ⟨fun h samples hl => ?_, fun h => ?_⟩
  · refine fetch_of_decode (ws := hdr :: samples) rest ?_
    rw [decode_of_opcode_processBuffer p samples (opcodeOf_eq_iff.2 h) hl.ge, low_field_eq_ofNat, ← hl, List.take_length,
      List.drop_length]
  · have ho : opcodeOf hdr ≠ 0x02 := fun ho => h (opcodeOf_eq_iff.1 ho)
    rcases decode_one_word p ho with ⟨i, hd⟩ | ⟨e, hd⟩
    · exact .inl ⟨i, fetch_of_decode rest hd⟩
    · exact .inr (fetch_illegal rest ho hd)

/-! ### An illegal opcode -/

/-- Settles O10: the machine takes the header word alone, and CmdError is all that comes of it. -/
theorem illegalOpcodeSetsCmdErrAlone : Obligations.IllegalOpcodeSetsCmdErrAlone := by
  intro s hdr rest hp hin hop
  rw [← opcodeOf_toNat] at hop
  have ho : opcodeOf hdr ≠ 0x02 := by
    intro ho
    simp [ho] at hop
  rw [step, if_pos hp, hin, fetch_illegal rest ho (decode_of_opcode_illegal s.params [] hop)]
  rfl

/-! ### A nonzero reserved field -/

/-- What a command with a nonzero reserved field returns: one zero word for the two reads (R60). -/
def rejectionAnswer : Instr → List Word
  | .configure _ _ _ => []
  | .processBuffer _ _ => []
  | .readPacket _ => [0]
  | .readReg _ _ => [0]
  | .clearStatus _ _ => []

/-- A command with a nonzero reserved field raises CmdError and returns its answer, and nothing else comes of it (R60). -/
theorem exec_of_reserved {i : Instr} (h : i.reservedClear = false) (s : State) :
    exec i s = .next (raiseCmdError .reservedBits (respondAll (rejectionAnswer i) s)) := by
  cases i with
  | configure z rf sel =>
    rw [rejectionAnswer, respondAll_nil]
    exact if_pos (ne_of_beq_false h)
  | processBuffer z raw =>
    rw [rejectionAnswer, respondAll_nil]
    exact if_pos (ne_of_beq_false h)
  | readPacket z => exact if_pos (ne_of_beq_false h)
  | readReg z reg => exact if_pos (ne_of_beq_false h)
  | clearStatus z mask =>
    rw [rejectionAnswer, respondAll_nil]
    exact if_pos (ne_of_beq_false h)

/-- Settles O11: the machine takes the words the command encodes to, since they decode to it, and executes a rejection. -/
theorem reservedBitsRejectTheCommand : Obligations.ReservedBitsRejectTheCommand := by
  intro s i rest hp hi hz hin
  have hd : decode s.params (encode i) = .ok (i, []) := by
    simpa using decodeOfEncodeIsIdentity s.params i [] hi
  rw [stepRunsTheDecodedCommand s (encode i) i rest hp hd hin, exec_of_reserved hz]
  cases i <;> rfl

end Sys2Proof.Machine
end

