-- ==== Sys2Proof/Proofs/PowerEstimator.lean ====
section
/-! PROOFS. Sys2Proof/Proofs/PowerEstimator.lean: the squared magnitude of a sample, the peak of a buffer and MAG2DB (R65, R66,
R67, R68). -/

namespace Sys2Proof.Machine

/-! ### The squared magnitude -/

/-- A 16-bit two's-complement number, told from its unsigned value (R44). -/
theorem toInt_eq_of_toNat_eq {b : BitVec 16} {n : Nat} (h : b.toNat = n) :
    b.toInt = if n < 2 ^ 15 then (n : Int) else (n : Int) - 2 ^ 16 := by
  subst h
  have hb := b.toInt_eq_toNat_cond
  split <;> omega

theorem sampleI_eq_low_half (v : Word) :
    sampleI v =
      if v.toNat % 2 ^ 16 < 2 ^ 15 then (v.toNat % 2 ^ 16 : Int) else (v.toNat % 2 ^ 16 : Int) - 2 ^ 16 := by
  have hlow : (v.extractLsb' 0 16).toNat = v.toNat % 2 ^ 16 := by rw [BitVec.extractLsb'_toNat, Nat.shiftRight_zero]
  exact toInt_eq_of_toNat_eq hlow

theorem sampleQ_eq_high_half (v : Word) :
    sampleQ v =
      if v.toNat / 2 ^ 16 < 2 ^ 15 then (v.toNat / 2 ^ 16 : Int) else (v.toNat / 2 ^ 16 : Int) - 2 ^ 16 := by
  have hv := v.isLt
  have hhigh : (v.extractLsb' 16 16).toNat = v.toNat / 2 ^ 16 := by
    rw [BitVec.extractLsb'_toNat, Nat.shiftRight_eq_div_pow, Nat.mod_eq_of_lt (by omega)]
  exact toInt_eq_of_toNat_eq hhigh

theorem magSq_cast (v : Word) : (magSq v : Int) = sampleI v * sampleI v + sampleQ v * sampleQ v :=
  Int.toNat_of_nonneg (add_nonneg (mul_self_nonneg _) (mul_self_nonneg _))

theorem mul_self_le_of_component {n : Int} (h1 : -32768 ≤ n) (h2 : n ≤ 32767) : n * n ≤ 2 ^ 30 := by
  nlinarith

/-- Only the component -32768 has the square 2^30, as 32768 is none (R65). -/
theorem mul_self_eq_iff_of_component {n : Int} (h : n ≤ 32767) : n * n = 2 ^ 30 ↔ n = -32768 := by
  rw [show (2 : Int) ^ 30 = 32768 * 32768 by norm_num, mul_self_eq_mul_self_iff]
  omega

/-- Settles O24: the square of a component is at most 2^30, so the sum is 2^31 only when both squares are 2^30. -/
theorem squaredMagnitudeIsExact : Obligations.SquaredMagnitudeIsExact := by
  intro v
  obtain ⟨hI1, hI2⟩ := sampleI_range v
  obtain ⟨hQ1, hQ2⟩ := sampleQ_range v
  have hm := magSq_cast v
  have hI := mul_self_le_of_component hI1 hI2
  have hQ := mul_self_le_of_component hQ1 hQ2
  refine ⟨sampleI_eq_low_half v, sampleQ_eq_high_half v, hm, hI1, hI2, hQ1, hQ2, by omega, ?_⟩
  rw [← mul_self_eq_iff_of_component hI2, ← mul_self_eq_iff_of_component hQ2]
  omega

/-! ### The peak of a buffer -/

theorem peakFrom_cons (mx : Nat) (v : Word) (vs : List Word) :
    peakFrom mx (v :: vs) = peakFrom (max mx (magSq v)) vs := by
  rw [peakFrom, max_def_lt]

/-- A number bounds the peak exactly when it bounds the start and every squared magnitude. -/
theorem peakFrom_le_iff {mx b : Nat} {raw : List Word} :
    peakFrom mx raw ≤ b ↔ mx ≤ b ∧ ∀ v ∈ raw, magSq v ≤ b := by
  induction raw generalizing mx with
  | nil => simp [peakFrom]
  | cons v vs ih => simp [peakFrom_cons, ih, and_assoc]

theorem magSq_le_peakFrom {mx : Nat} {raw : List Word} {v : Word} (h : v ∈ raw) : magSq v ≤ peakFrom mx raw :=
  (peakFrom_le_iff.mp le_rfl).2 v h

theorem peakFrom_eq_or_attained (mx : Nat) (raw : List Word) :
    peakFrom mx raw = mx ∨ ∃ v ∈ raw, magSq v = peakFrom mx raw := by
  induction raw generalizing mx with
  | nil => exact .inl rfl
  | cons v vs ih =>
    rw [peakFrom_cons]
    obtain hstart | ⟨u, hu, hpeak⟩ := ih (max mx (magSq v))
    · rw [hstart]
      rcases max_choice mx (magSq v) with hmx | hv
      · exact .inl hmx
      · exact .inr ⟨v, List.mem_cons_self, hv.symm⟩
    · exact .inr ⟨u, List.mem_cons_of_mem v hu, hpeak⟩

/-- A peak of 0 from 0 is attained too: it bounds the squared magnitude of any sample. -/
theorem peakFrom_zero_attained {raw : List Word} (h : raw ≠ []) : ∃ v ∈ raw, magSq v = peakFrom 0 raw := by
  obtain hzero | hattained := peakFrom_eq_or_attained 0 raw
  · obtain ⟨v, hv⟩ := List.exists_mem_of_ne_nil raw h
    have hle := magSq_le_peakFrom (mx := 0) hv
    exact ⟨v, hv, by omega⟩
  · exact hattained

theorem peakFrom_perm {mx : Nat} {raw raw' : List Word} (h : raw.Perm raw') : peakFrom mx raw = peakFrom mx raw' :=
  eq_of_forall_ge_iff fun b => by simp only [peakFrom_le_iff, h.mem_iff]

/-- Settles O25: the peak is the least bound of the squared magnitudes, which no order of the samples has an effect on. -/
theorem peakIsTheMaximum : Obligations.PeakIsTheMaximum :=
  ⟨fun _ => ⟨fun _ => magSq_le_peakFrom, peakFrom_zero_attained⟩, fun _ _ => peakFrom_perm⟩

/-! ### The integer test of MAG2DB -/

/-- The test's two powers of ten are one integer power, moved to the left. -/
theorem dbAtMost_iff_zpow {d : Int} {x : Nat} :
    dbAtMost d x = true ↔ ((2 : ℝ) ^ 30) ^ 10 * (10 : ℝ) ^ d ≤ (x : ℝ) ^ 10 := by
  rw [dbAtMost, decide_eq_true_iff]
  obtain ⟨n, rfl | rfl⟩ := d.eq_nat_or_neg
  · rw [Int.toNat_natCast, Int.toNat_neg_natCast, pow_zero, mul_one, zpow_natCast]
    norm_cast
  · rw [neg_neg, Int.toNat_natCast, Int.toNat_neg_natCast, pow_zero, mul_one, zpow_neg, zpow_natCast,
      ← div_eq_mul_inv, div_le_iff₀ (by positivity)]
    norm_cast

/-- The test decides R67's inequality, which is the integer one under the tenth root. -/
theorem dbAtMost_iff_rpow {d : Int} {x : Nat} :
    dbAtMost d x = true ↔ (2 : ℝ) ^ 30 * (10 : ℝ) ^ ((d : ℝ) / 10) ≤ x := by
  have hroot : ((10 : ℝ) ^ ((d : ℝ) / 10)) ^ 10 = (10 : ℝ) ^ d := by
    rw [← Real.rpow_mul_natCast (by norm_num), Nat.cast_ofNat, div_mul_cancel₀ _ (by norm_num), Real.rpow_intCast]
  rw [dbAtMost_iff_zpow, ← hroot, ← mul_pow]
  exact pow_le_pow_iff_left₀ (by positivity) (by positivity) (by norm_num)

/-- The test holds on for a larger number and a lower level. -/
theorem dbAtMost_of_le {d e : Int} {x y : Nat} (hd : d ≤ e) (hx : x ≤ y) (h : dbAtMost e x = true) :
    dbAtMost d y = true := by
  rw [dbAtMost_iff_zpow] at h ⊢
  calc ((2 : ℝ) ^ 30) ^ 10 * (10 : ℝ) ^ d
      ≤ ((2 : ℝ) ^ 30) ^ 10 * (10 : ℝ) ^ e := by gcongr; norm_num
    _ ≤ (x : ℝ) ^ 10 := h
    _ ≤ (y : ℝ) ^ 10 := by gcongr

/-- Multiplying by `c` raises the level by `a` at least, where c^10 is 10^a or more. -/
theorem dbAtMost_mul {a c x : Nat} {d : Int} (hc : 10 ^ a ≤ c ^ 10) (h : dbAtMost d x = true) :
    dbAtMost (d + a) (c * x) = true := by
  rw [dbAtMost_iff_zpow] at h ⊢
  have hc' : (10 : ℝ) ^ a ≤ (c : ℝ) ^ 10 := by exact_mod_cast hc
  calc ((2 : ℝ) ^ 30) ^ 10 * (10 : ℝ) ^ (d + a)
      = (10 : ℝ) ^ a * (((2 : ℝ) ^ 30) ^ 10 * (10 : ℝ) ^ d) := by
        rw [zpow_add₀ (by norm_num), zpow_natCast]; ring
    _ ≤ (c : ℝ) ^ 10 * (x : ℝ) ^ 10 := by gcongr
    _ = ((c * x : Nat) : ℝ) ^ 10 := by push_cast; ring

/-- Multiplying by `c` raises the level by `a` at most, where c^10 is 10^a or less. -/
theorem dbAtMost_of_mul {a c x : Nat} {d : Int} (hc : c ^ 10 ≤ 10 ^ a) (h : dbAtMost (d + a) (c * x) = true) :
    dbAtMost d x = true := by
  rw [dbAtMost_iff_zpow] at h ⊢
  have hc' : (c : ℝ) ^ 10 ≤ (10 : ℝ) ^ a := by exact_mod_cast hc
  refine le_of_mul_le_mul_left ?_ (show (0 : ℝ) < 10 ^ a by positivity)
  calc (10 : ℝ) ^ a * (((2 : ℝ) ^ 30) ^ 10 * (10 : ℝ) ^ d)
      = ((2 : ℝ) ^ 30) ^ 10 * (10 : ℝ) ^ (d + a) := by
        rw [zpow_add₀ (by norm_num), zpow_natCast]; ring
    _ ≤ ((c * x : Nat) : ℝ) ^ 10 := h
    _ = (c : ℝ) ^ 10 * (x : ℝ) ^ 10 := by push_cast; ring
    _ ≤ (10 : ℝ) ^ a * (x : ℝ) ^ 10 := by gcongr

/-! ### The search of MAG2DB -/

@[simp] theorem mag2db_zero : mag2db 0 = -128 := rfl

theorem mag2db_of_pos {x : Nat} (hx : 1 ≤ x) : mag2db x = greatestDb x 97 := if_neg (by omega)

theorem dbAtMost_greatestDb {x : Nat} (h : dbAtMost (-91) x = true) (k : Nat) :
    dbAtMost (greatestDb x k) x = true := by
  induction k with
  | zero => exact h
  | succ k ih =>
    rw [greatestDb]
    split
    case isTrue htest => exact htest
    case isFalse => exact ih

theorem le_greatestDb {x k : Nat} {d : Int} (hd : d ≤ (k : Int) - 91) (h : dbAtMost d x = true) :
    d ≤ greatestDb x k := by
  induction k with
  | zero => exact hd
  | succ k ih =>
    rw [greatestDb]
    push_cast at hd
    split
    case isTrue => omega
    case isFalse hfail =>
      have hne : d ≠ (k : Int) - 90 := fun heq => hfail (heq ▸ h)
      exact ih (by omega)

/-- The search's lower end passes for every number but 0. -/
theorem dbAtMost_bottom {x : Nat} (hx : 1 ≤ x) : dbAtMost (-91) x = true :=
  dbAtMost_of_le le_rfl hx (by decide)

/-- A level above the search's upper end passes for no 32-bit number. -/
theorem le_top_of_dbAtMost {d : Int} {x : Nat} (hx : x < 2 ^ 32) (h : dbAtMost d x = true) : d ≤ 6 := by
  by_contra hd
  exact absurd (dbAtMost_of_le (show 7 ≤ d by omega) hx.le h) (by decide)

/-- MAG2DB for a number other than 0: the levels that pass the test are those up to it (R67). -/
theorem le_mag2db_iff {d : Int} {x : Nat} (h1 : 1 ≤ x) (h2 : x < 2 ^ 32) :
    d ≤ mag2db x ↔ dbAtMost d x = true := by
  rw [mag2db_of_pos h1]
  constructor
  · intro hd
    exact dbAtMost_of_le hd le_rfl (dbAtMost_greatestDb (dbAtMost_bottom h1) 97)
  · intro h
    exact le_greatestDb (by have := le_top_of_dbAtMost h2 h; omega) h

theorem mag2db_ge {x : Nat} (h1 : 1 ≤ x) (h2 : x < 2 ^ 32) : -91 ≤ mag2db x :=
  (le_mag2db_iff h1 h2).mpr (dbAtMost_bottom h1)

theorem mag2db_le_three {x : Nat} (h1 : 1 ≤ x) (h2 : x ≤ 2 ^ 31) : mag2db x ≤ 3 := by
  by_contra h
  have hfour : dbAtMost 4 x = true := (le_mag2db_iff h1 (by omega)).mp (by omega)
  exact absurd (dbAtMost_of_le le_rfl h2 hfour) (by decide)

theorem mag2db_full_scale : mag2db (2 ^ 30) = 0 := by decide

/-- Settles O26: the levels that pass R67's inequality over the reals are those that pass the integer test, and these are the
levels up to MAG2DB. -/
theorem decibelIsTheGreatestInteger : Obligations.DecibelIsTheGreatestInteger := by
  refine ⟨mag2db_zero, mag2db_full_scale, fun x h1 h2 => ⟨?_, fun d hd => ?_⟩, fun x h1 h2 => ⟨?_, ?_⟩⟩
  · exact dbAtMost_iff_rpow.mp ((le_mag2db_iff h1 h2).mp le_rfl)
  · exact (le_mag2db_iff h1 h2).mpr (dbAtMost_iff_rpow.mpr hd)
  · exact mag2db_ge h1 (by omega)
  · exact mag2db_le_three h1 h2

/-! ### How MAG2DB grows -/

theorem mag2db_mono {x y : Nat} (hxy : x ≤ y) (hy : y < 2 ^ 32) : mag2db x ≤ mag2db y := by
  rcases Nat.eq_zero_or_pos y with rfl | hypos
  · rw [Nat.le_zero.mp hxy]
  rcases Nat.eq_zero_or_pos x with rfl | hxpos
  · have := mag2db_ge hypos hy
    rw [mag2db_zero]
    omega
  · have hx : dbAtMost (mag2db x) x = true := (le_mag2db_iff hxpos (by omega)).mp le_rfl
    exact (le_mag2db_iff hypos hy).mpr (dbAtMost_of_le le_rfl hxy hx)

section
variable {a c x : Nat} (hx : 1 ≤ x) (hcx : 1 ≤ c * x) (hlt : x < 2 ^ 32) (hclt : c * x < 2 ^ 32)
include hx hcx hlt hclt

theorem mag2db_add_le_mul (hc : 10 ^ a ≤ c ^ 10) : mag2db x + a ≤ mag2db (c * x) :=
  (le_mag2db_iff hcx hclt).mpr (dbAtMost_mul hc ((le_mag2db_iff hx hlt).mp le_rfl))

theorem mag2db_mul_le_add (hc : c ^ 10 ≤ 10 ^ a) : mag2db (c * x) ≤ mag2db x + a := by
  have htop : dbAtMost (mag2db (c * x) - a + a) (c * x) = true := by
    rw [sub_add_cancel]
    exact (le_mag2db_iff hcx hclt).mp le_rfl
  have hle : mag2db (c * x) - a ≤ mag2db x := (le_mag2db_iff hx hlt).mpr (dbAtMost_of_mul hc htop)
  omega

end

/-- Settles O27: 10^3 <= 2^10 <= 10^4 puts doubling between 3 and 4, and ten's tenth power is 10^10 itself. -/
theorem decibelIsMonotonic : Obligations.DecibelIsMonotonic := by
  refine ⟨fun x y => mag2db_mono, ⟨mag2db_zero, fun x h1 h2 => ?_⟩, fun x h1 h2 => ?_, fun x h1 h2 => ?_⟩
  · have := mag2db_ge h1 h2
    omega
  · have hlow := mag2db_add_le_mul (a := 3) (c := 2) h1 (by omega) (by omega) (by omega) (by norm_num)
    have hhigh := mag2db_mul_le_add (a := 4) (c := 2) h1 (by omega) (by omega) (by omega) (by norm_num)
    omega
  · have hlow := mag2db_add_le_mul (a := 10) (c := 10) h1 (by omega) (by omega) (by omega) le_rfl
    have hhigh := mag2db_mul_le_add (a := 10) (c := 10) h1 (by omega) (by omega) (by omega) le_rfl
    exact le_antisymm hhigh hlow

end Sys2Proof.Machine
end

