-- ==== Sys2Proof/Proofs/Decimator.lean ====
section
/-! PROOFS. Sys2Proof/Proofs/Decimator.lean: the outputs of DECIMATE as filtered samples, the raw stream across buffers, and
the clearing of the history (R70 to R73, R75). -/

namespace Sys2Proof.Machine

/-! ### One component of an output -/

/-- One component of an output whose inputs, from the newest back, are `x`: the tap sum, shifted and saturated (R71). -/
def filtered (p : Params) (comp : Word → Int) (x : Nat → Word) : Int :=
  sat16 (shiftFloor (tapSum x comp p.taps 0) p.tapShift)

theorem decimOut_eq_filtered (p : Params) (raw fhist : List Word) (j : Nat) :
    decimOut p raw fhist j =
      sampleWord (filtered p sampleI (sampleBack raw fhist (j * p.decim + p.decim - 1)))
        (filtered p sampleQ (sampleBack raw fhist (j * p.decim + p.decim - 1))) := rfl

/-- The filter looks back over NTAPS samples and no further. -/
theorem filtered_congr {p : Params} {comp : Word → Int} {x y : Nat → Word}
    (h : ∀ k, k < p.taps.length → x k = y k) : filtered p comp x = filtered p comp y := by
  have hsum : tapSum x comp p.taps 0 = tapSum y comp p.taps 0 := by
    rw [tapSum_eq_sum, tapSum_eq_sum]
    refine Finset.sum_congr rfl fun i hi => ?_
    rw [Nat.zero_add, h i (Finset.mem_range.mp hi)]
  rw [filtered, filtered, hsum]

theorem sat16_eq_max_min (v : Int) : sat16 v = max (-32768) (min 32767 v) := by
  unfold sat16
  split
  · omega
  · split <;> omega

/-- The arithmetic shift of R12 is the floor of the quotient. -/
theorem shiftFloor_eq_floor (a : Int) (n : Nat) : shiftFloor a n = ⌊(a : ℚ) / 2 ^ n⌋ := by
  rw [shiftFloor, ← Rat.floor_intCast_div_natCast]
  norm_cast

theorem filtered_eq_clamped_floor (p : Params) (comp : Word → Int) (x : Nat → Word) :
    filtered p comp x =
      max (-32768) (min 32767
        ⌊((∑ k ∈ Finset.range p.taps.length, p.taps.getD k 0 * comp (x k) : Int) : ℚ) / 2 ^ p.tapShift⌋) := by
  simp only [filtered, sat16_eq_max_min, shiftFloor_eq_floor, tapSum_eq_sum, Nat.zero_add]

theorem decimOut_low (p : Params) (raw fhist : List Word) (j : Nat) :
    ((decimOut p raw fhist j).extractLsb' 0 16).toInt =
      filtered p sampleI (sampleBack raw fhist (j * p.decim + p.decim - 1)) := by
  rw [decimOut_eq_filtered, sampleWord_low]
  exact ofInt_sat16_toInt _

theorem decimOut_high (p : Params) (raw fhist : List Word) (j : Nat) :
    ((decimOut p raw fhist j).extractLsb' 16 16).toInt =
      filtered p sampleQ (sampleBack raw fhist (j * p.decim + p.decim - 1)) := by
  rw [decimOut_eq_filtered, sampleWord_high]
  exact ofInt_sat16_toInt _

/-! ### The entries of the outputs and of the history -/

theorem decimOuts_getElem? (p : Params) (raw fhist : List Word) {j : Nat} (h : j < p.symbolsPerBuffer) :
    (decimOuts p raw fhist)[j]? = some (decimOut p raw fhist j) := by
  simp [decimOuts, h]

theorem nextHistory_getElem? (p : Params) (raw fhist : List Word) {i : Nat} (h : i < p.ntaps - 1) :
    (nextHistory p raw fhist)[i]? = some (sampleBack raw fhist p.rawCount (i + 1)) := by
  simp [nextHistory, h]

theorem nextHistory_getD (p : Params) (raw fhist : List Word) {i : Nat} (h : i < p.ntaps - 1) :
    (nextHistory p raw fhist).getD i 0 = sampleBack raw fhist p.rawCount (i + 1) := by
  rw [List.getD_eq_getElem?_getD, nextHistory_getElem? p raw fhist h, Option.getD_some]

/-! ### The samples an output looks back on -/

theorem sampleBack_of_le {raw fhist : List Word} {c k : Nat} (h : k ≤ c) :
    sampleBack raw fhist c k = raw.getD (c - k) 0 := if_pos h

theorem sampleBack_of_lt {raw fhist : List Word} {c k : Nat} (h : c < k) :
    sampleBack raw fhist c k = fhist.getD (k - c - 1) 0 := if_neg (Nat.not_le.mpr h)

/-- The sample `k` before offset `c` is X(t0 + t) of R71 at t = c - k. -/
theorem sampleBack_eq_stream (raw fhist : List Word) {c k : Nat} {t : Int} (ht : t = c - k) :
    sampleBack raw fhist c k = if 0 ≤ t then raw.getD t.toNat 0 else fhist.getD ((-t).toNat - 1) 0 := by
  rcases Nat.lt_or_ge c k with h | h
  · rw [sampleBack_of_lt h, if_neg (by omega), show (-t).toNat - 1 = k - c - 1 by omega]
  · rw [sampleBack_of_le h, if_pos (by omega), show t.toNat = c - k by omega]

/-- Looking back from within the first buffer does not see the second. -/
theorem sampleBack_append_left {raw1 : List Word} (raw2 fhist : List Word) {c : Nat} (hc : c < raw1.length) (k : Nat) :
    sampleBack (raw1 ++ raw2) fhist c k = sampleBack raw1 fhist c k := by
  unfold sampleBack
  rw [List.getD_append _ _ _ _ (by omega)]

/-- Looking back from the second buffer sees the first one, and what was before it, through the history the first leaves,
as far as that history reaches (R70). -/
theorem sampleBack_append_right {p : Params} {raw1 : List Word} (raw2 fhist : List Word) (h1 : raw1.length = p.rawCount)
    {c k : Nat} (hk : k ≤ c + (p.ntaps - 1)) :
    sampleBack (raw1 ++ raw2) fhist (p.rawCount + c) k = sampleBack raw2 (nextHistory p raw1 fhist) c k := by
  rcases Nat.lt_or_ge c k with hck | hkc
  · rw [sampleBack_of_lt hck, nextHistory_getD _ _ _ (by omega)]
    rcases Nat.lt_or_ge (p.rawCount + c) k with hold | hfirst
    · rw [sampleBack_of_lt hold, sampleBack_of_lt (by omega)]
      congr 1
      omega
    · rw [sampleBack_of_le hfirst, sampleBack_of_le (by omega), List.getD_append _ _ _ _ (by omega)]
      congr 1
      omega
  · rw [sampleBack_of_le hkc, sampleBack_of_le (by omega), List.getD_append_right _ _ _ _ (by omega)]
    congr 1
    omega

/-- Settles O59: looking back k samples from output j's newest input is X at c - k, and the sum, the shift and the saturation
are those of R71. -/
theorem decimatorIsTheTapFilter : Obligations.DecimatorIsTheTapFilter := by
  intro p raw fhist hp hraw hfhist x acc
  obtain ⟨hdecim, -⟩ := (paramsInBounds_iff p).mp hp
  have hx (j k : Nat) : sampleBack raw fhist (j * p.decim + p.decim - 1) k = x ((j * p.decim + p.decim - 1 : Int) - k) := by
    refine sampleBack_eq_stream raw fhist ?_
    rw [Nat.cast_sub (by omega)]
    push_cast
    rfl
  refine ⟨fun j hj => ⟨decimOuts_getElem? p raw fhist hj, ?_, ?_⟩, decimOuts_length p raw fhist,
    nextHistory_length p raw fhist, fun k hk1 hk2 => ?_⟩
  · rw [decimOut_low, filtered_eq_clamped_floor]
    simp only [hx]
    rfl
  · rw [decimOut_high, filtered_eq_clamped_floor]
    simp only [hx]
    rfl
  · rw [nextHistory_getElem? p raw fhist (show k - 1 < p.taps.length - 1 by omega), Nat.sub_add_cancel hk1,
      sampleBack_eq_stream raw fhist rfl]

/-! ### Two buffers in turn -/

section
variable {p : Params} {raw1 : List Word} (raw2 fhist : List Word) (h1 : raw1.length = p.rawCount)
include h1

/-- The outputs of the first buffer do not depend on the second. -/
theorem decimOut_append_left {j : Nat} (hj : (j + 1) * p.decim ≤ p.rawCount) (hdecim : 1 ≤ p.decim) :
    decimOut { p with rawCount := 2 * p.rawCount } (raw1 ++ raw2) fhist j = decimOut p raw1 fhist j := by
  have hc : j * p.decim + p.decim - 1 < raw1.length := by
    rw [Nat.add_mul] at hj
    omega
  have hback := funext (sampleBack_append_left raw2 fhist hc)
  simp only [decimOut_eq_filtered, hback]
  rfl

/-- The outputs after the first buffer's M are those of the second buffer with the history the first leaves. -/
theorem decimOut_append_right {m : Nat} (hm : m * p.decim = p.rawCount) (hdecim : 1 ≤ p.decim) (j : Nat) :
    decimOut { p with rawCount := 2 * p.rawCount } (raw1 ++ raw2) fhist (m + j) =
      decimOut p raw2 (nextHistory p raw1 fhist) j := by
  have hc : (m + j) * p.decim + p.decim - 1 = p.rawCount + (j * p.decim + p.decim - 1) := by
    rw [Nat.add_mul]
    omega
  have hback (k : Nat) (hk : k < p.taps.length) :=
    sampleBack_append_right raw2 fhist h1 (c := j * p.decim + p.decim - 1) (k := k)
      (by simp only [Params.ntaps]; omega)
  simp only [decimOut_eq_filtered, hc]
  exact congrArg₂ sampleWord (filtered_congr hback) (filtered_congr hback)

theorem nextHistory_append :
    nextHistory { p with rawCount := 2 * p.rawCount } (raw1 ++ raw2) fhist =
      nextHistory p raw2 (nextHistory p raw1 fhist) := by
  refine List.map_congr_left fun i hi => ?_
  have hi' : i < p.ntaps - 1 := List.mem_range.mp hi
  rw [Nat.two_mul]
  exact sampleBack_append_right raw2 fhist h1 (by omega)

end

/-- Settles O29: DECIM divides RAW_COUNT, so the second buffer's outputs are aligned in the concatenation as in the buffer
itself, and each looks back on the same samples. -/
theorem decimationIsContinuousAcrossBuffers : Obligations.DecimationIsContinuousAcrossBuffers := by
  intro p raw1 raw2 fhist hp h1 h2 hfhist
  obtain ⟨hdecim, -, hmod, -⟩ := (paramsInBounds_iff p).mp hp
  have hm : p.symbolsPerBuffer * p.decim = p.rawCount := Nat.div_mul_cancel (Nat.dvd_of_mod_eq_zero hmod)
  have htwice : Params.symbolsPerBuffer { p with rawCount := 2 * p.rawCount } =
      p.symbolsPerBuffer + p.symbolsPerBuffer := by
    rw [← Nat.two_mul]
    exact Nat.mul_div_assoc 2 (Nat.dvd_of_mod_eq_zero hmod)
  refine ⟨?_, nextHistory_append raw2 fhist h1⟩
  rw [decimOuts, htwice, List.range_add, List.map_append, List.map_map]
  refine congrArg₂ (· ++ ·) (List.map_congr_left fun j hj => ?_) (List.map_congr_left fun j _ => ?_)
  · have hj' : (j + 1) * p.decim ≤ p.symbolsPerBuffer * p.decim := Nat.mul_le_mul_right _ (List.mem_range.mp hj)
    exact decimOut_append_left raw2 fhist h1 (hm ▸ hj') hdecim
  · exact decimOut_append_right raw2 fhist h1 hm hdecim j

/-! ### The reference configuration -/

/-- With the one tap 1 and no shift, the newest sample's component comes out, as it needs no saturation. -/
theorem filtered_reference {comp : Word → Int} (hcomp : ∀ v, -32768 ≤ comp v ∧ comp v ≤ 32767) (x : Nat → Word) :
    filtered Params.reference comp x = comp (x 0) := by
  have hsum : tapSum x comp Params.reference.taps 0 = comp (x 0) := by simp [Params.reference, tapSum]
  have hshift (a : Int) : shiftFloor a Params.reference.tapShift = a := by simp [Params.reference, shiftFloor]
  obtain ⟨hlow, hhigh⟩ := hcomp (x 0)
  rw [filtered, hsum, hshift, sat16_of_range hlow hhigh]

theorem decimOut_reference (raw fhist : List Word) (j : Nat) :
    decimOut Params.reference raw fhist j = raw.getD (4 * j + 3) 0 := by
  have hc : j * Params.reference.decim + Params.reference.decim - 1 = 4 * j + 3 := by
    simp only [Params.reference]
    omega
  rw [decimOut_eq_filtered, filtered_reference sampleI_range, filtered_reference sampleQ_range, sampleWord_self, hc,
    sampleBack_of_le (Nat.zero_le _), Nat.sub_zero]

/-- Settles O28: the reference filter lets the newest sample of each four through, whatever the history. -/
theorem referenceDecimatorSelects : Obligations.ReferenceDecimatorSelects := by
  intro raw fhist _
  refine ⟨decimOuts_length _ raw fhist, fun j hj => ?_, rfl⟩
  rw [decimOuts_getD _ raw fhist hj, decimOut_reference]

/-! ### Clearing the history -/

/-- Settles O30: a CONFIGURE with Z = 0 leaves the one state `configuredState`, and reset and RF = 1 put zeros into the
history. -/
theorem filterHistoryIsClearedOnRequest : Obligations.FilterHistoryIsClearedOnRequest := by
  intro s t sel rest v
  simp only [exec, execConfigure_zero]
  refine ⟨?_, ?_, fun hv => ?_⟩
  · rintro ⟨rfl⟩ hv
    exact List.eq_of_mem_replicate hv
  · rintro ⟨rfl⟩
    rfl
  · rw [assertReset_fhist, resetWith_fhist] at hv
    exact List.eq_of_mem_replicate hv

end Sys2Proof.Machine
end

