-- ==== Sys2Proof/Proofs/BitDemodulator.lean ====
section
/-! PROOFS. Sys2Proof/Proofs/BitDemodulator.lean: the cross product of DEMOD, exact in 32 bits (R76, R77). -/

namespace Sys2Proof.Machine

/-- The least product is that of the least and the greatest component, -32768 * 32767. -/
theorem componentProduct_lower (a b : BitVec 16) : -1073709056 ≤ a.toInt * b.toInt := by
  have ha := a.le_toInt
  have ha' := a.toInt_lt
  have hb := b.le_toInt
  have hb' := b.toInt_lt
  rcases Int.le_total 0 a.toInt with hnonneg | hnonpos
  · have := mul_le_mul_of_nonneg_left hb hnonneg
    omega
  · have := mul_le_mul_of_nonpos_left (Int.le_sub_one_of_lt hb') hnonpos
    omega

theorem componentProduct_range (a b : BitVec 16) :
    -1073709056 ≤ a.toInt * b.toInt ∧ a.toInt * b.toInt ≤ 1073741824 :=
  ⟨componentProduct_lower a b, BitVec.toInt_mul_toInt_le⟩

theorem crossProduct_range (ia qa ib qb : BitVec 16) :
    -2147450880 ≤ ia.toInt * qb.toInt - ib.toInt * qa.toInt ∧
      ia.toInt * qb.toInt - ib.toInt * qa.toInt ≤ 2147450880 := by
  have hfirst := componentProduct_range ia qb
  have hsecond := componentProduct_range ib qa
  omega

/-- A product of two components does not wrap in 32 bits. -/
theorem toInt_mul_signExtend (a b : BitVec 16) :
    (a.signExtend 32 * b.signExtend 32).toInt = a.toInt * b.toInt := by
  obtain ⟨hlow, hhigh⟩ := componentProduct_range a b
  rw [BitVec.toInt_mul, BitVec.toInt_signExtend_of_le (by decide), BitVec.toInt_signExtend_of_le (by decide)]
  exact Int.bmod_eq_of_le (by omega) (by omega)

/-- Neither does the difference of two products. -/
theorem toInt_crossProduct (ia qa ib qb : BitVec 16) :
    (ia.signExtend 32 * qb.signExtend 32 - ib.signExtend 32 * qa.signExtend 32).toInt =
      ia.toInt * qb.toInt - ib.toInt * qa.toInt := by
  obtain ⟨hlow, hhigh⟩ := crossProduct_range ia qa ib qb
  rw [BitVec.toInt_sub, toInt_mul_signExtend, toInt_mul_signExtend]
  exact Int.bmod_eq_of_le (by omega) (by omega)

/-- DEMOD is the sign test of the 32-bit evaluation. -/
theorem demod_eq_slt (ia qa ib qb : BitVec 16) :
    demod (ia.toInt, qa.toInt) (ib.toInt, qb.toInt) =
      BitVec.slt 0#32 (ia.signExtend 32 * qb.signExtend 32 - ib.signExtend 32 * qa.signExtend 32) := by
  rw [demod, BitVec.slt_eq_decide, toInt_crossProduct, BitVec.toInt_zero]

/-- Settles O31: each product, and so the difference of two, stays in the signed 32-bit range, where sign extension,
product and difference are exact. -/
theorem crossProductFitsThirtyTwoBits : Obligations.CrossProductFitsThirtyTwoBits := by
  intro ia qa ib qb
  exact ⟨componentProduct_range ia qb, crossProduct_range ia qa ib qb, toInt_crossProduct ia qa ib qb,
    demod_eq_slt ia qa ib qb⟩

end Sys2Proof.Machine
end

