-- ==== Sys2Proof/Proofs/SyncCorrelator.lean ====
section
/-! PROOFS. Sys2Proof/Proofs/SyncCorrelator.lean: when a correlator step hits, and the bits BEGIN_SCAN takes up to the first
hit (R81 to R85, R91). -/

namespace Sys2Proof.Machine

/-! ### The hit condition -/

/-- COMPARE runs to the end exactly when the window, from the oldest slot on, is SYNC_WORD from bit 0 on. -/
theorem compareWindow_full_iff (sync : Word) (c : Correlator) :
    (compareWindow sync c).lastMatchLen.toNat = 32 ↔
      ∀ i, i < 32 → c.win.getLsbD ((c.woff.toNat + 1 + i) % 32) = sync.getLsbD i := by
  obtain ⟨hle, hmatch, hstop, -⟩ := compareWindow_spec sync c
  constructor
  · exact fun hfull i hi => hmatch i (hfull ▸ hi)
  · intro hall
    by_contra hne
    have hlt := Nat.lt_of_le_of_ne hle hne
    exact hstop hlt (hall _ hlt)

/-- Read oldest first, slot WOFF of the window stands against bit 0 of the word (R23, R85). -/
theorem windowOldestFirst_eq_wordBits_iff (c : Correlator) (v : Word) :
    windowOldestFirst c = wordBits v ↔ ∀ i, i < 32 → c.win.getLsbD ((c.woff.toNat + i) % 32) = v.getLsbD i := by
  simp only [windowOldestFirst, wordBits, List.map_inj_left, List.mem_range]

/-- The window that a step compares is the one it leaves, read from the slot after the one it wrote. -/
theorem pushBit_full_iff (sync : Word) (bit : Bool) (c : Correlator) :
    (pushBit sync bit c).lastMatchLen.toNat = 32 ↔ windowOldestFirst (pushBit sync bit c) = wordBits sync := by
  rw [windowOldestFirst_eq_wordBits_iff, pushBit_win, pushBit_woff, woff_succ_toNat]
  simp only [Nat.mod_add_mod]
  exact compareWindow_full_iff sync
    { c with win := setBit c.win c.woff.toNat bit, fill := BitVec.ofNat 6 (min (c.fill.toNat + 1) 32) }

/-- Settles O35: LAST_MATCH_LEN is 32 exactly when COMPARE finds no mismatch in the window. -/
theorem hitIffWindowEqualsSyncWord : Obligations.HitIffWindowEqualsSyncWord := by
  intro sync bit c
  rw [isHit_iff, pushBit_full_iff]

/-- At a hit the matched-bits register, which the step captures, is SYNC_WORD. -/
theorem pushBit_matchReg_of_isHit {sync : Word} {bit : Bool} {c : Correlator}
    (h : isHit (pushBit sync bit c) = true) : (pushBit sync bit c).matchReg = sync := by
  obtain ⟨-, hlen⟩ := (isHit_iff _).1 h
  obtain ⟨-, hreg⟩ := pushBit_matched sync bit c
  refine BitVec.eq_of_getLsbD_eq fun i hi => ?_
  rw [hreg, hlen, decide_eq_true hi, Bool.true_and]

/-- A step that does not hit takes the bit and moves CURSOR (R82). -/
theorem corrNext_of_not_isHit {s : State} {bit : Bool}
    (h : isHit (pushBit s.params.syncWord bit s.corr) = false) :
    corrNext s bit = { s with corr := pushBit s.params.syncWord bit s.corr, cursor := s.cursor + 1 } :=
  if_neg (Bool.eq_false_iff.1 h)

/-- A step that hits captures SYNC_WORD, and HIT_POS is 32 before the CURSOR it leaves (R84). -/
theorem corrNext_of_isHit {s : State} {bit : Bool} (h : isHit (pushBit s.params.syncWord bit s.corr) = true) :
    corrNext s bit =
      { s with
        corr := pushBit s.params.syncWord bit s.corr
        cursor := s.cursor + 1
        pstate := .header
        syncCapture := s.params.syncWord
        hitPos := s.cursor + 1 - 32
        syncCount := s.syncCount + 1 } := by
  have hcapture := pushBit_matchReg_of_isHit h
  have hpos : s.cursor - 31 = s.cursor + 1 - 32 := by bv_omega
  simp only [corrNext, if_pos h, hcapture, hpos]

/-! ### The states of a scan -/

/-- The correlator's registers after the first `k` bits from CURSOR on. -/
def corrAfter (s : State) (k : Nat) : Correlator :=
  (List.range k).foldl
    (fun c i => pushBit s.params.syncWord (bitAt s (s.cursor + BitVec.ofNat 32 i)) c) s.corr

theorem corrAfter_succ (s : State) (k : Nat) :
    corrAfter s (k + 1) =
      pushBit s.params.syncWord (bitAt s (s.cursor + BitVec.ofNat 32 k)) (corrAfter s k) := by
  simp only [corrAfter, List.range_succ, List.foldl_append, List.foldl_cons, List.foldl_nil]

/-- `s` after `k` correlator steps, none of them a hit. -/
def scanned (s : State) (k : Nat) : State :=
  { s with corr := corrAfter s k, cursor := s.cursor + BitVec.ofNat 32 k }

/-- `s` after `k` correlator steps, the last of them a hit (R84). -/
def scanHit (s : State) (k : Nat) : State :=
  { s with
    corr := corrAfter s k
    cursor := s.cursor + BitVec.ofNat 32 k
    pstate := .header
    syncCapture := s.params.syncWord
    hitPos := s.cursor + BitVec.ofNat 32 k - 32
    syncCount := s.syncCount + 1 }

theorem scanned_zero (s : State) : scanned s 0 = s := by
  simp [scanned, corrAfter]

theorem held_scanned {s : State} {k : Nat} (h : k ≤ held s) : held (scanned s k) = held s - k :=
  distance_succ h

theorem cursor_succ (n : Word) (k : Nat) : n + BitVec.ofNat 32 k + 1 = n + BitVec.ofNat 32 (k + 1) := by
  rw [BitVec.add_assoc, ← BitVec.ofNat_add_ofNat]
  rfl

/-- The next step decides the bit at `k`, counted from the CURSOR of `s`. -/
theorem pushBit_scanned (s : State) (k : Nat) :
    pushBit (scanned s k).params.syncWord (bitAt (scanned s k) (scanned s k).cursor) (scanned s k).corr =
      corrAfter s (k + 1) :=
  (corrAfter_succ s k).symm

/-- The step on the next bit does not hit: one more bit is scanned. -/
theorem corrNext_scanned_of_not_isHit {s : State} {k : Nat} (h : isHit (corrAfter s (k + 1)) = false) :
    corrNext (scanned s k) (bitAt (scanned s k) (scanned s k).cursor) = scanned s (k + 1) := by
  rw [corrNext_of_not_isHit (by rw [pushBit_scanned, h]), pushBit_scanned]
  simp only [scanned, cursor_succ]

/-- The step on the next bit hits. -/
theorem corrNext_scanned_of_isHit {s : State} {k : Nat} (h : isHit (corrAfter s (k + 1)) = true) :
    corrNext (scanned s k) (bitAt (scanned s k) (scanned s k).cursor) = scanHit s (k + 1) := by
  rw [corrNext_of_isHit (by rw [pushBit_scanned, h]), pushBit_scanned]
  simp only [scanned, scanHit, cursor_succ]

/-! ### BEGIN_SCAN -/

/-- What BEGIN_SCAN from `s` answers when it takes `k` bits: a hit on the last of them and on none before, or every defined
bit and no hit (R91). -/
inductive ScanAnswer (s : State) (k : Nat) : Bool × State → Prop where
  | hit : 1 ≤ k → k ≤ held s - 1 → (∀ j, 1 ≤ j → j < k → isHit (corrAfter s j) = false) →
      isHit (corrAfter s k) = true → ScanAnswer s k (true, scanHit s k)
  | noHit : k = held s - 1 → (∀ j, 1 ≤ j → j ≤ k → isHit (corrAfter s j) = false) →
      ScanAnswer s k (false, scanned s k)

/-- The scan from where `k` bits without a hit have led, with turns enough for the symbols left. -/
theorem beginScan_scanned {s : State} (hb : s.pstate = .begin) (hcap : held s ≤ symCap) {fuel k : Nat}
    (hk : k ≤ held s - 1) (hfuel : held s ≤ k + fuel)
    (hno : ∀ j, 1 ≤ j → j ≤ k → isHit (corrAfter s j) = false) :
    ∃ n r, beginScan fuel (scanned s k) = .ok r ∧ ScanAnswer s n r := by
  have hheld := held_scanned (s := s) (k := k) (by omega)
  induction fuel generalizing k with
  | zero => exact ⟨k, _, rfl, .noHit (by omega) hno⟩
  | succ m ih =>
    by_cases hd : 2 ≤ held (scanned s k)
    · rw [beginScan, if_pos hd, corrStep_of_held hd (by omega)]
      cases hhit : isHit (corrAfter s (k + 1)) with
      | true =>
        rw [corrNext_scanned_of_isHit hhit]
        exact ⟨k + 1, _, rfl, .hit (by omega) (by omega) (fun j h1 h2 => hno j h1 (by omega)) hhit⟩
      | false =>
        have hbegin : (scanned s (k + 1)).pstate ≠ .header := by simp [scanned, hb]
        have hno' : ∀ j, 1 ≤ j → j ≤ k + 1 → isHit (corrAfter s j) = false := fun j h1 h2 =>
          (Nat.le_succ_iff.1 h2).elim (hno j h1) fun hj => hj ▸ hhit
        obtain ⟨n, r, hr, hanswer⟩ := ih (by omega) (by omega) hno' (held_scanned (by omega))
        refine ⟨n, r, ?_, hanswer⟩
        rw [corrNext_scanned_of_not_isHit hhit, ← hr]
        exact if_neg hbegin
    · exact ⟨k, _, by rw [beginScan, if_neg hd], .noHit (by omega) hno⟩

/-- BEGIN_SCAN takes the bits from CURSOR on up to the first hit, or all of them. -/
theorem beginScan_answer {s : State} (hb : s.pstate = .begin) (hcap : held s ≤ symCap) :
    ∃ k r, beginScan (held s) s = .ok r ∧ ScanAnswer s k r := by
  have h := beginScan_scanned hb hcap (fuel := held s) (k := 0) (Nat.zero_le _) (by omega)
    (fun j h1 h2 => absurd h1 (by omega))
  rwa [scanned_zero] at h

/-- Settles O36, by the two answers of a scan. -/
theorem scanStopsAtTheFirstHit : Obligations.ScanStopsAtTheFirstHit := by
  intro s hb hcap
  obtain ⟨k, ⟨go, t⟩, hscan, hanswer⟩ := beginScan_answer hb hcap
  refine ⟨k, go, t, hscan, ?_⟩
  cases hanswer with
  | hit hpos hle hno hhit => exact ⟨hle, hno, fun _ => ⟨hpos, hhit, rfl⟩, nofun⟩
  | noHit hall hno =>
    exact ⟨hall.le, fun j h1 h2 => hno j h1 h2.le, nofun, fun _ => ⟨hall, fun hpos => hno k hpos le_rfl, rfl⟩⟩

end Sys2Proof.Machine
end

