-- ==== Sys2Proof/Proofs/PacketBytes.lean ====
section
/-! PROOFS. Sys2Proof/Proofs/PacketBytes.lean: the bits of an extracted byte, what HEADER_STEP and PAYLOAD_STEP make of
the stream's bytes, and that PARSE ends only where nothing proceeds (R89, R90, R92 to R97, R106). -/

namespace Sys2Proof.Machine

/-! ### EXTRACT_BYTE -/

theorem bitSum_lt (s : State) (q : Word) (n : Nat) : bitSum s q n < 2 ^ n := by
  induction n with
  | zero => simp [bitSum]
  | succ n ih =>
    have hbit : (bitAt s (q + BitVec.ofNat 32 n)).toNat * 2 ^ n ≤ 1 * 2 ^ n :=
      Nat.mul_le_mul_right _ (Bool.toNat_le _)
    rw [bitSum_succ, Nat.pow_succ]
    omega

/-- The bits of the stream stand in the sum at their own places. -/
theorem bitSum_testBit (s : State) (q : Word) {n k : Nat} (hk : k < n) :
    (bitSum s q n).testBit k = bitAt s (q + BitVec.ofNat 32 k) := by
  induction n with
  | zero => omega
  | succ n ih =>
    rw [bitSum_succ, Nat.add_comm, Nat.mul_comm, Nat.testBit_two_pow_mul_add _ (bitSum_lt s q n)]
    split
    next hlt => exact ih hlt
    next hge =>
      obtain rfl : k = n := by omega
      rw [Nat.sub_self]
      cases bitAt s (q + BitVec.ofNat 32 k) <;> rfl

/-- Bit `k` of a byte of the stream is b[q+k] (R92). -/
theorem byteAt_getLsbD (s : State) (q : Word) {k : Nat} (hk : k < 8) :
    (byteAt s q).getLsbD k = bitAt s (q + BitVec.ofNat 32 k) := by
  show (BitVec.ofNat 8 (bitSum s q 8)).getLsbD k = _
  rw [BitVec.getLsbD_ofNat, decide_eq_true hk, Bool.true_and, bitSum_testBit s q hk]

/-- Settles O32: the byte is the sum of the bits, each at its own place. -/
theorem extractByteIsLeastSignificantFirst : Obligations.ExtractByteIsLeastSignificantFirst :=
  fun s q hfirst hcap => ⟨byteAt s q, extractByte_of_held hfirst hcap, fun _ => byteAt_getLsbD s q⟩

/-! ### HEADER_STEP -/

/-- HEADER_STEP defers while fewer than 17 symbols are there (R93). -/
theorem headerStep_of_few {s : State} (h : held s < 17) : headerStep s = .ok (false, s) := if_pos h

/-- What HEADER_STEP leaves, from the two header bytes in ACC (R94). -/
theorem headerDone_withAcc {s : State} {m : Memory 8} {b0 b1 : Byte} (h0 : m.read 0 = b0) (h1 : m.read 1 = b1) :
    headerDone (withAcc s m) =
      { s with
        pend :=
          { acc := m
            accCur := 2
            ptype := b0
            psize := b1
            plen := BitVec.ofNat 10 (min (b1.toNat + s.params.ovh) 510) }
        cursor := s.cursor + 16
        pstate := .payload } := by
  have hmask : ∀ b : Byte, b &&& 0xFF = b := fun b => BitVec.and_allOnes
  have hread0 : accRead (withAcc s m) 0 = b0 := h0
  have hread1 : accRead (withAcc s m) 1 = b1 := h1
  simp only [headerDone, hread0, hread1, hmask, typeMask, sizeMask]
  rfl

/-- Settles O40: the extraction loop puts the two header bytes at ACC[0] and ACC[1] and leaves the rest of ACC. -/
theorem headerStepReadsTheHeader : Obligations.HeaderStepReadsTheHeader := by
  intro s hwf
  refine ⟨headerStep_of_few, fun hd hcap => ?_⟩
  have hread := accAfter_read (base := 0) (n := hdrBytes) (q := s.cursor) hwf (by decide)
  have h0 : (accAfter s 0 s.cursor hdrBytes).read 0 = byteAt s s.cursor := by
    rw [hread 0, if_pos (by decide)]
    simp
  have h1 : (accAfter s 0 s.cursor hdrBytes).read 1 = byteAt s (s.cursor + 8) := hread 1
  refine ⟨accAfter s 0 s.cursor hdrBytes, ?_, h0, h1, fun a ha => ?_⟩
  · rw [headerStep_of_held hd hcap, headerDone_withAcc h0 h1]
  · rw [hread a, if_neg (by simp only [hdrBytes]; omega)]

/-! ### The record of a packet -/

theorem recordDevid_of_long {s : State} (h : 6 ≤ s.pend.psize.toNat) {k : Nat} (hk : k < 6) :
    (recordDevid s)[k] = s.pend.acc.read (2 + k) := by
  simp only [recordDevid, if_pos (show devidBytes ≤ s.pend.psize.toNat from h)]
  interval_cases k <;> rfl

theorem recordDevid_of_short {s : State} (h : s.pend.psize.toNat < 6) :
    (∀ k (hk : k < 4), (recordDevid s)[k] = s.syncCapture.extractLsb' (8 * k) 8) ∧
      (recordDevid s)[4] = 0 ∧ (recordDevid s)[5] = 0 := by
  simp only [recordDevid, if_neg (show ¬ devidBytes ≤ s.pend.psize.toNat from Nat.not_le.2 h)]
  refine ⟨fun k hk => ?_, rfl, rfl⟩
  interval_cases k <;> rfl

theorem recordData_getElem (s : State) {i : Nat} (h : i < 249) :
    (recordData s)[i] = if i < s.pend.psize.toNat - 6 then s.pend.acc.read (8 + i) else 0 := by
  simp only [recordData, Vector.getElem_ofFn]
  rfl

theorem assemble_dlen_toNat (s : State) : (assemble s).dlen.toNat = s.pend.psize.toNat - 6 := by
  have := s.pend.psize.isLt
  show (BitVec.ofNat 8 (s.pend.psize.toNat - 6)).toNat = _
  rw [BitVec.toNat_ofNat, Nat.mod_eq_of_lt (by omega)]

/-! ### PAYLOAD_STEP -/

/-- PAYLOAD_STEP defers while fewer than 8 * PLEN + 1 symbols are there (R95). -/
theorem payloadStep_of_few {s : State} (h : held s < 8 * s.pend.plen.toNat + 1) : payloadStep s = .ok (false, s) :=
  if_pos h

/-- The state from which the record is assembled: the payload's bytes in ACC and ACC_CUR after them (R96). -/
def payloadGathered (s : State) : State :=
  payloadRead (withAcc s (accAfter s hdrBytes s.cursor s.pend.plen.toNat))

@[simp] theorem payloadGathered_psize (s : State) : (payloadGathered s).pend.psize = s.pend.psize := rfl

/-- Byte `k` of the payload stands at ACC[2 + k], behind the two header bytes (R96). -/
theorem payloadGathered_read {s : State} (hwf : s.pend.acc.wf accCap = true) (hplen : s.pend.plen.toNat ≤ 510)
    {k : Nat} (hk : k < s.pend.plen.toNat) :
    (payloadGathered s).pend.acc.read (2 + k) = byteAt s (s.cursor + BitVec.ofNat 32 (8 * k)) := by
  show (accAfter s 2 s.cursor s.pend.plen.toNat).read (2 + k) = _
  rw [accAfter_read hwf (by simp only [accCap]; omega), if_pos (by omega), Nat.add_sub_cancel_left]

/-- ACC and ACC_CUR play no part in ENQUEUE, and the Begin entry after it clears them (R96, R97, R107). -/
theorem payloadDone_withAcc (s : State) (m : Memory 8) :
    payloadDone (withAcc s m) =
      { enqueue (assemble (payloadRead (withAcc s m))) s with
        pstate := .begin
        corr := Correlator.clear
        pend := Pending.clear
        pktCount := s.pktCount + 1
        cursor := s.cursor + BitVec.ofNat 32 (8 * s.pend.plen.toNat) } := by
  generalize hr : assemble (payloadRead (withAcc s m)) = r
  rcases enqueue_cases r s with ⟨hroom, he⟩ | ⟨hfull, he⟩
  · have he' : enqueue r (payloadRead (withAcc s m)) = _ := if_pos hroom
    rw [payloadDone, hr, he, he']
    rfl
  · have he' : enqueue r (payloadRead (withAcc s m)) = _ := if_neg (Nat.not_lt.2 hfull)
    rw [payloadDone, hr, he, he']
    rfl

/-- Settles O41: the record is the one assembled from the gathered payload. -/
theorem payloadStepDeliversThePacket : Obligations.PayloadStepDeliversThePacket := by
  intro s hwf hsize hplen
  refine ⟨payloadStep_of_few, fun hd hcap => ⟨assemble (payloadGathered s), ?next, rfl, rfl, rfl,
    assemble_dlen_toNat (payloadGathered s), fun i hi => ?data, fun hlong k hk => ?devid,
    recordDevid_of_short (s := payloadGathered s)⟩⟩
  case next =>
    rw [payloadStep_of_held hd hcap hplen, payloadDone_withAcc]
    rfl
  case data =>
    show (recordData (payloadGathered s))[i] = _
    rw [recordData_getElem, payloadGathered_psize]
    split
    · rw [show 8 + i = 2 + (6 + i) by omega, payloadGathered_read hwf hplen (by omega)]
    · rfl
  case devid =>
    show (recordDevid (payloadGathered s))[k] = _
    rw [recordDevid_of_long (s := payloadGathered s) hlong hk, payloadGathered_read hwf hplen (by omega)]

/-! ### PARSE -/

/-- Settles O42: every turn that proceeds leaves fewer turns that can, and the bound allows for all of them. -/
theorem parseEndsOnlyWhenNothingProceeds : Obligations.ParseEndsOnlyWhenNothingProceeds :=
  fun _ _ => parse_ends

end Sys2Proof.Machine
end

