-- ==== Sys2Proof/Proofs/Commands.lean ====
section
/-! PROOFS. Sys2Proof/Proofs/Commands.lean: the whole next state of CONFIGURE, READ_PACKET, READ_REG and CLEAR_STATUS, the map of
the registers as a list, and ENQUEUE (R32, R101, R107 to R110). -/

namespace Sys2Proof.Machine

/-! ### CONFIGURE -/

/-- Settles O13: a well-formed CONFIGURE leaves the one state `configuredState`. -/
theorem configureNextState : Obligations.ConfigureNextState := by
  intro s z rf sel
  refine ⟨?_, congrArg (fun hdr => [hdr]) (encodeHeader_configure_eq z rf sel)⟩
  split
  next hz => exact if_pos hz
  next hz =>
    obtain rfl : z = 0 := not_not.1 hz
    exact execConfigure_zero rf sel s

/-! ### READ_PACKET -/

/-- READ_PACKET with no record queued (R108). -/
theorem execReadPacket_empty {s : State} (h : s.qcount = 0) : execReadPacket 0 s = .next (respond 0 s) := by
  rw [execReadPacket, if_neg (by simp), if_pos h]

/-- Settles O17, by the rejection, the empty queue and the record at QHEAD. -/
theorem readPacketNextState : Obligations.ReadPacketNextState := by
  intro s z
  refine ⟨?_, congrArg (fun hdr => [hdr]) (encodeHeader_readPacket_eq z)⟩
  split
  next hz => exact if_pos hz
  next hz =>
    obtain rfl : z = 0 := not_not.1 hz
    split
    next hq => exact execReadPacket_empty hq
    next hq => exact execReadPacket_queued hq

/-! ### READ_REG -/

/-- READ_REG of a reserved number (R109). -/
theorem execReadReg_reserved {reg : BitVec 8} (h : Reg.ofNumber reg = none) (s : State) :
    execReadReg 0 reg s = .next (raiseCmdError .reservedRegister (respond 0 s)) := by
  simp [execReadReg, h]

theorem Reg.number_le (r : Reg) : r.number.toNat ≤ 0x10 := by
  cases r <;> decide

/-- The numbers above 0x10 are reserved (R32). -/
theorem Reg.ofNumber_reserved {n : BitVec 8} (h : 0x10 < n.toNat) : Reg.ofNumber n = none := by
  cases hr : Reg.ofNumber n with
  | none => rfl
  | some r =>
    obtain rfl := Reg.number_of_ofNumber hr
    exact absurd r.number_le (Nat.not_le.2 h)

/-- The values of the registers in number order, the map of R32. -/
def registerWords (s : State) : List Word :=
  [statusReg s, configReg s, s.w, s.cursor, s.corr.win, winCtrlReg s, s.corr.matchReg, s.syncCapture, s.hitPos,
    pendingReg s, s.dbLevel.signExtend 32, s.maxsq, s.pktCount, s.dropCount, s.bufCount, s.syncCount, pendingLenReg s]

/-- A register's value stands in the map at its number. -/
theorem registerWords_getD (s : State) (r : Reg) : (registerWords s).getD r.number.toNat 0 = regValue s r := by
  cases r <;> rfl

theorem configReg_eq (s : State) : configReg s = s.channel.zeroExtend 32 := by
  rw [configReg, BitVec.zeroExtend, BitVec.setWidth_eq_append (by decide)]
  rfl

theorem pendingReg_eq (s : State) : pendingReg s = (s.pend.psize ++ s.pend.ptype).zeroExtend 32 := by
  apply BitVec.eq_of_toNat_eq
  simp only [pendingReg, toNat_append_eq_add, BitVec.toNat_setWidth, BitVec.toNat_ofNat]
  omega

theorem pendingLenReg_eq (s : State) :
    pendingLenReg s = BitVec.ofNat 32 (s.pend.plen.toNat + s.pend.accCur.toNat * 2 ^ 16) := by
  apply BitVec.eq_of_toNat_eq
  simp only [pendingLenReg, toNat_append_eq_add, BitVec.toNat_ofNat]
  omega

/-- Settles O18: a number up to 0x10 is that of one register, whose value stands there in the map; every other number is
reserved. -/
theorem readRegNextState : Obligations.ReadRegNextState := by
  intro s z reg
  refine ⟨?_, congrArg (fun hdr => [hdr]) (encodeHeader_readReg_eq z reg)⟩
  by_cases hz : z = 0
  · subst hz
    rcases Nat.lt_or_ge 0x10 reg.toNat with hreserved | hassigned
    · rw [if_pos (.inr hreserved)]
      exact execReadReg_reserved (Reg.ofNumber_reserved hreserved) s
    · obtain ⟨r, hr⟩ := Reg.ofNumber_assigned hassigned
      have hvalue := registerWords_getD s r
      rw [← Reg.number_of_ofNumber hr, registerWords, configReg_eq, pendingReg_eq, pendingLenReg_eq] at hvalue
      rw [if_neg (by simp [hassigned]), hvalue]
      exact execReadReg_assigned hr s
  · rw [if_pos (.inl hz)]
    exact if_pos hz

/-! ### CLEAR_STATUS -/

/-- A well-formed CLEAR_STATUS (R110). -/
theorem execClearStatus_zero (mask : BitVec 2) (s : State) :
    execClearStatus 0 mask s =
      .next { s with cmdErr := s.cmdErr && !mask.getLsbD 0, qOvf := s.qOvf && !mask.getLsbD 1 } := rfl

/-- A flag that bit `i` of the mask clears. -/
theorem and_not_maskBit (flag : Bool) (mask : BitVec 2) (i : Nat) :
    (flag && !mask.getLsbD i) = if mask.toNat / 2 ^ i % 2 = 1 then false else flag := by
  have hbit : mask.getLsbD i = decide (mask.toNat / 2 ^ i % 2 = 1) := Nat.testBit_eq_decide_div_mod_eq
  rw [hbit]
  split
  next h => simp [h]
  next h => simp [h]

/-- Settles O19: each mask bit clears its own flag. -/
theorem clearStatusNextState : Obligations.ClearStatusNextState := by
  intro s z mask
  refine ⟨?_, congrArg (fun hdr => [hdr]) (encodeHeader_clearStatus_eq z mask)⟩
  split
  next hz => exact if_pos hz
  next hz =>
    obtain rfl : z = 0 := not_not.1 hz
    have hcmd := and_not_maskBit s.cmdErr mask 0
    have hovf := and_not_maskBit s.qOvf mask 1
    rw [Nat.pow_zero, Nat.div_one] at hcmd
    rw [Nat.pow_one, Nat.mod_eq_of_lt (show mask.toNat / 2 < 2 by omega)] at hovf
    rw [exec, execClearStatus_zero, hcmd, hovf]

/-! ### ENQUEUE -/

/-- ENQUEUE with room (R107). -/
theorem enqueue_of_room {s : State} (r : Record) (h : s.qcount.toNat < 8) :
    enqueue r s = { s with
      q := s.q.set ((s.qhead.toNat + s.qcount.toNat) % 8) r (Nat.mod_lt _ (by decide))
      qcount := s.qcount + 1 } := if_pos h

/-- ENQUEUE with the queue full (R107). -/
theorem enqueue_of_full {s : State} (r : Record) (h : 8 ≤ s.qcount.toNat) :
    enqueue r s = { s with dropCount := s.dropCount + 1, qOvf := true } := if_neg (Nat.not_lt.2 h)

/-- Settles O43: with room ENQUEUE sets the one slot after the newest record; without, it leaves the slots alone. -/
theorem enqueueDropsTheNewest : Obligations.EnqueueDropsTheNewest := by
  intro s r
  refine ⟨fun hroom => ⟨queued_enqueue r hroom, ?_, fun i hi => ?_⟩, fun hfull => ⟨enqueue_of_full r hfull, ?_⟩⟩
  · rw [enqueue_of_room r hroom]
  · simp only [enqueue_of_room r hroom, Vector.getElem_set, eq_comm]
  · rw [enqueue_of_full r hfull]
    rfl

end Sys2Proof.Machine
end

