-- ==== Sys2Proof/Proofs/ProcessBuffer.lean ====
section
/-! PROOFS. Sys2Proof/Proofs/ProcessBuffer.lean: PROCESS_BUFFER as a whole: what the stages before the parse write, the parse as
the loop of R89, what the parse leaves, and that it completes (R89, R102, R103, R104). -/

namespace Sys2Proof.Machine

/-! ### The stages before the parse -/

/-- What the stages before the parse write, and that they change nothing else (R102, R103). -/
theorem ingest_eq (raw : List Word) (s : State) :
    ingest raw s = { s with
      maxsq := BitVec.ofNat 32 (peakFrom 0 raw)
      dbLevel := BitVec.ofInt 8 (mag2db (peakFrom 0 raw))
      fhist := nextHistory s.params raw s.fhist
      sym := (ingest raw s).sym
      w := s.w + BitVec.ofNat 32 s.params.symbolsPerBuffer
      bufCount := s.bufCount + 1 } := by
  conv_lhs => rw [ingest, symWriteAll_eq]
  rfl

/-- One buffer's symbols are no more than the store holds (R9, R38). -/
theorem symbolsPerBuffer_le {p : Params} (hp : paramsInBounds p = true) : p.symbolsPerBuffer ≤ 4096 := by
  obtain ⟨-, -, -, -, hM, -⟩ := (paramsInBounds_iff p).1 hp
  exact hM

section
variable {s : State} (raw : List Word) (hs : s.sym.wf symCap = true)
include hs

/-- The M positions from W on hold the outputs of DECIMATE (R39, R102). -/
theorem ingest_read_written (hp : paramsInBounds s.params = true) {j : Nat} (hj : j < s.params.symbolsPerBuffer) :
    (ingest raw s).sym.read (symEntry (s.w + BitVec.ofNat 32 j)) = decimOut s.params raw s.fhist j := by
  have hM := symbolsPerBuffer_le hp
  rw [ingest_sym, symWriteAll_read hs (by simp only [decimOuts_length, symCap]; omega) (by rwa [decimOuts_length]),
    decimOuts_getD _ _ _ hj]

/-- Every other entry of the store stays. -/
theorem ingest_read_other {a : Nat}
    (ha : ∀ j, j < s.params.symbolsPerBuffer → symEntry (s.w + BitVec.ofNat 32 j) ≠ a) :
    (ingest raw s).sym.read a = s.sym.read a := by
  rw [ingest_sym]
  exact symWriteAll_read_other hs (by rwa [decimOuts_length])

end

/-! ### PARSE -/

/-- The loop of PARSE, with turns enough, is the loop of R89. -/
theorem parseLoop_run {fuel : Nat} {s t : State} (hf : turnsLeft s < fuel) (h : parseLoop fuel s = .ok t) :
    ParseRun s t := by
  induction fuel generalizing s with
  | zero => omega
  | succ n ih =>
    obtain ⟨⟨go, u⟩, hr, h⟩ := except_bind_ok.1 h
    cases go with
    | true =>
      have := turnsLeft_decreases hr
      exact parseRun_turn hr (ih (s := u) (by omega) h)
    | false =>
      obtain rfl := except_pure_ok.1 h
      exact parseRun_stop hr

theorem parse_run {s t : State} (h : parse s = .ok t) : ParseRun s t := parseLoop_run (turnsLeft_lt_bound s) h

section
variable {s t : State} (h : parse s = .ok t)
include h

theorem parse_w : t.w = s.w := parse_leaves State.w (by simp) (by simp) (by simp) h

theorem parse_sym : t.sym = s.sym := parse_leaves State.sym (by simp) (by simp) (by simp) h

theorem parse_maxsq : t.maxsq = s.maxsq := parse_leaves State.maxsq (by simp) (by simp) (by simp) h

theorem parse_dbLevel : t.dbLevel = s.dbLevel := parse_leaves State.dbLevel (by simp) (by simp) (by simp) h

theorem parse_fhist : t.fhist = s.fhist := parse_leaves State.fhist (by simp) (by simp) (by simp) h

theorem parse_qhead : t.qhead = s.qhead := parse_leaves State.qhead (by simp) (by simp) (by simp) h

theorem parse_bufCount : t.bufCount = s.bufCount := parse_leaves State.bufCount (by simp) (by simp) (by simp) h

theorem parse_hostIn : t.hostIn = s.hostIn := parse_leaves State.hostIn (by simp) (by simp) (by simp) h

end

/-! ### PROCESS_BUFFER -/

/-- Before configuration (R104). -/
theorem execProcessBuffer_unconfigured {s : State} (h : s.configured = false) (raw : List Word) :
    execProcessBuffer 0 raw s = .next s := by
  rw [execProcessBuffer, if_neg (by simp), if_pos h]

/-- A configured machine takes the buffer in and parses (R102). -/
theorem execProcessBuffer_parsed {s t : State} {raw : List Word} (hcfg : s.configured = true)
    (hl : raw.length = s.params.rawCount) (h : parse (ingest raw s) = .ok t) :
    execProcessBuffer 0 raw s = .next t := by
  simp [execProcessBuffer, hcfg, hl, h]

/-- Settles O14: the test of CONFIGURED comes before anything that writes. -/
theorem unconfiguredBufferChangesNothing : Obligations.UnconfiguredBufferChangesNothing :=
  fun _ raw h => execProcessBuffer_unconfigured h raw

/-- Settles O15: the parse of a buffer fits in every coherent state. -/
theorem processBufferCompletes : Obligations.ProcessBufferCompletes := by
  intro s raw hp hs hl
  exact exec_completes (i := .processBuffer 0 raw) (by simp [Instr.shaped, hl])
    fun raw' _ => parse_completes (hs.fits_ingest hp raw')

/-- From a good configured state a buffer is taken in and parsed to the end. -/
theorem processBuffer_parses {s : State} {raw : List Word} (hs : Good s) (hcfg : s.configured = true)
    (hl : raw.length = s.params.rawCount) :
    ∃ t, exec (.processBuffer 0 raw) s = .next t ∧ parse (ingest raw s) = .ok t := by
  obtain ⟨t, hp⟩ := parse_completes (hs.coherent.fits_ingest hs.params raw)
  exact ⟨t, execProcessBuffer_parsed hcfg hl hp, hp⟩

/-- Settles O16: the stages before the parse write what is stated, and the parse leaves all of it. -/
theorem processBufferWritesAndFrame : Obligations.ProcessBufferWritesAndFrame := by
  intro s raw hs hcfg hl
  obtain ⟨t, hexec, hp⟩ := processBuffer_parses hs hcfg hl
  refine ⟨t, hexec, ?maxsq, ?dbLevel, ?fhist, ?w, ?bufCount, fun j hj => ?written, fun a ha => ?other, ?params,
    ?configured, ?channel, ?qhead, ?cmdErr, ?hostIn, ?respOut⟩
  case maxsq => rw [parse_maxsq hp, ingest_maxsq]
  case dbLevel => rw [parse_dbLevel hp, ingest_dbLevel]
  case fhist => rw [parse_fhist hp, ingest_fhist]
  case w => rw [parse_w hp, ingest_w, Params.symbolsPerBuffer]
  case bufCount => rw [parse_bufCount hp, ingest_bufCount]
  case written => rw [parse_sym hp, ingest_read_written raw hs.stores.sym hs.params hj]
  case other => rw [parse_sym hp, ingest_read_other raw hs.stores.sym ha]
  case params => rw [parse_params hp, ingest_params]
  case configured => rw [parse_configured hp, ingest_configured]
  case channel => rw [parse_channel hp, ingest_channel]
  case qhead => rw [parse_qhead hp, ingest_qhead]
  case cmdErr => rw [parse_cmdErr hp, ingest_cmdErr]
  case hostIn => rw [parse_hostIn hp, ingest_hostIn]
  case respOut => rw [parse_respOut hp, ingest_respOut]

/-- Settles O60: `u` is the state with the buffer taken in, from which PARSE, whose bound on turns is enough, is the loop of
R89. -/
theorem processBufferRunsTheParse : Obligations.ProcessBufferRunsTheParse := by
  intro s z raw
  refine ⟨congrArg (· :: raw) (encodeHeader_processBuffer_eq z raw), fun hz => if_pos hz, ?_, ?_⟩
  · rintro rfl hcfg
    exact execProcessBuffer_unconfigured hcfg raw
  · rintro rfl hcfg hs hl
    obtain ⟨t, hexec, hp⟩ := processBuffer_parses hs hcfg hl
    exact ⟨ingest raw s, t, hexec, parse_run hp, ingest_eq raw s,
      fun j hj => ingest_read_written raw hs.stores.sym hs.params hj,
      fun a ha => ingest_read_other raw hs.stores.sym ha⟩

end Sys2Proof.Machine
end

