-- ==== Sys2Proof/Proofs/PassedSymbols.lean ====
section
/-! PROOFS. Sys2Proof/Proofs/PassedSymbols.lean: two machines that differ only in symbols the parse has passed stay so: the parse
reads the symbols ahead of CURSOR alone, and a buffer is written the same into both stores (R101, R128). -/

namespace Sys2Proof.Machine

/-! ### Another symbol store -/

/-- The state with another symbol store and everything else as it was. -/
def withSym (s : State) (m : Memory 32) : State := { s with sym := m }

@[simp] theorem withSym_pstate (s : State) (m : Memory 32) : (withSym s m).pstate = s.pstate := rfl
@[simp] theorem withSym_cursor (s : State) (m : Memory 32) : (withSym s m).cursor = s.cursor := rfl
@[simp] theorem withSym_pend (s : State) (m : Memory 32) : (withSym s m).pend = s.pend := rfl

/-- The store `m` holds every symbol the parse has not yet passed, s[CURSOR .. W-1], as the store of `s` does. -/
def HoldsAhead (s : State) (m : Memory 32) : Prop :=
  ∀ n : Word, 1 ≤ (s.w - n).toNat → (s.w - n).toNat ≤ held s → s.sym.read (symEntry n) = m.read (symEntry n)

theorem sameButPassedSymbols_iff {s t : State} :
    SameButPassedSymbols s t ↔ ∃ m, t = withSym s m ∧ HoldsAhead s m := by
  constructor
  · rintro ⟨ht, hm⟩
    exact ⟨t.sym, ht, hm⟩
  · rintro ⟨m, rfl, hm⟩
    exact ⟨rfl, hm⟩

/-- As CURSOR moves on, fewer symbols are ahead. -/
theorem HoldsAhead.advance {s t : State} {m : Memory 32} (hm : HoldsAhead s m) (hw : t.w = s.w) (hsym : t.sym = s.sym)
    (hheld : held t ≤ held s) : HoldsAhead t m := by
  intro n h1 h2
  rw [hw] at h1 h2
  rw [hsym]
  exact hm n h1 (h2.trans hheld)

/-- With no symbol ahead any store will do. -/
theorem holdsAhead_of_none {s : State} (h : held s = 0) (m : Memory 32) : HoldsAhead s m :=
  fun _ h1 h2 => absurd h1 (by omega)

/-! ### What the parse reads -/

section
variable {s : State} {m : Memory 32} (hm : HoldsAhead s m) {n : Word} (hn : (s.w - n).toNat ≤ held s)
include hm hn

theorem symAt_withSym (h : 1 ≤ (s.w - n).toNat) : symAt (withSym s m) n = symAt s n := by
  rw [symAt, symAt, hm n h hn]
  rfl

theorem bitAt_withSym (h : 2 ≤ (s.w - n).toNat) : bitAt (withSym s m) n = bitAt s n := by
  have hd : (s.w - (n + 1)).toNat = (s.w - n).toNat - 1 := distance_succ (k := 1) (by omega)
  rw [bitAt, bitAt, symAt_withSym hm hn (by omega), symAt_withSym hm (n := n + 1) (by omega) (by omega)]

theorem byteAt_withSym (h : 9 ≤ (s.w - n).toNat) : byteAt (withSym s m) n = byteAt s n := by
  have hbits : ∀ k ∈ List.range 8, (bitAt (withSym s m) (n + BitVec.ofNat 32 k)).toNat * 2 ^ k =
      (bitAt s (n + BitVec.ofNat 32 k)).toNat * 2 ^ k := by
    intro k hk
    have hk := List.mem_range.1 hk
    have hd := distance_succ (w := s.w) (n := n) (k := k) (by omega)
    rw [bitAt_withSym hm (by omega) (by omega)]
  rw [byteAt, byteAt, List.map_congr_left hbits]

theorem accAfter_withSym (base : Nat) {i : Nat} (h : 8 * i + 1 ≤ (s.w - n).toNat) :
    accAfter (withSym s m) base n i = accAfter s base n i := by
  induction i with
  | zero => rfl
  | succ i ih =>
    have hd := distance_succ (w := s.w) (n := n) (k := 8 * i) (by omega)
    rw [accAfter, accAfter, ih (by omega), byteAt_withSym hm (by omega) (by omega)]

end

/-! ### One turn of the parse -/

theorem corrNext_withSym (s : State) (m : Memory 32) (bit : Bool) :
    corrNext (withSym s m) bit = withSym (corrNext s bit) m := by
  cases hhit : isHit (pushBit s.params.syncWord bit s.corr) with
  | true =>
    rw [corrNext_of_isHit hhit, corrNext_of_isHit (s := withSym s m) hhit]
    rfl
  | false =>
    rw [corrNext_of_not_isHit hhit, corrNext_of_not_isHit (s := withSym s m) hhit]
    rfl

theorem enqueue_withSym (r : Record) (s : State) (m : Memory 32) :
    enqueue r (withSym s m) = withSym (enqueue r s) m := by
  rcases Nat.lt_or_ge s.qcount.toNat 8 with hroom | hfull
  · rw [enqueue_of_room r hroom, enqueue_of_room (s := withSym s m) r hroom]
    rfl
  · rw [enqueue_of_full r hfull, enqueue_of_full (s := withSym s m) r hfull]
    rfl

theorem headerDone_withSym (s : State) (m : Memory 32) (acc : Memory 8) :
    headerDone (withAcc (withSym s m) acc) = withSym (headerDone (withAcc s acc)) m := rfl

/-- A record is made of ACC and the registers, not of the symbol store. -/
theorem payloadDone_withSym (s : State) (m : Memory 32) (acc : Memory 8) :
    payloadDone (withAcc (withSym s m) acc) = withSym (payloadDone (withAcc s acc)) m := by
  have hrecord : assemble (payloadRead (withAcc (withSym s m) acc)) = assemble (payloadRead (withAcc s acc)) := rfl
  rw [payloadDone_withAcc, payloadDone_withAcc, hrecord, enqueue_withSym]
  rfl

/-- BEGIN_SCAN takes the bit b[CURSOR] and ends at a hit or goes on (R91). -/
theorem beginScan_of_held {s : State} (fuel : Nat) (h1 : 2 ≤ held s) (h2 : held s ≤ symCap) :
    beginScan (fuel + 1) s =
      if (corrNext s (bitAt s s.cursor)).pstate = .header then .ok (true, corrNext s (bitAt s s.cursor))
      else beginScan fuel (corrNext s (bitAt s s.cursor)) := by
  rw [beginScan, if_pos h1, corrStep_of_held h1 h2]
  rfl

/-- A turn that answers `r` answers the same, as `x`, on the store `m`, which still holds what is ahead after it. -/
structure AnsweredAlike (r : Bool × State) (x : Except Fault (Bool × State)) (m : Memory 32) : Prop where
  answer : x = .ok (r.1, withSym r.2 m)
  ahead : HoldsAhead r.2 m

theorem beginScan_withSym {fuel : Nat} {s : State} {r : Bool × State} {m : Memory 32} (hcap : held s ≤ symCap)
    (hm : HoldsAhead s m) (h : beginScan fuel s = .ok r) : AnsweredAlike r (beginScan fuel (withSym s m)) m := by
  induction fuel generalizing s with
  | zero =>
    injection h with h
    exact h ▸ ⟨rfl, hm⟩
  | succ k ih =>
    by_cases hd : 2 ≤ held s
    · have hheld := held_corrNext (bitAt s s.cursor) (show 1 ≤ held s by omega)
      have hahead := hm.advance (corrNext_w s (bitAt s s.cursor)) (corrNext_sym s _) (by omega)
      have hnext : corrNext (withSym s m) (bitAt (withSym s m) (withSym s m).cursor) =
          withSym (corrNext s (bitAt s s.cursor)) m := by
        rw [corrNext_withSym, withSym_cursor, bitAt_withSym hm le_rfl hd]
      rw [beginScan_of_held k hd hcap] at h
      rw [beginScan_of_held (s := withSym s m) k hd hcap, hnext]
      split at h
      next hhit =>
        injection h with h
        exact h ▸ ⟨if_pos hhit, hahead⟩
      next hno =>
        rw [if_neg (show (withSym (corrNext s (bitAt s s.cursor)) m).pstate ≠ .header from hno)]
        exact ih (by omega) hahead h
    · have hfew : held s ≤ 1 := by omega
      rw [beginScan_of_few hfew] at h
      injection h with h
      exact h ▸ ⟨beginScan_of_few (s := withSym s m) hfew _, hm⟩

theorem headerStep_withSym {s : State} {r : Bool × State} {m : Memory 32} (hcap : held s ≤ symCap)
    (hm : HoldsAhead s m) (h : headerStep s = .ok r) : AnsweredAlike r (headerStep (withSym s m)) m := by
  rcases headerStep_cases h with ⟨hd, rfl⟩ | ⟨hd, rfl⟩
  · exact ⟨headerStep_of_few (s := withSym s m) hd, hm⟩
  · constructor
    case answer =>
      rw [headerStep_of_held (s := withSym s m) hd hcap, withSym_cursor,
        accAfter_withSym hm le_rfl 0 hd, headerDone_withSym]
    case ahead => exact hm.advance rfl rfl (by rw [held_headerDone _ (by omega)]; omega)

theorem payloadStep_withSym {s : State} {r : Bool × State} {m : Memory 32} (hcap : held s ≤ symCap)
    (hplen : s.pend.plen.toNat ≤ 510) (hm : HoldsAhead s m) (h : payloadStep s = .ok r) :
    AnsweredAlike r (payloadStep (withSym s m)) m := by
  rcases payloadStep_cases h with ⟨hd, rfl⟩ | ⟨hd, rfl⟩
  · exact ⟨payloadStep_of_few (s := withSym s m) hd, hm⟩
  · constructor
    case answer =>
      rw [payloadStep_of_held (s := withSym s m) hd hcap hplen, withSym_cursor,
        withSym_pend, accAfter_withSym hm le_rfl hdrBytes hd, payloadDone_withSym]
    case ahead =>
      exact hm.advance (payloadDone_w _) (payloadDone_sym _) (by rw [held_payloadDone _ (by omega)]; omega)

theorem parseStep_withSym {s : State} {r : Bool × State} {m : Memory 32} (hfits : ParseFits s) (hm : HoldsAhead s m)
    (h : parseStep s = .ok r) : AnsweredAlike r (parseStep (withSym s m)) m := by
  obtain ⟨hcap, hplen⟩ := hfits
  cases hb : s.pstate with
  | begin =>
    simp only [parseStep, withSym_pstate, hb] at h ⊢
    exact beginScan_withSym hcap hm h
  | header =>
    simp only [parseStep, withSym_pstate, hb] at h ⊢
    exact headerStep_withSym hcap hm h
  | payload =>
    simp only [parseStep, withSym_pstate, hb] at h ⊢
    exact payloadStep_withSym hcap (hplen hb) hm h

/-! ### PARSE -/

theorem parseLoop_withSym {fuel : Nat} {s t : State} {m : Memory 32} (hfits : ParseFits s) (hm : HoldsAhead s m)
    (h : parseLoop fuel s = .ok t) : parseLoop fuel (withSym s m) = .ok (withSym t m) ∧ HoldsAhead t m := by
  induction fuel generalizing s with
  | zero =>
    injection h with h
    exact h ▸ ⟨rfl, hm⟩
  | succ k ih =>
    obtain ⟨⟨go, u⟩, hr, h⟩ := except_bind_ok.1 h
    obtain ⟨hanswer, hahead⟩ := parseStep_withSym hfits hm hr
    rw [parseLoop, hanswer]
    cases go with
    | true => exact ih (hfits.of_proceeds hr) hahead h
    | false =>
      obtain rfl := except_pure_ok.1 h
      exact ⟨rfl, hahead⟩

/-- PARSE does the same on every store that holds the symbols ahead of CURSOR. -/
theorem parse_withSym {s t : State} {m : Memory 32} (hfits : ParseFits s) (hm : HoldsAhead s m)
    (h : parse s = .ok t) : parse (withSym s m) = .ok (withSym t m) ∧ HoldsAhead t m :=
  parseLoop_withSym hfits hm h

/-! ### The stages before the parse -/

theorem ingest_withSym (raw : List Word) (s : State) (m : Memory 32) :
    ingest raw (withSym s m) = withSym (ingest raw s) (ingest raw (withSym s m)).sym := by
  rw [ingest_eq raw s]
  exact ingest_eq raw (withSym s m)

/-- A position is so many before W as its distance says. -/
theorem eq_add_distance (w n : Word) : w = n + BitVec.ofNat 32 (w - n).toNat := by
  rw [BitVec.ofNat_toNat, BitVec.setWidth_eq, BitVec.add_comm, BitVec.sub_add_cancel]

/-- A position that was ahead of CURSOR before the buffer is not overwritten by it: the symbols ahead and the new ones have
room together (R42). -/
theorem symEntry_ahead_ne {w n : Word} {j : Nat} (h1 : 1 ≤ (w - n).toNat) (h2 : (w - n).toNat + j < symCap) :
    symEntry (w + BitVec.ofNat 32 j) ≠ symEntry n := by
  intro he
  have hpos : w + BitVec.ofNat 32 j = n + BitVec.ofNat 32 ((w - n).toNat + j) := by
    rw [← BitVec.ofNat_add_ofNat, ← BitVec.add_assoc, ← eq_add_distance]
  have hzero : n = n + BitVec.ofNat 32 0 := (BitVec.add_zero n).symm
  rw [hpos] at he
  conv_rhs at he => rw [hzero]
  have := symEntry_add_inj h2 (by simp) he
  omega

/-- After the same buffer both stores hold the symbols ahead: the new ones are written to both, and the old ones stay in
both. -/
theorem HoldsAhead.ingest {s : State} {m : Memory 32} (hm : HoldsAhead s m) (hp : paramsInBounds s.params = true)
    (hheld : held s ≤ 4080) (hs : s.sym.wf symCap = true) (hwf : m.wf symCap = true) (raw : List Word) :
    HoldsAhead (ingest raw s) (ingest raw (withSym s m)).sym := by
  have hM := symbolsPerBuffer_le hp
  have hnew := held_ingest raw s
  intro n h1 h2
  rw [ingest_w] at h1 h2
  rcases Nat.lt_or_ge s.params.symbolsPerBuffer (s.w + BitVec.ofNat 32 s.params.symbolsPerBuffer - n).toNat with
    hold | hwritten
  · have hd : (s.w - n).toNat =
        (s.w + BitVec.ofNat 32 s.params.symbolsPerBuffer - n).toNat - s.params.symbolsPerBuffer := by
      bv_omega
    have hkept : ∀ j, j < s.params.symbolsPerBuffer → symEntry (s.w + BitVec.ofNat 32 j) ≠ symEntry n :=
      fun j hj => symEntry_ahead_ne (by omega) (by simp only [symCap]; omega)
    rw [ingest_read_other raw hs hkept, ingest_read_other (s := withSym s m) raw hwf hkept]
    exact hm n (by omega) (by omega)
  · obtain ⟨j, hj, rfl⟩ : ∃ j, j < s.params.symbolsPerBuffer ∧ n = s.w + BitVec.ofNat 32 j := by
      refine ⟨s.params.symbolsPerBuffer - (s.w + BitVec.ofNat 32 s.params.symbolsPerBuffer - n).toNat, by omega, ?_⟩
      bv_omega
    rw [ingest_read_written raw hs hp hj]
    exact (ingest_read_written (s := withSym s m) raw hwf hp hj).symm

/-! ### Commands and steps -/

/-- CONFIGURE skips every symbol held (R101). -/
theorem held_configuredState (rf : Bool) (sel : BitVec 8) (s : State) : held (configuredState rf sel s) = 0 := by
  simp [held, configuredState]

/-- No register shows the symbol store. -/
theorem regValue_withSym (s : State) (m : Memory 32) (r : Reg) : regValue (withSym s m) r = regValue s r := by
  cases r <;> rfl

/-- PROCESS_BUFFER does the same on another store that holds the symbols ahead, and leaves it so. -/
theorem execProcessBuffer_withSym {raw : List Word} {s t : State} {m : Memory 32} (hp : paramsInBounds s.params = true)
    (hcoh : ParseCoherent s) (hs : s.sym.wf symCap = true) (hwf : m.wf symCap = true) (hm : HoldsAhead s m)
    (h : execProcessBuffer 0 raw s = .next t) :
    ∃ m', execProcessBuffer 0 raw (withSym s m) = .next (withSym t m') ∧ HoldsAhead t m' := by
  rcases execProcessBuffer_cases h with ⟨hz, -⟩ | ⟨-, hcfg, rfl⟩ | ⟨-, hcfg, hl, hparse⟩
  · exact absurd rfl hz
  · exact ⟨m, execProcessBuffer_unconfigured (s := withSym t m) hcfg raw, hm⟩
  · obtain ⟨hparse', hahead⟩ :=
      parse_withSym (hcoh.fits_ingest hp raw) (hm.ingest hp hcoh.held_le hs hwf raw) hparse
    rw [← ingest_withSym] at hparse'
    exact ⟨_, execProcessBuffer_parsed (s := withSym s m) hcfg hl hparse', hahead⟩

/-- A command does the same on another store that holds the symbols ahead, and leaves it so. -/
theorem exec_withSym {i : Instr} {s t : State} {m : Memory 32} (hp : paramsInBounds s.params = true)
    (hcoh : ParseCoherent s) (hs : s.sym.wf symCap = true) (hwf : m.wf symCap = true) (hm : HoldsAhead s m)
    (h : exec i s = .next t) : ∃ m', exec i (withSym s m) = .next (withSym t m') ∧ HoldsAhead t m' := by
  cases hz : i.reservedClear with
  | false =>
    cases (exec_of_reserved hz s).symm.trans h
    exact ⟨m, exec_of_reserved hz _, hm.advance rfl rfl le_rfl⟩
  | true =>
    cases i with
    | configure z rf sel =>
      obtain rfl : z = 0 := eq_of_beq hz
      cases (execConfigure_zero rf sel s).symm.trans h
      exact ⟨m, execConfigure_zero rf sel _, holdsAhead_of_none (held_configuredState rf sel s) m⟩
    | processBuffer z raw =>
      obtain rfl : z = 0 := eq_of_beq hz
      exact execProcessBuffer_withSym hp hcoh hs hwf hm h
    | readPacket z =>
      obtain rfl : z = 0 := eq_of_beq hz
      by_cases hq : s.qcount = 0
      · cases (execReadPacket_empty hq).symm.trans h
        exact ⟨m, execReadPacket_empty (s := withSym s m) hq, hm.advance rfl rfl le_rfl⟩
      · cases (execReadPacket_queued hq).symm.trans h
        exact ⟨m, execReadPacket_queued (s := withSym s m) hq, hm.advance rfl rfl le_rfl⟩
    | readReg z reg =>
      obtain rfl : z = 0 := eq_of_beq hz
      cases hr : Reg.ofNumber reg with
      | none =>
        cases (execReadReg_reserved hr s).symm.trans h
        exact ⟨m, execReadReg_reserved hr _, hm.advance rfl rfl le_rfl⟩
      | some r =>
        cases (execReadReg_assigned hr s).symm.trans h
        refine ⟨m, (execReadReg_assigned hr _).trans ?_, hm.advance rfl rfl le_rfl⟩
        rw [regValue_withSym]
        rfl
    | clearStatus z mask =>
      obtain rfl : z = 0 := eq_of_beq hz
      cases (execClearStatus_zero mask s).symm.trans h
      exact ⟨m, execClearStatus_zero mask _, hm.advance rfl rfl le_rfl⟩

/-- A step does the same on another store that holds the symbols ahead, and leaves it so. -/
theorem step_withSym {s t : State} {m : Memory 32} (hcoh : ParseCoherent s) (hs : s.sym.wf symCap = true)
    (hwf : m.wf symCap = true) (hm : HoldsAhead s m) (h : step s = .next t) :
    ∃ m', step (withSym s m) = .next (withSym t m') ∧ HoldsAhead t m' := by
  obtain ⟨hp, hc⟩ := step_cases h
  have hstep : step (withSym s m) = _ := if_pos hp
  have hfetch : fetch (withSym s m).params (withSym s m).hostIn = fetch s.params s.hostIn := rfl
  rw [hstep, hfetch]
  rcases hc with ⟨hf, rfl⟩ | ⟨rest, hf, rfl⟩ | ⟨rest, hf, rfl⟩ | ⟨i, rest, hf, he⟩ <;> rw [hf]
  · exact ⟨m, rfl, hm⟩
  · exact ⟨[], rfl, holdsAhead_of_none (by simp [held]) _⟩
  · exact ⟨m, rfl, hm.advance rfl rfl le_rfl⟩
  · exact exec_withSym (s := { s with hostIn := rest }) hp (hcoh.frame (contextKept_hostIn s rest)) hs hwf
      (hm.advance rfl rfl le_rfl) he

/-- The same CONFIGURE makes two machines alike that differ in the symbols and in what it sets (R101, R128). -/
theorem configuredState_withSym {s t : State} {rf : Bool} (sel : BitVec 8)
    (h : t = { s with
      sym := t.sym
      configured := t.configured
      channel := t.channel
      pstate := t.pstate
      cursor := t.cursor
      corr := t.corr
      pend := t.pend
      fhist := if rf then t.fhist else s.fhist }) :
    configuredState rf sel t = withSym (configuredState rf sel s) t.sym := by
  rw [h]
  cases rf <;> rfl

/-- Settles O58: CONFIGURE leaves no symbol ahead of CURSOR, and a step reads no symbol that the parse has passed. -/
theorem nothingAfterConfigureDependsOnEarlierSymbols : Obligations.NothingAfterConfigureDependsOnEarlierSymbols := by
  constructor
  · intro s t rf sel h
    exact ⟨_, _, execConfigure_zero rf sel s, execConfigure_zero rf sel t,
      sameButPassedSymbols_iff.2 ⟨t.sym, configuredState_withSym sel h,
        holdsAhead_of_none (held_configuredState rf sel s) _⟩⟩
  · intro s t s1 hs ht hsame hstep
    obtain ⟨m, rfl, hm⟩ := sameButPassedSymbols_iff.1 hsame
    obtain ⟨m', hstep', hahead⟩ := step_withSym hs.coherent hs.stores.sym ht.stores.sym hm hstep
    exact ⟨_, hstep', sameButPassedSymbols_iff.2 ⟨m', rfl, hahead⟩⟩

end Sys2Proof.Machine
end

