-- ==== Sys2Proof/Proofs/QuietSteps.lean ====
section
/-! PROOFS. Sys2Proof/Proofs/QuietSteps.lean: the steps that leave the machine, the parse or PKT_AVAIL as it was: waiting for the
rest of a command, the commands that reach only the host's side, and what can make PKT_AVAIL fall (R112, R115,
R122, R123, R130). -/

namespace Sys2Proof.Machine

/-! ### Waiting for a whole command -/

/-- A header with opcode 2 and fewer than RAW_COUNT sample words after it are no whole command (R59, R122). -/
theorem fetch_of_few_samples {p : Params} {hdr : Word} {samples : List Word} (ho : opcodeOf hdr = 0x02)
    (hfew : samples.length < p.rawCount) : fetch p (.word hdr :: samples.map HostEvent.word) = .idle := by
  have hlen : commandLength p hdr - 1 = p.rawCount := by
    rw [commandLength, if_pos ho, Nat.add_sub_cancel_left]
  simp only [fetch, hlen, scanWords_of_few hfew]

/-- A step that fetches nothing is a wait. -/
theorem step_of_idle {s : State} (hp : paramsInBounds s.params = true) (hf : fetch s.params s.hostIn = .idle) :
    step s = .next s := by
  rw [step, if_pos hp, hf]

/-- Settles O8: neither an empty command interface nor a PROCESS_BUFFER short of samples is a whole command. -/
theorem waitsForAWholeCommand : Obligations.WaitsForAWholeCommand := by
  intro s hp
  refine ⟨fun hin => step_of_idle hp ?_, fun hdr samples hin hop hfew => step_of_idle hp ?_⟩
  · rw [hin]
    rfl
  · rw [hin]
    exact fetch_of_few_samples (opcodeOf_eq_iff.2 hop) hfew

/-! ### PKT_AVAIL -/

theorem pktAvail_iff {s : State} : pktAvail s = true ↔ 0 < s.qcount.toNat := decide_eq_true_iff

/-- What leaves QCOUNT as it was leaves PKT_AVAIL as it was (R115). -/
theorem pktAvail_of_qcount {s t : State} (h : t.qcount = s.qcount) : pktAvail t = pktAvail s := by
  rw [pktAvail, pktAvail, h]

/-- A queue that holds a record holds one after ENQUEUE: QCOUNT does not wrap, since a full queue takes none (R107). -/
theorem enqueue_pktAvail (r : Record) {s : State} (h : pktAvail s = true) : pktAvail (enqueue r s) = true := by
  rcases enqueue_cases r s with ⟨hroom, he⟩ | ⟨-, he⟩ <;> rw [he]
  · rw [pktAvail_iff] at h ⊢
    simp only [qDepth] at hroom
    bv_omega
  · exact h

/-- PARSE never makes PKT_AVAIL fall: of its turns only PAYLOAD_STEP reaches the queue, by ENQUEUE. -/
theorem parse_pktAvail {s t : State} (hs : pktAvail s = true) (h : parse s = .ok t) : pktAvail t = true := by
  refine parse_keeps (P := fun u => pktAvail u = true) ?corr ?header ?payload hs h
  case corr =>
    intro u v _ _ hu hv
    rw [corrStep_ok hv, pktAvail_of_qcount (corrNext_qcount _ _), hu]
  case header => exact fun u _ _ hu => hu
  case payload => exact fun u _ _ hu => enqueue_pktAvail _ hu

/-- No command but a well-formed READ_PACKET makes PKT_AVAIL fall (R115). -/
theorem Executed.pktAvail_falls {i : Instr} {s t : State} (h : Executed i s t) (hs : pktAvail s = true)
    (ht : pktAvail t = false) : i = .readPacket 0 := by
  cases h with
  | rejected _ _ c answer => cases hs.symm.trans ht
  | answered _ _ answer => cases hs.symm.trans ht
  | configured rf sel _ => cases hs.symm.trans ht
  | parsed raw _ _ _ hp =>
    have hi : pktAvail (ingest raw s) = true := (pktAvail_of_qcount (ingest_qcount s raw)).trans hs
    cases (parse_pktAvail hi hp).symm.trans ht
  | dequeued _ answer _ => rfl
  | cleared mask _ => cases hs.symm.trans ht

/-- Settles O55: of the commands only READ_PACKET takes a record from the queue. -/
theorem pktAvailIsALevel : Obligations.PktAvailIsALevel := by
  refine ⟨fun s => ⟨pktAvail_iff, ?_⟩, fun s t h hs ht => ?_⟩
  · obtain ⟨-, -, hbit, -⟩ := statusFieldsStandAtTheirBits s
    exact hbit
  · obtain ⟨-, hc⟩ := step_cases h
    rcases hc with ⟨-, rfl⟩ | ⟨rest, hf, -⟩ | ⟨rest, -, rfl⟩ | ⟨i, rest, hf, he⟩
    · cases hs.symm.trans ht
    · exact .inl ⟨rest, hf⟩
    · cases hs.symm.trans ht
    · obtain rfl := (Executed.of_exec he).pktAvail_falls hs ht
      exact .inr ⟨rest, hf⟩

/-! ### The parsing context -/

/-- Nothing differs but what the host's reads and acknowledgements reach: the queue's head and count, the two sticky bits
and the two streams. -/
def OnlyHostSideDiffers (s t : State) : Prop :=
  t = { s with
    qhead := t.qhead
    qcount := t.qcount
    cmdErr := t.cmdErr
    qOvf := t.qOvf
    hostIn := t.hostIn
    respOut := t.respOut }

/-- A command that is rejected, and one that is neither a PROCESS_BUFFER nor a CONFIGURE, reaches the host's side alone
(R108 to R112). -/
theorem Executed.onlyHostSideDiffers {i : Instr} {s t : State} (h : Executed i s t)
    (hbuffer : ∀ raw, i ≠ .processBuffer 0 raw) (hconfigure : ∀ rf sel, i ≠ .configure 0 rf sel) :
    OnlyHostSideDiffers s t := by
  cases h with
  | rejected _ _ c answer => rfl
  | answered _ _ answer => rfl
  | configured rf sel _ => exact absurd rfl (hconfigure rf sel)
  | parsed raw _ _ _ _ => exact absurd rfl (hbuffer raw)
  | dequeued _ answer _ => rfl
  | cleared mask _ => rfl

/-- So does a step that is no PROCESS_BUFFER, no CONFIGURE and no reset. -/
theorem step_onlyHostSideDiffers {s t : State} (h : step s = .next t)
    (hreset : ∀ rest, fetch s.params s.hostIn ≠ .resetAsserted rest)
    (hbuffer : ∀ raw rest, fetch s.params s.hostIn ≠ .command (.processBuffer 0 raw) rest)
    (hconfigure : ∀ rf sel rest, fetch s.params s.hostIn ≠ .command (.configure 0 rf sel) rest) :
    OnlyHostSideDiffers s t := by
  obtain ⟨-, hc⟩ := step_cases h
  rcases hc with ⟨-, rfl⟩ | ⟨rest, hf, -⟩ | ⟨rest, -, rfl⟩ | ⟨i, rest, hf, he⟩
  · rfl
  · exact absurd hf (hreset rest)
  · rfl
  · exact (Executed.of_exec he).onlyHostSideDiffers (fun raw hi => hbuffer raw rest (hi ▸ hf))
      (fun rf sel hi => hconfigure rf sel rest (hi ▸ hf))

/-- Settles O57: no element of the parsing context is on the host's side. -/
theorem otherCommandsLeaveTheParseAlone : Obligations.OtherCommandsLeaveTheParseAlone := by
  intro s t h hreset hbuffer hconfigure
  have hside : t = _ := step_onlyHostSideDiffers h hreset hbuffer hconfigure
  rw [hside]
  exact ⟨rfl, rfl, rfl, rfl, rfl, rfl, rfl, rfl, rfl, rfl, rfl, rfl, rfl, rfl, rfl, rfl⟩

end Sys2Proof.Machine
end

