-- ==== Sys2Proof/Proofs/ResetAndHazards.lean ====
section
/-! PROOFS. Sys2Proof/Proofs/ResetAndHazards.lean: the reset as the next event and after a command only partly received, and the
number of records one PROCESS_BUFFER can assemble (R35, R90, R123, R129). -/

namespace Sys2Proof.Machine

/-! ### Reset -/

/-- A reset that comes after a header with opcode 2 and before the last of its sample words is what the machine finds: the
words before it are discarded (R123). -/
theorem fetch_of_reset_before_last_sample {p : Params} {hdr : Word} {samples : List Word} (ho : opcodeOf hdr = 0x02)
    (hfew : samples.length < p.rawCount) (rest : List HostEvent) :
    fetch p (.word hdr :: samples.map HostEvent.word ++ .reset :: rest) = .resetAsserted rest := by
  have hlen : commandLength p hdr - 1 = p.rawCount := by
    rw [commandLength, if_pos ho, Nat.add_sub_cancel_left]
  simp only [List.cons_append, fetch, hlen, scanWords_of_reset hfew]

/-- A step that finds a reset gives every state element its reset value (R35, R123). -/
theorem step_of_resetAsserted {s : State} {rest : List HostEvent} (hp : paramsInBounds s.params = true)
    (hf : fetch s.params s.hostIn = .resetAsserted rest) : step s = .next (assertReset rest s) := by
  rw [step, if_pos hp, hf]

/-- Settles O9: in both cases the fetch finds the reset, with the events after it still to come. -/
theorem resetDiscardsAPartialCommand : Obligations.ResetDiscardsAPartialCommand := by
  intro s rest hp
  refine ⟨fun hin => step_of_resetAsserted hp ?_, fun hdr samples hin hop hfew => step_of_resetAsserted hp ?_⟩
  · rw [hin]
    rfl
  · rw [hin]
    exact fetch_of_reset_before_last_sample (opcodeOf_eq_iff.2 hop) hfew rest

/-! ### The symbols a record costs -/

/-- The symbols there are for the packet in progress and those after it, without the symbols of a declared payload: those
ahead of CURSOR, and those the packet in progress has had, which are FILL in Begin, the 32 of SYNC_WORD in Header, and with
the 16 of the header 48 in Payload. -/
def symbolsForRecords (s : State) : Nat :=
  match s.pstate with
  | .begin => s.corr.fill.toNat + held s
  | .header => 32 + held s
  | .payload => 48 + (held s - 8 * s.pend.plen.toNat)

theorem symbolsForRecords_of_begin {s : State} (hb : s.pstate = .begin) :
    symbolsForRecords s = s.corr.fill.toNat + held s := by
  rw [symbolsForRecords, hb]

theorem symbolsForRecords_of_header {s : State} (hb : s.pstate = .header) : symbolsForRecords s = 32 + held s := by
  rw [symbolsForRecords, hb]

theorem symbolsForRecords_of_payload {s : State} (hb : s.pstate = .payload) :
    symbolsForRecords s = 48 + (held s - 8 * s.pend.plen.toNat) := by
  rw [symbolsForRecords, hb]

/-- There is no hit before the window is full (R84). -/
theorem fill_of_isHit {c : Correlator} (h : isHit c = true) : c.fill.toNat = 32 := by
  rw [isHit, Bool.and_eq_true, decide_eq_true_eq, decide_eq_true_eq] at h
  obtain ⟨hfill, -⟩ := h
  exact hfill

/-- A correlator step turns one symbol ahead into at most one more bit of the window, and hits only with 32 (R82, R84). -/
theorem symbolsForRecords_corrNext {s : State} (hb : s.pstate = .begin) (hheld : 2 ≤ held s) (bit : Bool) :
    symbolsForRecords (corrNext s bit) ≤ symbolsForRecords s := by
  have hfill := pushBit_fill s.params.syncWord bit s.corr
  have hahead := held_corrNext bit (s := s) (by omega)
  rw [symbolsForRecords_of_begin hb]
  cases hhit : isHit (pushBit s.params.syncWord bit s.corr) with
  | false =>
    have hstay : (corrNext s bit).pstate = .begin := by rw [corrNext_of_not_isHit hhit]; exact hb
    rw [symbolsForRecords_of_begin hstay, corrNext_corr, hfill, hahead]
    omega
  | true =>
    have hmove : (corrNext s bit).pstate = .header := by rw [corrNext_of_isHit hhit]
    have hfull := fill_of_isHit hhit
    rw [symbolsForRecords_of_header hmove, hahead]
    omega

/-- HEADER_STEP counts the 16 symbols it passes as the packet's, and sets the payload's apart (R94). -/
theorem symbolsForRecords_headerDone {s : State} (hb : s.pstate = .header) (hheld : 17 ≤ held s) (m : Memory 8) :
    symbolsForRecords (headerDone (withAcc s m)) ≤ symbolsForRecords s := by
  rw [symbolsForRecords_of_header hb, symbolsForRecords_of_payload (headerDone_pstate _),
    held_headerDone m (by omega)]
  omega

/-- PAYLOAD_STEP spends 48 symbols on a record, beside those of its payload (R90, R96). -/
theorem symbolsForRecords_payloadDone {s : State} (hb : s.pstate = .payload)
    (hheld : 8 * s.pend.plen.toNat + 1 ≤ held s) (m : Memory 8) :
    symbolsForRecords (payloadDone (withAcc s m)) + 48 = symbolsForRecords s := by
  have hclear : (Correlator.clear.fill).toNat = 0 := rfl
  rw [symbolsForRecords_of_payload hb, symbolsForRecords_of_begin (payloadDone_pstate _), payloadDone_corr, hclear,
    held_payloadDone m (by omega)]
  omega

/-- What R36 allows ahead of CURSOR between commands leaves at most 48 symbols for records, and a buffer brings M more
(R36, R102). -/
theorem ParseCoherent.symbolsForRecords_ingest {s : State} (h : ParseCoherent s) (raw : List Word) :
    symbolsForRecords (ingest raw s) ≤ 48 + s.params.symbolsPerBuffer := by
  have hnew := held_ingest raw s
  cases hb : s.pstate with
  | begin =>
    obtain ⟨-, -, -, -, hheld⟩ := h.inBegin hb
    have hfill := h.fillBound
    rw [symbolsForRecords_of_begin (by rwa [ingest_pstate]), ingest_corr]
    omega
  | header =>
    obtain ⟨-, hheld⟩ := h.inHeader hb
    rw [symbolsForRecords_of_header (by rwa [ingest_pstate])]
    omega
  | payload =>
    obtain ⟨-, -, hheld⟩ := h.inPayload hb
    rw [symbolsForRecords_of_payload (by rwa [ingest_pstate]), ingest_pend]
    omega

/-! ### The records of one PROCESS_BUFFER -/

/-- `n` records have been assembled since the state `s`, each out of 48 of the symbols there were for records. -/
def RecordsPaid (s t : State) (n : Nat) : Prop :=
  t.pktCount = s.pktCount + BitVec.ofNat 32 n ∧ 48 * n + symbolsForRecords t ≤ symbolsForRecords s

theorem recordsPaid_none (s : State) : RecordsPaid s s 0 := ⟨by simp, by omega⟩

/-- A turn that assembles no record. -/
theorem RecordsPaid.turn {s u v : State} {n : Nat} (h : RecordsPaid s u n) (hcount : v.pktCount = u.pktCount)
    (hsymbols : symbolsForRecords v ≤ symbolsForRecords u) : RecordsPaid s v n := by
  obtain ⟨hpkt, hpaid⟩ := h
  exact ⟨hcount.trans hpkt, by omega⟩

/-- A turn that assembles one. -/
theorem RecordsPaid.record {s u v : State} {n : Nat} (h : RecordsPaid s u n) (hcount : v.pktCount = u.pktCount + 1)
    (hsymbols : symbolsForRecords v + 48 = symbolsForRecords u) : RecordsPaid s v (n + 1) := by
  obtain ⟨hpkt, hpaid⟩ := h
  exact ⟨by rw [hcount, hpkt, add_ofNat_add_one], by omega⟩

/-- PARSE assembles no record without 48 symbols for it (R90). -/
theorem parse_recordsPaid {s t : State} (h : parse s = .ok t) : ∃ n, RecordsPaid s t n := by
  refine parse_keeps (P := fun u => ∃ n, RecordsPaid s u n) ?corr ?header ?payload ⟨0, recordsPaid_none s⟩ h
  case corr =>
    rintro u v hb hheld ⟨n, hu⟩ hv
    rw [corrStep_ok hv]
    exact ⟨n, hu.turn (corrNext_pktCount _ _) (symbolsForRecords_corrNext hb hheld _)⟩
  case header =>
    rintro u hb hheld ⟨n, hu⟩
    exact ⟨n, hu.turn rfl (symbolsForRecords_headerDone hb hheld _)⟩
  case payload =>
    rintro u hb hheld ⟨n, hu⟩
    exact ⟨n + 1, hu.record (payloadDone_pktCount _) (symbolsForRecords_payloadDone hb hheld _)⟩

/-- Settles O46: a buffer leaves at most 48 + M symbols for records, and a record costs 48. -/
theorem recordsPerBufferAreBounded : Obligations.RecordsPerBufferAreBounded := by
  intro s t raw _ hs h
  rcases execProcessBuffer_cases h with ⟨hz, -⟩ | ⟨-, -, rfl⟩ | ⟨-, -, -, hp⟩
  · exact absurd rfl hz
  · exact ⟨0, by simp, by omega⟩
  · obtain ⟨n, hpkt, hpaid⟩ := parse_recordsPaid hp
    have hsymbols := hs.symbolsForRecords_ingest raw
    rw [ingest_pktCount] at hpkt
    exact ⟨n, hpkt, by omega⟩

end Sys2Proof.Machine
end
